-- ==== Sys2Proof/Word.lean ====
section
/-! DEFINITION. The word types of LIFE-CORE and the names of the two one-bit fields of a command word.
A register, an operand, a result and a command word are 32 bits (00_scope.md R7, R12); a byte of TXT is 8; a host
address is 24 bits (20_memory.md R60). Everything with arithmetic in it stands in Sys2Proof/Machine/. -/

namespace Sys2Proof

/-- A register, operand, result or command word (R7: 32-bit). -/
abbrev Word := BitVec 32

/-- A byte of the text buffer TXT (R37). -/
abbrev Byte := BitVec 8

/-- A host byte address, 0x000000 .. 0xFFFFFF (R60). -/
abbrev Addr := BitVec 24

/-- MODE, bit 8 of a UPD command word (R90, R92): which rule representation is active. -/
inductive UpdMode where
  /-- MODE = 0: the rule table RT. -/
  | rt
  /-- MODE = 1: the fixed-rule table LUT. -/
  | lut
  deriving DecidableEq, Repr

/-- SEL, bit 9 of a UPD or PPLACE command word (R90, R93): which generation buffer is the world. -/
inductive BufSel where
  /-- SEL = 0: BUF0. -/
  | s0
  /-- SEL = 1: BUF1. -/
  | s1
  deriving DecidableEq, Repr

/-- The other generation buffer, BUF[1-SEL] (R93). -/
def BufSel.other : BufSel → BufSel
  | .s0 => .s1
  | .s1 => .s0

end Sys2Proof
end

