-- ==== Sys2Proof/Syntax.lean ====
section
/-! DEFINITION. The command set: one constructor per row of spec/opcode_table.json (30_encoding.md R91). A command word
carries no operands (R90): W, H, positions, offsets and counts are read from ARG0..ARG3 when the block executes, so
the only arguments of a constructor are the fields MODE and SEL where R90 defines them. -/

namespace Sys2Proof

/-- The thirteen commands of R91. -/
inductive Instr where
  /-- NBR, OPC 0x01: the 8 toroidal neighbours of a cell (R125). -/
  | nbr
  /-- RCOMP, OPC 0x10: compile a rule string into RT (R142). -/
  | rcomp
  /-- RQUERY, OPC 0x11: read the rule table (R144). -/
  | rquery
  /-- RENC, OPC 0x12: compute a rule-table index (R145). -/
  | renc
  /-- RDEC, OPC 0x13: split a rule-table index (R146). -/
  | rdec
  /-- NENC, OPC 0x20: encode 8 booleans as a neighborhood code (R172). -/
  | nenc
  /-- NDEC, OPC 0x21: decode a neighborhood code (R173). -/
  | ndec
  /-- LLOOK, OPC 0x30: read the fixed-rule table (R182). -/
  | llook
  /-- LLOGIC, OPC 0x31: compute the Conway rule (R183). -/
  | llogic
  /-- UPD, OPC 0x40: compute the next generation incrementally (R201). -/
  | upd (mode : UpdMode) (sel : BufSel)
  /-- PPARSE, OPC 0x50: parse pattern text into PAT (R231). -/
  | pparse
  /-- PPLACE, OPC 0x51: copy the pattern into a world buffer (R234). -/
  | pplace (sel : BufSel)
  /-- PCENTER, OPC 0x52: the centered placement offset (R236). -/
  | pcenter
  deriving DecidableEq, Repr

end Sys2Proof
end

