-- ==== Sys2Proof/Decode.lean ====
section
/-! DEFINITION. Decoding a 32-bit command word (30_encoding.md R90, R91, R94) and encoding a command (R106). There is
one format and one length (R103). The decoder is total and names why it rejects; every rejected word faults with
ILLEGAL_COMMAND when the block executes it (R94). -/

namespace Sys2Proof

/-- Why a command word is illegal (R94). -/
inductive DecodeError where
  /-- Bits 31:10 are not all 0. -/
  | reservedBits
  /-- MODE = 1 and OPC is not 0x40. -/
  | modeNotDefined
  /-- SEL = 1 and OPC is neither 0x40 nor 0x51. -/
  | selNotDefined
  /-- OPC is not in R91. -/
  | unknownOpcode
  deriving DecidableEq, Repr

/-- The field OPC, bits 7:0 (R90). -/
def opcField (w : Word) : Nat := (w.extractLsb' 0 8).toNat

/-- The field MODE, bit 8 (R90, R92). -/
def modeField (w : Word) : UpdMode := if w.getLsbD 8 then .lut else .rt

/-- The field SEL, bit 9 (R90, R93). -/
def selField (w : Word) : BufSel := if w.getLsbD 9 then .s1 else .s0

/-- The reserved field, bits 31:10 (R90). -/
def reservedField (w : Word) : Nat := (w.extractLsb' 10 22).toNat

/-- The opcode map of R91, for a word whose reserved, MODE and SEL bits are as R94 asks. -/
def decodeOpcode (w : Word) : Except DecodeError Instr :=
  match opcField w with
  | 0x01 => .ok .nbr
  | 0x10 => .ok .rcomp
  | 0x11 => .ok .rquery
  | 0x12 => .ok .renc
  | 0x13 => .ok .rdec
  | 0x20 => .ok .nenc
  | 0x21 => .ok .ndec
  | 0x30 => .ok .llook
  | 0x31 => .ok .llogic
  | 0x40 => .ok (.upd (modeField w) (selField w))
  | 0x50 => .ok .pparse
  | 0x51 => .ok (.pplace (selField w))
  | 0x52 => .ok .pcenter
  | _ => .error .unknownOpcode

/-- Decode a command word, or say which condition of R94 makes it illegal. -/
def decode (w : Word) : Except DecodeError Instr :=
  if reservedField w ≠ 0 then .error .reservedBits
  else if w.getLsbD 8 = true ∧ opcField w ≠ 0x40 then .error .modeNotDefined
  else if w.getLsbD 9 = true ∧ opcField w ≠ 0x40 ∧ opcField w ≠ 0x51 then .error .selNotDefined
  else decodeOpcode w

/-- The word of MODE alone (R90: bit 8). -/
def modeBits : UpdMode → Word
  | .rt => 0x000
  | .lut => 0x100

/-- The word of SEL alone (R90: bit 9). -/
def selBits : BufSel → Word
  | .s0 => 0x000
  | .s1 => 0x200

/-- The command word of a command (R106). -/
def encode : Instr → Word
  | .nbr => 0x00000001
  | .rcomp => 0x00000010
  | .rquery => 0x00000011
  | .renc => 0x00000012
  | .rdec => 0x00000013
  | .nenc => 0x00000020
  | .ndec => 0x00000021
  | .llook => 0x00000030
  | .llogic => 0x00000031
  | .upd mode sel => 0x00000040 ||| modeBits mode ||| selBits sel
  | .pparse => 0x00000050
  | .pplace sel => 0x00000051 ||| selBits sel
  | .pcenter => 0x00000052

/-- The command that the host's numbering of a table row reads as: `nbits` bits, bit 0 the least significant of the one
32-bit word of a command (R103), the bits above `nbits` zero. -/
def decodeTableWord (nbits w : Nat) : Option Instr :=
  if w % 2 ^ nbits < 2 ^ 32 then
    match decode (BitVec.ofNat 32 (w % 2 ^ nbits)) with
    | .ok i => some i
    | .error _ => none
  else none

end Sys2Proof
end

