-- ==== Sys2Proof/Machine/Bits.lean ====
section
/-! DEFINITION. Packing helpers: the bit and byte order of the windows (20_memory.md R67), result forms (30_encoding.md
R100), the information word of UNINIT_READ (60_exceptions.md R260). -/

namespace Sys2Proof.Machine

/-- The number whose bit `b` is `f b`, for `b < n`. -/
def natOfBits (f : Nat → Bool) : Nat → Nat
  | 0 => 0
  | n + 1 => natOfBits f n + (f n).toNat * 2 ^ n

/-- The word whose bit `b` is `f b` (R12: bit 0 has weight 1). -/
def wordOfBits (f : Nat → Bool) : Word := BitVec.ofNat 32 (natOfBits f 32)

/-- Byte `q` of a word: bits [8q+7 : 8q] (R67). -/
def byteOfWord (v : Word) (q : Nat) : Byte := v.extractLsb' (8 * q) 8

/-- A number as a register value; used where the number is below 2^32. -/
def wordOfNat (n : Nat) : Word := BitVec.ofNat 32 n

/-- A Boolean result: 0 or 1 in bit 0 (R100). -/
def wordOfBool (b : Bool) : Word := wordOfNat b.toNat

/-- A coordinate pair as one result: `x | (y << 16)` (R100). -/
def packCoord (c : Nat × Nat) : Word := wordOfNat (c.1 ||| (c.2 <<< 16))

/-- FINFO of UNINIT_READ: `(bank code << 28) | index` (R260). -/
def uninitInfo (code i : Nat) : Word := wordOfNat ((code <<< 28) ||| i)

/-- The 8 direction numbers k = 0..7 (40_addressing.md R121). -/
def dirs : List (Fin 8) := [0, 1, 2, 3, 4, 5, 6, 7]

/-- `ceil(n / d)`, the number of window words (20_memory.md R62). -/
def ceilDiv (n d : Nat) : Nat := (n + (d - 1)) / d

end Sys2Proof.Machine
end

