-- ==== Sys2Proof/Config.lean ====
section
/-! DEFINITION. The open parameters of 92_eei_decisions.md P1 to P5 (00_scope.md R7), their legal ranges and reference
values, and the one free value of the model. A machine carries its parameters in State.params, so that a statement
about every state holds for every legal parameter value (log entry 1). -/

namespace Sys2Proof

/-- The five implementation parameters of R7. -/
structure Params where
  /-- `CELL_CAP`, capacity in bits of each of BUF0, BUF1 and CHG. -/
  cellCap : Nat
  /-- `TXT_CAP`, capacity in bytes of TXT. -/
  txtCap : Nat
  /-- `PAT_CAP`, capacity in bits of PAT. -/
  patCap : Nat
  /-- `ALIVE_MARKER`, the byte that denotes a live cell in pattern text. -/
  aliveMarker : Byte
  /-- `COMMENT_MARKER`, the byte that opens a comment line in pattern text. -/
  commentMarker : Byte
  deriving DecidableEq, Repr

/-- The reference values of R7. DESIGN CHOICE (log entry 1): the machine after power-on has them. PRESUMED (log entry
12): the spec marks the comment marker's value as general knowledge. -/
def Params.reference : Params where
  cellCap := 4096
  txtCap := 4096
  patCap := 4096
  aliveMarker := 0x4F
  commentMarker := 0x21

/-- DESIGN CHOICE (log entry 4). The arbitrary value of the k-th draw: what a host read gets for cells that hold no
value (10_state.md R33, 20_memory.md R63) and what a read that faults during BUSY returns (R70). It has no body, so
nothing can be proved of its value; the counter State.draws makes each draw a fresh one. -/
opaque Config.freeWord : Nat → Word

end Sys2Proof
end

