-- ==== Sys2Proof/Machine/State.lean ====
section
/-! DEFINITION. The state of LIFE-CORE as plain data (10_state.md R20: "exactly this record"), the host agent that drives
it (00_scope.md R8, R11; 30_encoding.md R104), the stops, and the state after reset (R44, 70_reset_and_hazards.md R290).
Every piece the spec gives is listed in INVENTORY.md under "State". CTRL has no storage (R31), CAND exists only inside
one UPD (R42 b), LUT is a constant (R39): none of them is a field. -/

namespace Sys2Proof.Machine

/-- A storage bank: the written cells, as (index, value), indices strictly rising; an unlisted cell is unwritten
(R33; DESIGN CHOICE, log entry 10). At `Byte` it is a `List Host.Cell`. Its operations stand in Machine/Ops.lean. -/
abbrev Memory (α : Type) := List (Nat × α)

/-- The format errors of 60_exceptions.md R260 (codes below 0x80). -/
inductive FormatError where
  | ruleNotAscii | ruleNoSeparator | ruleBadPrefix | ruleBadDigit | nbLength | patRowLength | patEmpty
  deriving DecidableEq, Repr

/-- The fault causes of 60_exceptions.md R260 (codes from 0x80 up). -/
inductive FaultCause where
  | illegalCommand | illegalOperand | gridZero | bufCapacity | lengthMismatch | uninitRead | txtRange
  | ruleDigitRange | ruleCountRange | noRule | noPattern | patCapacity | placeBounds | centerBounds
  | hostBusyAccess
  deriving DecidableEq, Repr

/-- STATUS.CAUSE by name (R260); its 8-bit code is `Cause.code` of Machine/Flags.lean. -/
inductive Cause where
  | none
  | error (e : FormatError)
  | fault (c : FaultCause)
  deriving DecidableEq, Repr

/-- STATUS (R26). Its 32-bit view, with the reserved bits 0, is `Status.toWord` of Machine/Flags.lean. -/
structure Status where
  /-- bit 0: an issued command is pending (R27) -/
  busy : Bool
  /-- bit 1: the last command ended with a format error (R28) -/
  err : Bool
  /-- bit 2, sticky: a fault has occurred, the block is halted (R29) -/
  fault : Bool
  /-- bit 3: RCOMP has succeeded since reset (R30) -/
  rtValid : Bool
  /-- bit 4: PPARSE has succeeded since reset (R30) -/
  patValid : Bool
  /-- bits 15:8: the cause of the last error or fault (R260) -/
  cause : Cause
  deriving DecidableEq, Repr

/-- How a command can end other than by success (00_scope.md R10, R14): `return Error(c, info)` or
`raise Fault(c, info)`. -/
inductive Stop where
  | error (e : FormatError) (info : Word)
  | fault (c : FaultCause) (info : Word)
  deriving DecidableEq, Repr

/-- The three banks of CELL_CAP cells (R20): a generation buffer or the change bitset. -/
inductive CellBank where
  | buf (sel : BufSel)
  | chg
  deriving DecidableEq, Repr

/-- The two agents of R8. -/
inductive Agent where
  | host
  | block
  deriving DecidableEq, Repr

/-- The value a host statement writes: a number, a read result the program has named, or the exclusive or of two of
them (R104; 70_reset_and_hazards.md R294 writes `a xor b`). -/
inductive HostVal where
  | lit (w : Word)
  | name (n : Nat)
  | xor (a b : Nat)
  deriving DecidableEq, Repr

/-- A host statement that is one access, or the loop `wait` (R104, R105). `bits` is the width of the access: only 32 has
a meaning (20_memory.md R66 a). -/
inductive HostStmt where
  /-- `wr T, v` (and `cmd M`, a write to CMD). -/
  | wr (bits : Nat) (addr : Addr) (v : HostVal)
  /-- `rd T`, its result named `into` if the program names it. -/
  | rd (bits : Nat) (addr : Addr) (into : Option Nat)
  /-- `wait`: read STATUS until bit 0 of the value read is 0. -/
  | wait
  deriving DecidableEq, Repr

/-- The host agent: what it has still to do, and the read results it has named. DESIGN CHOICE (log entry 2). -/
structure HostAgent where
  prog : List HostStmt
  names : Memory Word
  deriving DecidableEq, Repr

/-- The state of LIFE-CORE and its host. -/
structure State where
  /-- the machine's parameters, behind CAP_CELL, CAP_TXT, CAP_PAT (R7, R41); no step changes them -/
  params : Params
  /-- CMD, the last command word accepted (R24); the pending command while BUSY = 1 (R42 a) -/
  cmd : Word
  /-- STATUS (R26) -/
  status : Status
  /-- FINFO (R32) -/
  finfo : Word
  /-- ARG0..ARG3 (R22) -/
  arg : Vector Word 4
  /-- RES0..RES7 (R23) -/
  res : Vector Word 8
  /-- LEN0, allocated length of BUF0 (R36) -/
  len0 : Word
  /-- LEN1, allocated length of BUF1 (R36) -/
  len1 : Word
  /-- LENC, allocated length of CHG (R36) -/
  lenc : Word
  /-- RT[0..17] (R38) -/
  rt : BitVec 18
  /-- PAT_W (R40) -/
  patW : Word
  /-- PAT_H (R40) -/
  patH : Word
  /-- BUF0 (R34) -/
  buf0 : Memory Bool
  /-- BUF1 (R34) -/
  buf1 : Memory Bool
  /-- CHG, the change bitset (R35) -/
  chg : Memory Bool
  /-- TXT, the text buffer (R37) -/
  txt : Memory Byte
  /-- PAT, the pattern bits (R40) -/
  pat : Memory Bool
  /-- the REFUSED mark (R21) -/
  refused : Bool
  /-- the host agent (log entry 2) -/
  host : HostAgent
  /-- who moves, where both agents could, oldest choice first (log entry 3) -/
  sched : List Agent
  /-- how many free values host reads have drawn (log entry 4) -/
  draws : Nat
  deriving DecidableEq, Repr

/-- Why the machine stops in Lean's sense. The faults of the SPEC are next states (STATUS.FAULT), not these. -/
inductive Fault where
  /-- Raised by `step` when STATUS.FAULT = 1 and the host has no statement left: the block has no step (R43) and only a
  host write to CTRL could leave the halted state. Safe (log entry 6). -/
  | halted
  /-- Raised by PPLACE when a PAT cell it must copy is unwritten (R14: BitRead's precondition). No state that meets
  `State.Inv` (Sys2Proof/Safety.lean) reaches it. Safe (log entry 9). -/
  | patCellUnwritten (i : Nat)
  /-- Raised by a host write whose value names a read result that no `rd` has given: the host program is ill-formed.
  Safe (log entry 8). -/
  | hostNameUnset (n : Nat)
  deriving DecidableEq, Repr

/-- Refusals. -/
inductive Refusal where
  /-- Raised by `exec` for a command that has no meaning yet. Safe. -/
  | notModelled (mnemonic : String)
  deriving DecidableEq, Repr

/-- The record of R44, for given parameters and given model fields: every register 0, every cell unwritten (log entry
19). -/
def State.blank (p : Params) (refused : Bool) (host : HostAgent) (sched : List Agent) (draws : Nat) : State where
  params := p
  cmd := 0
  status :=
    { busy := false, err := false, fault := false, rtValid := false, patValid := false, cause := .none }
  finfo := 0
  arg := #v[0, 0, 0, 0]
  res := #v[0, 0, 0, 0, 0, 0, 0, 0]
  len0 := 0
  len1 := 0
  lenc := 0
  rt := 0
  patW := 0
  patH := 0
  buf0 := []
  buf1 := []
  chg := []
  txt := []
  pat := []
  refused := refused
  host := host
  sched := sched
  draws := draws

/-- The machine right after power-on (R290, R291 a), with the reference parameters (log entry 1), a host that has
nothing to do (log entry 2) and no draw made. -/
def State.reset : State :=
  State.blank Params.reference false { prog := [], names := [] } [] 0

end Sys2Proof.Machine
end

