-- ==== Sys2Proof/Machine/Flags.lean ====
section
/-! DEFINITION. The STATUS flags (10_state.md R25 to R30): the cause codes of 60_exceptions.md R260, the 32-bit view of
STATUS (R26), and the five changes of the flags that the spec knows. LIFE-CORE has no condition codes (R25), so these are
every flag computation there is. -/

namespace Sys2Proof.Machine

/-- Codes 0x01 .. 0x07 of R260. -/
def FormatError.code : FormatError → Byte
  | .ruleNotAscii => 0x01
  | .ruleNoSeparator => 0x02
  | .ruleBadPrefix => 0x03
  | .ruleBadDigit => 0x04
  | .nbLength => 0x05
  | .patRowLength => 0x06
  | .patEmpty => 0x07

/-- Codes 0x80 .. 0x8E of R260. -/
def FaultCause.code : FaultCause → Byte
  | .illegalCommand => 0x80
  | .illegalOperand => 0x81
  | .gridZero => 0x82
  | .bufCapacity => 0x83
  | .lengthMismatch => 0x84
  | .uninitRead => 0x85
  | .txtRange => 0x86
  | .ruleDigitRange => 0x87
  | .ruleCountRange => 0x88
  | .noRule => 0x89
  | .noPattern => 0x8A
  | .patCapacity => 0x8B
  | .placeBounds => 0x8C
  | .centerBounds => 0x8D
  | .hostBusyAccess => 0x8E

/-- STATUS.CAUSE, 8 bits (R260). -/
def Cause.code : Cause → Byte
  | .none => 0x00
  | .error e => e.code
  | .fault c => c.code

/-- STATUS as the host reads it (R26): bits 7:5 and 31:16 read as 0. -/
def Status.toWord (st : Status) : Word :=
  BitVec.ofNat 32 (st.busy.toNat + 2 * st.err.toNat + 4 * st.fault.toNat + 8 * st.rtValid.toNat
    + 16 * st.patValid.toNat + 256 * st.cause.code.toNat)

/-- At issue (R27, R28, 30_encoding.md R95): BUSY is set, ERR and CAUSE are cleared. -/
def Status.onIssue (st : Status) : Status := { st with busy := true, err := false, cause := .none }

/-- A command succeeds: BUSY is cleared (R27), the other flags keep their values (R28). -/
def Status.onSuccess (st : Status) : Status := { st with busy := false }

/-- A format error (R28, 60_exceptions.md R264): ERR, CAUSE, and BUSY cleared. -/
def Status.onError (st : Status) (e : FormatError) : Status :=
  { st with busy := false, err := true, cause := .error e }

/-- A fault (R29, 60_exceptions.md R263): FAULT, CAUSE, and BUSY cleared; ERR keeps its value, which is 0 since issue. -/
def Status.onFault (st : Status) (c : FaultCause) : Status :=
  { st with busy := false, fault := true, cause := .fault c }

/-- RCOMP has succeeded (R30). -/
def Status.markRt (st : Status) : Status := { st with rtValid := true }

/-- PPARSE has succeeded (R30). -/
def Status.markPat (st : Status) : Status := { st with patValid := true }

end Sys2Proof.Machine
end

