-- ==== Sys2Proof/Machine/Ops.lean ====
section
/-! DEFINITION. The shared operations: storage banks (10_state.md R33), registers, error and fault entry
(60_exceptions.md R263, R264), commit (00_scope.md R15), reset (70_reset_and_hazards.md R290). There is no return from a
fault (R265): a reset is the one way out. -/

namespace Sys2Proof.Machine

/-! ### Storage banks -/

/-- The value of cell `i`, or none where it is unwritten (R33). -/
def Memory.read {α : Type} : Memory α → Nat → Option α
  | [], _ => none
  | (j, u) :: m, i => if i = j then some u else Memory.read m i

/-- Cell `i` becomes written with value `v` (R33); the list stays strictly rising. -/
def Memory.write {α : Type} : Memory α → Nat → α → Memory α
  | [], i, v => [(i, v)]
  | (j, u) :: m, i, v =>
    if i < j then (i, v) :: (j, u) :: m
    else if i = j then (i, v) :: m
    else (j, u) :: Memory.write m i v

/-- Several writes, in order: the commit of a command's staged writes to one bank (R15). -/
def Memory.writeMany {α : Type} (m : Memory α) (cells : List (Nat × α)) : Memory α :=
  cells.foldl (fun m c => Memory.write m c.1 c.2) m

/-- The canonical form: indices strictly rising. An unlisted cell is unwritten, so no listed one equals it. -/
abbrev Memory.wf {α : Type} (m : Memory α) : Prop := m.Pairwise (fun a b => a.1 < b.1)

/-- Every written cell exists: its index is below the bank's capacity. -/
abbrev Memory.within {α : Type} (m : Memory α) (cap : Nat) : Prop := ∀ c ∈ m, c.1 < cap

/-- The least unwritten cell among the `n` cells from `off` on, if there is one (the UNINIT_READ loops). -/
def Memory.firstUnwritten {α : Type} (m : Memory α) (off n : Nat) : Option Nat :=
  (List.range' off n).find? (fun i => (Memory.read m i).isNone)

/-- The values of the `n` cells from `off` on. Used after `firstUnwritten` has answered none, so no cell is left out. -/
def Memory.readMany {α : Type} (m : Memory α) (off n : Nat) : List α :=
  (List.range' off n).filterMap (Memory.read m)

/-- `BitRead(bank, i)` (00_scope.md R14) as a truth value, where its precondition holds: cell `i` is written. -/
def Memory.alive (m : Memory Bool) (i : Nat) : Bool := Memory.read m i == some true

/-! ### Banks and registers of a state -/

/-- BUF[sel] (30_encoding.md R93). -/
def State.buf (s : State) : BufSel → Memory Bool
  | .s0 => s.buf0
  | .s1 => s.buf1

/-- Replace the contents of BUF[sel]. -/
def State.setBuf (s : State) (sel : BufSel) (m : Memory Bool) : State :=
  match sel with
  | .s0 => { s with buf0 := m }
  | .s1 => { s with buf1 := m }

/-- The cells of a bank of CELL_CAP cells. -/
def State.cells (s : State) : CellBank → Memory Bool
  | .buf sel => s.buf sel
  | .chg => s.chg

/-- Replace the cells of a bank of CELL_CAP cells. -/
def State.setCells (s : State) (b : CellBank) (m : Memory Bool) : State :=
  match b with
  | .buf sel => s.setBuf sel m
  | .chg => { s with chg := m }

/-- `LEN(b)` (44_update_engine.md R201): LEN0, LEN1 or LENC. -/
def State.len (s : State) : CellBank → Nat
  | .buf .s0 => s.len0.toNat
  | .buf .s1 => s.len1.toNat
  | .chg => s.lenc.toNat

/-- Bank codes BUF0 = 0, BUF1 = 1, CHG = 2 (R260). -/
def CellBank.code : CellBank → Nat
  | .buf .s0 => 0
  | .buf .s1 => 1
  | .chg => 2

/-- Bank code TXT = 3 (R260). -/
def txtCode : Nat := 3

/-- `RES[i] <- v` (R14). -/
def State.setRes (s : State) (i : Fin 8) (v : Word) : State := { s with res := s.res.set i v }

/-! ### The three ends of a command (00_scope.md R10, 30_encoding.md R96) -/

/-- Error entry (R264). -/
def errorEntry (s : State) (e : FormatError) (info : Word) : State :=
  { s with status := s.status.onError e, finfo := info }

/-- Fault entry (R263): the block halts; CMD keeps the faulting word. -/
def faultEntry (s : State) (c : FaultCause) (info : Word) : State :=
  { s with status := s.status.onFault c, finfo := info }

/-- A command that ends in an error or a fault applies none of its staged writes (R15). -/
def endStop (s : State) : Stop → State
  | .error e info => errorEntry s e info
  | .fault c info => faultEntry s c info

/-- Success: the staged writes stand, BUSY is cleared (R96). -/
def commit (staged : State) : State := { staged with status := staged.status.onSuccess }

/-- The block step of a command (R96): `stop` gives the first check that fails, `stage` the state with the staged writes
applied, both read from the state before the command (R15). -/
def runCommand (stop : State → Option Stop) (stage : State → State) (s : State) :
    Host.Outcome State Fault Refusal :=
  match stop s with
  | some e => .next (endStop s e)
  | none => .next (commit (stage s))

/-- Executing an illegal command word (R94): `Fault(ILLEGAL_COMMAND, cmd)`. -/
def illegalCommand (s : State) : State := faultEntry s .illegalCommand s.cmd

/-! ### Issue and reset -/

/-- The accepting branch of issue (R95). -/
def acceptCommand (s : State) (v : Word) : State :=
  { s with cmd := v, status := s.status.onIssue, finfo := 0 }

/-- Reset (R290) in any state: every item of R44 at its value; the parameters and the REFUSED mark unchanged, and with
them the model's own fields, which are no state of the block. -/
def State.resetBlock (s : State) : State := State.blank s.params s.refused s.host s.sched s.draws

end Sys2Proof.Machine
end

