-- ==== Sys2Proof/Machine/Operands.lean ====
section
/-! DEFINITION. Operand forms (30_encoding.md R97 to R99): operands are whole ARG registers or their low bits, always
zero-extended; a nonzero reserved bit faults. -/

namespace Sys2Proof.Machine

/-- `ARG[i]` as an unsigned number. Once the reserved bits of a command's field are checked, it is the field. -/
def State.argNat (s : State) (i : Fin 4) : Nat := (s.arg[i]).toNat

/-- R98: the registers named are checked in the order given; the first whose value does not fit its field raises
`Fault(ILLEGAL_OPERAND, i)`. -/
def reservedStop (s : State) : List (Fin 4 × Nat) → Option Stop
  | [] => none
  | (i, bits) :: rest =>
    if s.argNat i < 2 ^ bits then reservedStop s rest
    else some (.fault .illegalOperand (wordOfNat i.val))

/-- R99: a status operand is 1 bit. -/
def statusBits : Nat := 1

/-- R99: a rule-table index is 5 bits. -/
def indexBits : Nat := 5

/-- R99: a neighborhood code is 8 bits. -/
def codeBits : Nat := 8

/-- R99: a grid dimension or a coordinate is 16 bits. -/
def dimBits : Nat := 16

/-- R97: the fields of a command that takes W and H (UPD, PCENTER). -/
def gridFields : List (Fin 4 × Nat) := [(0, dimBits), (1, dimBits)]

/-- R97: the fields of a command that takes W, H and a position (NBR, PPLACE). -/
def gridPosFields : List (Fin 4 × Nat) := [(0, dimBits), (1, dimBits), (2, dimBits), (3, dimBits)]

/-- R97: the fields of a command that takes a status and a code (LLOOK, LLOGIC). -/
def statusCodeFields : List (Fin 4 × Nat) := [(0, statusBits), (1, codeBits)]

/-- 40_addressing.md R120, GridCheck. -/
def gridStop (W H : Nat) : Option Stop :=
  if W = 0 ∨ H = 0 then some (.fault .gridZero 0) else none

/-- The checks every command that takes a grid size begins with: reserved bits, then GridCheck (R120). -/
def gridOperandStop (s : State) (fields : List (Fin 4 × Nat)) : Option Stop :=
  match reservedStop s fields with
  | some e => some e
  | none => gridStop (s.argNat 0) (s.argNat 1)

/-- The checks RCOMP and PPARSE begin with (41_rule_table.md R142, 45_pattern.md R231): offset and length stay inside TXT,
the sum exact, and every byte is written. -/
def textStop (s : State) : Option Stop :=
  if s.params.txtCap < s.argNat 0 + s.argNat 1 then some (.fault .txtRange 0)
  else
    match s.txt.firstUnwritten (s.argNat 0) (s.argNat 1) with
    | some j => some (.fault .uninitRead (uninitInfo txtCode j))
    | none => none

/-- The text operand `s[j] <- TxtRead(off + j)`, j in 0 .. len-1, after `textStop` has answered none. -/
def State.text (s : State) : List Byte := s.txt.readMany (s.argNat 0) (s.argNat 1)

end Sys2Proof.Machine
end

