-- ==== Sys2Proof/Machine/Neighborhood.lean ====
section
/-! DEFINITION. Neighborhood Addressing (40_addressing.md): the toroidal neighbour function and NBR. -/

namespace Sys2Proof.Machine

/-- The column or row before `c` on a ring of `n`: "(x = 0) ? W - 1 : x - 1" (R122). -/
def ringBefore (n c : Nat) : Nat := if c = 0 then n - 1 else c - 1

/-- The column or row after `c` on a ring of `n`: "(x + 1) mod W" (R122). -/
def ringAfter (n c : Nat) : Nat := (c + 1) % n

/-- The table of R122 for a cell already reduced into the grid, clockwise from top-left (R121). -/
def nbrTable (W H x y : Nat) : Vector (Nat × Nat) 8 :=
  #v[(ringBefore W x, ringBefore H y), (x, ringBefore H y), (ringAfter W x, ringBefore H y),
     (ringAfter W x, y), (ringAfter W x, ringAfter H y), (x, ringAfter H y),
     (ringBefore W x, ringAfter H y), (ringBefore W x, y)]

/-- `Nbr(W, H, x, y, k)` (R122): x and y are reduced first (decision D30). -/
def nbr (W H x y : Nat) (k : Fin 8) : Nat × Nat := (nbrTable W H (x % W) (y % H))[k]

/-- `Lin(W, x, y) = y*W + x` (R123). -/
def lin (W : Nat) (c : Nat × Nat) : Nat := c.2 * W + c.1

/-- `NbrIdx(W, H, i, k)` (R124). -/
def nbrIdx (W H i : Nat) (k : Fin 8) : Nat := lin W (nbr W H (i % W) (i / W) k)

/-- The checks of NBR (R125). -/
def nbrStop (s : State) : Option Stop := gridOperandStop s gridPosFields

/-- The staged writes of NBR (R125): RES[k] for k = 0..7. -/
def nbrStage (s : State) : State :=
  { s with
    res := (nbrTable (s.argNat 0) (s.argNat 1) (s.argNat 2 % s.argNat 0) (s.argNat 3 % s.argNat 1)).map packCoord }

/-- NBR (R125). -/
def execNbr (s : State) : Host.Outcome State Fault Refusal := runCommand nbrStop nbrStage s

end Sys2Proof.Machine
end

