-- ==== Sys2Proof/Machine/Pattern.lean ====
section
/-! DEFINITION. Pattern Loader/Placer (45_pattern.md): PPARSE, PPLACE, PCENTER. LF and CR are the bytes of 00_scope.md
R18 (PRESUMED, log entry 13). -/

namespace Sys2Proof.Machine

/-- A line of pattern text: the offset of its first byte, and its bytes (R230). -/
structure Line where
  start : Nat
  bytes : List Byte
  deriving DecidableEq, Repr

/-- A segment that ends in CR (0x0D) loses that one CR (R230). -/
def dropCr (seg : List Byte) : List Byte := if seg.getLast? = some 0x0D then seg.dropLast else seg

/-- Split at every LF (0x0A): `start` is the offset of the segment being read, `seg` its bytes so far, last first,
`pos` the offset of the next byte (R230). -/
def splitLines (start pos : Nat) (seg : List Byte) : List Byte → List Line
  | [] => [{ start := start, bytes := dropCr seg.reverse }]
  | c :: rest =>
    if c = 0x0A then { start := start, bytes := dropCr seg.reverse } :: splitLines (pos + 1) (pos + 1) [] rest
    else splitLines start (pos + 1) (c :: seg) rest

/-- `Lines(s)` (R230). -/
def textLines (txt : List Byte) : List Line := splitLines 0 0 [] txt

/-- A line that is not empty and does not begin with the comment marker (R230). -/
def isKept (marker : Byte) (l : Line) : Bool :=
  match l.bytes with
  | [] => false
  | c :: _ => c != marker

/-- `Kept(s)` (R230). -/
def keptLines (marker : Byte) (txt : List Byte) : List Line := (textLines txt).filter (isKept marker)

/-- The checks of PPARSE once the text is read; `off` is the TXT offset of its first byte (R231). -/
def patternTextStop (p : Params) (off : Nat) (txt : List Byte) : Option Stop :=
  match keptLines p.commentMarker txt with
  | [] => some (.error .patEmpty 0)
  | l :: rest =>
    match (l :: rest).find? (fun m => decide (m.bytes.length ≠ l.bytes.length)) with
    | some m => some (.error .patRowLength (wordOfNat (off + m.start)))
    | none =>
      if p.patCap < l.bytes.length * (l :: rest).length then some (.fault .patCapacity 0) else none

/-- The footprint: first-seen line length and number of kept lines (R231, R232). -/
def patFootprint (kept : List Line) : Nat × Nat :=
  match kept with
  | [] => (0, 0)
  | l :: rest => (l.bytes.length, (l :: rest).length)

/-- The pattern bits in row-major order (R231): after the row-length check bit r*pw + c is row r, column c. -/
def patBits (marker : Byte) (kept : List Line) : List Bool :=
  kept.flatMap fun l => l.bytes.map (fun c => c == marker)

/-- Number the values of a list from `i` on. -/
def numberFrom {α : Type} (i : Nat) : List α → List (Nat × α)
  | [] => []
  | v :: vs => (i, v) :: numberFrom (i + 1) vs

/-- The checks of PPARSE, in order (R231). -/
def pparseStop (s : State) : Option Stop :=
  match textStop s with
  | some e => some e
  | none => patternTextStop s.params (s.argNat 0) s.text

/-- The staged writes of PPARSE: PAT cells 0 .. pw*ph-1, PAT_W, PAT_H, PAT_VALID, RES0, RES1 (R231). -/
def pparseStage (s : State) : State :=
  let kept := keptLines s.params.commentMarker s.text
  let foot := patFootprint kept
  (({ s with
      pat := s.pat.writeMany (numberFrom 0 (patBits s.params.aliveMarker kept))
      patW := wordOfNat foot.1
      patH := wordOfNat foot.2
      status := s.status.markPat }).setRes 0 (wordOfNat foot.1)).setRes 1 (wordOfNat foot.2)

/-- PPARSE (R231). -/
def execPparse (s : State) : Host.Outcome State Fault Refusal := runCommand pparseStop pparseStage s

/-! ### PPLACE -/

/-- The checks of PPLACE, in order (R234). -/
def pplaceStop (sel : BufSel) (s : State) : Option Stop :=
  match gridOperandStop s gridPosFields with
  | some e => some e
  | none =>
    if s.status.patValid = false then some (.fault .noPattern 0)
    else if s.params.cellCap < s.len (.buf sel) then some (.fault .bufCapacity (wordOfNat (CellBank.buf sel).code))
    else if s.len (.buf sel) < s.argNat 0 * s.argNat 1 then some (.fault .placeBounds 0)
    else if s.argNat 0 < s.argNat 2 + s.patW.toNat then some (.fault .placeBounds 1)
    else if s.argNat 1 < s.argNat 3 + s.patH.toNat then some (.fault .placeBounds 2)
    else none

/-- The destination cell of pattern row r, column c: `(py + r)*W + (px + c)` (R234). -/
def placeIndex (W px py r c : Nat) : Nat := (py + r) * W + (px + c)

/-- The staged writes of PPLACE, row by row (R234). -/
def placeWrites (pat : Memory Bool) (pw ph W px py : Nat) : List (Nat × Bool) :=
  (List.range ph).flatMap fun r => (List.range pw).map fun c => (placeIndex W px py r c, pat.alive (r * pw + c))

/-- The state with the staged writes of PPLACE applied (R234). -/
def pplaceStage (sel : BufSel) (s : State) : State :=
  s.setBuf sel ((s.buf sel).writeMany
    (placeWrites s.pat s.patW.toNat s.patH.toNat (s.argNat 0) (s.argNat 2) (s.argNat 3)))

/-- PPLACE (R234). BitRead's precondition (00_scope.md R14) is checked before the copy: an unwritten PAT cell, which no
state that meets State.Inv has, stops the model (log entry 9). -/
def execPplace (sel : BufSel) (s : State) : Host.Outcome State Fault Refusal :=
  match pplaceStop sel s with
  | some e => .next (endStop s e)
  | none =>
    match s.pat.firstUnwritten 0 (s.patW.toNat * s.patH.toNat) with
    | some i => .fault (.patCellUnwritten i)
    | none => .next (commit (pplaceStage sel s))

/-! ### PCENTER -/

/-- The checks of PCENTER, in order (R236). -/
def pcenterStop (s : State) : Option Stop :=
  match gridOperandStop s gridFields with
  | some e => some e
  | none =>
    if s.status.patValid = false then some (.fault .noPattern 0)
    else if s.argNat 0 < s.patW.toNat then some (.fault .centerBounds 1)
    else if s.argNat 1 < s.patH.toNat then some (.fault .centerBounds 2)
    else none

/-- The staged writes of PCENTER: RES0 and RES1 (R236). -/
def pcenterStage (s : State) : State :=
  (s.setRes 0 (wordOfNat ((s.argNat 0 - s.patW.toNat) / 2))).setRes 1
    (wordOfNat ((s.argNat 1 - s.patH.toNat) / 2))

/-- PCENTER (R236). -/
def execPcenter (s : State) : Host.Outcome State Fault Refusal := runCommand pcenterStop pcenterStage s

end Sys2Proof.Machine
end

