-- ==== Sys2Proof/Machine/Codec.lean ====
section
/-! DEFINITION. Packed Neighborhood Codec (42_neighborhood_codec.md): NENC, NDEC. Bit k of a code is neighbour k with
weight 2^k (R170, decision D23; log entry 15). -/

namespace Sys2Proof.Machine

/-- `NbEncode(b) = b[0]·2^0 + ... + b[7]·2^7` (R171). -/
def nbEncode (b : Fin 8 → Bool) : Nat :=
  (b 0).toNat * 2 ^ 0 + (b 1).toNat * 2 ^ 1 + (b 2).toNat * 2 ^ 2 + (b 3).toNat * 2 ^ 3
    + (b 4).toNat * 2 ^ 4 + (b 5).toNat * 2 ^ 5 + (b 6).toNat * 2 ^ 6 + (b 7).toNat * 2 ^ 7

/-- `NbDecode(c) = [c[0], ..., c[7]]` (R171). -/
def nbDecode (c : Nat) (k : Fin 8) : Bool := c.testBit k.val

/-- The checks of NENC (R172): the length first, then the reserved bits of ARG1. -/
def nencStop (s : State) : Option Stop :=
  if s.argNat 0 ≠ 8 then some (.error .nbLength (s.arg[0])) else reservedStop s [(1, codeBits)]

/-- The staged write of NENC: RES0 (R172). -/
def nencStage (s : State) : State := s.setRes 0 (wordOfNat (nbEncode (fun k => (s.argNat 1).testBit k.val)))

/-- NENC (R172). -/
def execNenc (s : State) : Host.Outcome State Fault Refusal := runCommand nencStop nencStage s

/-- The checks of NDEC (R173). -/
def ndecStop (s : State) : Option Stop := reservedStop s [(0, codeBits)]

/-- The staged writes of NDEC: RES0 = 8, RES1 = the elements, element k at bit k (R173). -/
def ndecStage (s : State) : State :=
  (s.setRes 0 8).setRes 1 (wordOfNat ((dirs.map fun k => (nbDecode (s.argNat 0) k).toNat <<< k.val).sum))

/-- NDEC (R173). -/
def execNdec (s : State) : Host.Outcome State Fault Refusal := runCommand ndecStop ndecStage s

end Sys2Proof.Machine
end

