-- ==== Sys2Proof/Machine/FixedRule.lean ====
section
/-! DEFINITION. Fixed-Rule Lookup Engine (43_fixed_rule_lut.md): the constant LUT, Conway's logic, LLOOK, LLOGIC. The
table is held as the sixteen words R180 prints, so that LLOOK is a table read and the equivalence R184 (a) is a
statement about two different definitions (log entry 14). -/

namespace Sys2Proof.Machine

/-- The sixteen words of R180: word w holds LUT[32w + b] at bit b. -/
def lutWords : List Word :=
  [0x16686880, 0x01161668, 0x01161668, 0x00010116, 0x01161668, 0x00010116, 0x00010116, 0x00000001,
   0x177E7EE8, 0x0117177E, 0x0117177E, 0x00010117, 0x0117177E, 0x00010117, 0x00010117, 0x00000001]

/-- `LUT[i]`, i = 0 .. 511 (R180). -/
def lut (i : Nat) : Bool := (lutWords.getD (i / 32) 0).getLsbD (i % 32)

/-- The index `(status << 8) | code` (R180). -/
def lutIndex (st c : Nat) : Nat := (st <<< 8) ||| c

/-- `popcount` of a byte (R181: "counting set bits"). -/
def popcount (c : Nat) : Nat := (dirs.map fun k => (c.testBit k.val).toNat).sum

/-- `ConwayLogic(s, c)` (R181): birth iff exactly 3 and cell dead, survive iff 2 or 3 and cell alive. -/
def conwayLogic (st c : Nat) : Bool :=
  if st = 0 then popcount c == 3 else popcount c == 2 || popcount c == 3

/-- The checks of LLOOK (R182). -/
def llookStop (s : State) : Option Stop := reservedStop s statusCodeFields

/-- The staged write of LLOOK: RES0 (R182). -/
def llookStage (s : State) : State := s.setRes 0 (wordOfBool (lut (lutIndex (s.argNat 0) (s.argNat 1))))

/-- LLOOK (R182). -/
def execLlook (s : State) : Host.Outcome State Fault Refusal := runCommand llookStop llookStage s

/-- The checks of LLOGIC (R183). -/
def llogicStop (s : State) : Option Stop := reservedStop s statusCodeFields

/-- The staged write of LLOGIC: RES0 (R183). -/
def llogicStage (s : State) : State := s.setRes 0 (wordOfBool (conwayLogic (s.argNat 0) (s.argNat 1)))

/-- LLOGIC (R183). -/
def execLlogic (s : State) : Host.Outcome State Fault Refusal := runCommand llogicStop llogicStage s

end Sys2Proof.Machine
end

