-- ==== Sys2Proof/Machine/RuleTable.lean ====
section
/-! DEFINITION. Rule Table (41_rule_table.md): RCOMP, RQUERY, RENC, RDEC. The count is masked, not clamped
(90_conflicts.md C1); RT has 18 entries (C2); counts above 8 and the digit 9 fault (C3, C4). Byte values are those of
00_scope.md R18 (PRESUMED, log entry 13). -/

namespace Sys2Proof.Machine

/-- `RtEncode(s, n) = s + ((n & 0xF) << 1)` (R140). -/
def rtEncode (st n : Nat) : Nat := st + ((n &&& 0xF) <<< 1)

/-- `RtDecode(i) = (i & 1, i >> 1)` (R140). -/
def rtDecode (i : Nat) : Nat × Nat := (i &&& 1, i >>> 1)

/-- `RtLookup(s, n) = RT[RtEncode(s, n)]`, for n ≤ 8 (R143). -/
def rtLookup (rt : BitVec 18) (st n : Nat) : Bool := rt.getLsbD (rtEncode st n)

/-! ### RCOMP -/

/-- The byte `/`, the separator. -/
def slashByte : Byte := 0x2F

/-- `b` or `B` (R141). -/
def isBirthLetter (c : Byte) : Bool := c == 0x42 || c == 0x62

/-- `s` or `S` (R141). -/
def isSurvivalLetter (c : Byte) : Bool := c == 0x53 || c == 0x73

/-- A decimal digit, 0x30..0x39 (R142). -/
def isDecimal (c : Byte) : Bool := 0x30 ≤ c.toNat && c.toNat ≤ 0x39

/-- The byte at position j of a string satisfies `f`; false past its end. -/
def byteAt (txt : List Byte) (j : Nat) (f : Byte → Bool) : Bool :=
  match txt[j]? with
  | some c => f c
  | none => false

/-- The positions `D` of the two digit runs, ascending, where `p` is the position of the separator (R142). -/
def digitPositions (len p : Nat) : List Nat := List.range' 1 (p - 1) ++ List.range' (p + 2) (len - (p + 2))

/-- The checks of RCOMP once the text is read; `off` is the TXT offset of its first byte (R142). -/
def ruleTextStop (off : Nat) (txt : List Byte) : Option Stop :=
  match txt.findIdx? (fun c => decide (0x80 ≤ c.toNat)) with
  | some j => some (.error .ruleNotAscii (wordOfNat (off + j)))
  | none =>
    match txt.findIdx? (fun c => c == slashByte) with
    | none => some (.error .ruleNoSeparator 0)
    | some p =>
      if p = 0 ∨ byteAt txt 0 isBirthLetter = false then some (.error .ruleBadPrefix 0)
      else if byteAt txt (p + 1) isSurvivalLetter = false then some (.error .ruleBadPrefix 1)
      else
        match (digitPositions txt.length p).find? (fun j => !byteAt txt j isDecimal) with
        | some j => some (.error .ruleBadDigit (wordOfNat (off + j)))
        | none =>
          match (digitPositions txt.length p).find? (fun j => byteAt txt j (· == 0x39)) with
          | some j => some (.fault .ruleDigitRange (wordOfNat (off + j)))
          | none => none

/-- Set the entries of status `st` that the digits of a run name (R142). -/
def setEntries (st : Nat) (digits : List Byte) (t : BitVec 18) : BitVec 18 :=
  digits.foldl (fun t c => t ||| (1#18 <<< rtEncode st (c.toNat - 0x30))) t

/-- The table a rule string that passes every check compiles to (R142). -/
def compileRule (txt : List Byte) : BitVec 18 :=
  match txt.findIdx? (fun c => c == slashByte) with
  | none => 0
  | some p => setEntries 1 (txt.drop (p + 2)) (setEntries 0 ((txt.take p).drop 1) 0)

/-- The checks of RCOMP, in order (R142). -/
def rcompStop (s : State) : Option Stop :=
  match textStop s with
  | some e => some e
  | none => ruleTextStop (s.argNat 0) s.text

/-- The staged writes of RCOMP: RT and RT_VALID (R142). -/
def rcompStage (s : State) : State := { s with rt := compileRule s.text, status := s.status.markRt }

/-- RCOMP (R142). -/
def execRcomp (s : State) : Host.Outcome State Fault Refusal := runCommand rcompStop rcompStage s

/-! ### RQUERY, RENC, RDEC -/

/-- The checks of RQUERY (R144). -/
def rqueryStop (s : State) : Option Stop :=
  match reservedStop s [(0, statusBits)] with
  | some e => some e
  | none =>
    if s.status.rtValid = false then some (.fault .noRule 0)
    else if 8 < s.argNat 1 then some (.fault .ruleCountRange (s.arg[1]))
    else none

/-- The staged write of RQUERY: RES0 (R144). -/
def rqueryStage (s : State) : State := s.setRes 0 (wordOfBool (rtLookup s.rt (s.argNat 0) (s.argNat 1)))

/-- RQUERY (R144). -/
def execRquery (s : State) : Host.Outcome State Fault Refusal := runCommand rqueryStop rqueryStage s

/-- The checks of RENC (R145). -/
def rencStop (s : State) : Option Stop := reservedStop s [(0, statusBits)]

/-- The staged write of RENC: RES0 (R145). -/
def rencStage (s : State) : State := s.setRes 0 (wordOfNat (rtEncode (s.argNat 0) (s.argNat 1)))

/-- RENC (R145). -/
def execRenc (s : State) : Host.Outcome State Fault Refusal := runCommand rencStop rencStage s

/-- The checks of RDEC (R146). -/
def rdecStop (s : State) : Option Stop := reservedStop s [(0, indexBits)]

/-- The staged writes of RDEC: RES0 = status, RES1 = count (R146). -/
def rdecStage (s : State) : State :=
  (s.setRes 0 (wordOfNat (rtDecode (s.argNat 0)).1)).setRes 1 (wordOfNat (rtDecode (s.argNat 0)).2)

/-- RDEC (R146). -/
def execRdec (s : State) : Host.Outcome State Fault Refusal := runCommand rdecStop rdecStage s

end Sys2Proof.Machine
end

