-- ==== Sys2Proof/Machine/Update.lean ====
section
/-! DEFINITION. Incremental Update Engine (44_update_engine.md): UPD. Its writes are staged in the order of the
pseudocode and applied together (00_scope.md R15; log entry 20). -/

namespace Sys2Proof.Machine

/-! ### Next state (R200) -/

/-- `Count(B, W, H, i)`: all 8 positions, repeats included (R200). -/
def aliveCount (B : Memory Bool) (W H i : Nat) : Nat := (dirs.map fun k => (B.alive (nbrIdx W H i k)).toNat).sum

/-- `Code(B, W, H, i)` (R200). -/
def nbCode (B : Memory Bool) (W H i : Nat) : Nat := nbEncode (fun k => B.alive (nbrIdx W H i k))

/-- `Next(m, B, W, H, i)` (R200), with the rule table it queries. -/
def nextCell (mode : UpdMode) (rt : BitVec 18) (B : Memory Bool) (W H i : Nat) : Bool :=
  match mode with
  | .rt => rtLookup rt (B.alive i).toNat (aliveCount B W H i)
  | .lut => lut (lutIndex (B.alive i).toNat (nbCode B W H i))

/-! ### Checks (R201) -/

/-- The banks in the order the checks take them: world, target, CHG (R201). -/
def updBanks (sel : BufSel) : List CellBank := [.buf sel, .buf sel.other, .chg]

/-- The length checks: every LEN against CELL_CAP, then every LEN against N (R201, 90_conflicts.md C6). -/
def updLengthStop (sel : BufSel) (s : State) : Option Stop :=
  match (updBanks sel).find? (fun b => decide (s.params.cellCap < s.len b)) with
  | some b => some (.fault .bufCapacity (wordOfNat b.code))
  | none =>
    match (updBanks sel).find? (fun b => decide (s.len b ≠ s.argNat 0 * s.argNat 1)) with
    | some b => some (.fault .lengthMismatch (wordOfNat b.code))
    | none => none

/-- The written checks: cells 0 .. N-1 of the world, then of CHG; the target need not be written (R201, R204). -/
def updWrittenStop (sel : BufSel) (s : State) : Option Stop :=
  match (s.buf sel).firstUnwritten 0 (s.argNat 0 * s.argNat 1) with
  | some i => some (.fault .uninitRead (uninitInfo (CellBank.buf sel).code i))
  | none =>
    match s.chg.firstUnwritten 0 (s.argNat 0 * s.argNat 1) with
    | some i => some (.fault .uninitRead (uninitInfo CellBank.chg.code i))
    | none => none

/-- The checks of UPD, in order (R201). -/
def updStop (mode : UpdMode) (sel : BufSel) (s : State) : Option Stop :=
  match gridOperandStop s gridFields with
  | some e => some e
  | none =>
    if mode = .rt ∧ s.status.rtValid = false then some (.fault .noRule 0)
    else
      match updLengthStop sel s with
      | some e => some e
      | none => updWrittenStop sel s

/-! ### The two passes (R201 to R203) -/

/-- Insert into a sorted list without repeats: `CAND <- CAND ∪ {j}`. -/
def insertCand (j : Nat) : List Nat → List Nat
  | [] => [j]
  | i :: c => if j < i then j :: i :: c else if j = i then i :: c else i :: insertCand j c

/-- The dirty cells 0 .. N-1, ascending. -/
def updDirty (chg : Memory Bool) (n : Nat) : List Nat := (List.range n).filter chg.alive

/-- What visiting dirty cell `i` adds to CAND: its neighbours whose CHG bit is 0. -/
def visitNeighbors (chg : Memory Bool) (W H : Nat) (cand : List Nat) (i : Nat) : List Nat :=
  dirs.foldl (fun c k => if chg.alive (nbrIdx W H i k) then c else insertCand (nbrIdx W H i k) c) cand

/-- CAND after the dirty pass, the hidden state of R42 (b): sorted, each index once (R203). -/
def updCand (chg : Memory Bool) (W H : Nat) (dirty : List Nat) : List Nat :=
  dirty.foldl (visitNeighbors chg W H) []

/-- The staged writes of a pass over the cells `is`: (index, next state), in order. -/
def passWrites (mode : UpdMode) (rt : BitVec 18) (B : Memory Bool) (W H : Nat) (is : List Nat) : List (Nat × Bool) :=
  is.map fun i => (i, nextCell mode rt B W H i)

/-- The target after both passes. -/
def updTarget (mode : UpdMode) (rt : BitVec 18) (world chg target : Memory Bool) (W H : Nat) : Memory Bool :=
  (target.writeMany (passWrites mode rt world W H (updDirty chg (W * H)))).writeMany
    (passWrites mode rt world W H (updCand chg W H (updDirty chg (W * H))))

/-- The staged writes of UPD: the target, RES0 = dirty cells, RES1 = boundary cells (R201). -/
def updStage (mode : UpdMode) (sel : BufSel) (s : State) : State :=
  let W := s.argNat 0
  let H := s.argNat 1
  let dirty := updDirty s.chg (W * H)
  ((s.setBuf sel.other (updTarget mode s.rt (s.buf sel) s.chg (s.buf sel.other) W H)).setRes 0
    (wordOfNat dirty.length)).setRes 1 (wordOfNat (updCand s.chg W H dirty).length)

/-- UPD (R201). -/
def execUpd (mode : UpdMode) (sel : BufSel) (s : State) : Host.Outcome State Fault Refusal :=
  runCommand (updStop mode sel) (updStage mode sel) s

end Sys2Proof.Machine
end

