-- ==== Sys2Proof/Machine/Dispatch.lean ====
section
/-! DEFINITION. Executing a decoded command (30_encoding.md R96): one arm per constructor of Instr. -/

namespace Sys2Proof.Machine

def exec (i : Instr) (s : State) : Host.Outcome State Fault Refusal :=
  match i with
  | .nbr => Sys2Proof.Machine.execNbr s
  | .rcomp => Sys2Proof.Machine.execRcomp s
  | .rquery => Sys2Proof.Machine.execRquery s
  | .renc => Sys2Proof.Machine.execRenc s
  | .rdec => Sys2Proof.Machine.execRdec s
  | .nenc => Sys2Proof.Machine.execNenc s
  | .ndec => Sys2Proof.Machine.execNdec s
  | .llook => Sys2Proof.Machine.execLlook s
  | .llogic => Sys2Proof.Machine.execLlogic s
  | .upd mode sel => Sys2Proof.Machine.execUpd mode sel s
  | .pparse => Sys2Proof.Machine.execPparse s
  | .pplace sel => Sys2Proof.Machine.execPplace sel s
  | .pcenter => Sys2Proof.Machine.execPcenter s

end Sys2Proof.Machine
end

