-- ==== Sys2Proof/WellFormed.lean ====
section
/-! DEFINITION. The well-formedness checks. An Instr is well-formed by its type: its only fields are the names MODE and
SEL. What can be ill-formed is a command WORD (30_encoding.md R94), a host ACCESS (20_memory.md R66 a and b; mapping, R66
c, needs the address map of Machine/HostPort.lean) and a set of PARAMETERS (00_scope.md R7). Each check is a Bool of
its own, and Sys2Proof/Tests/Slice0.lean shows a term that each one refuses. -/

namespace Sys2Proof

/-- The opcode values of R91. -/
def legalOpcodes : List Nat :=
  [0x01, 0x10, 0x11, 0x12, 0x13, 0x20, 0x21, 0x30, 0x31, 0x40, 0x50, 0x51, 0x52]

/-- R94: OPC is in R91. -/
def opcodeKnown (w : Word) : Bool := legalOpcodes.contains (w.toNat % 256)

/-- R94: bits 31:10 are all 0. -/
def reservedBitsZero (w : Word) : Bool := w.toNat < 1024

/-- R94: MODE = 1 only with OPC = 0x40. -/
def modeAllowed (w : Word) : Bool := !w.getLsbD 8 || w.toNat % 256 == 0x40

/-- R94: SEL = 1 only with OPC 0x40 or 0x51. -/
def selAllowed (w : Word) : Bool := !w.getLsbD 9 || w.toNat % 256 == 0x40 || w.toNat % 256 == 0x51

/-- A legal command word: none of the four conditions of R94 makes it illegal. -/
def legalCommand (w : Word) : Bool :=
  opcodeKnown w && reservedBitsZero w && modeAllowed w && selAllowed w

/-- R66 (a): a host access is 32 bits wide. -/
def accessWidthOk (bits : Nat) : Bool := bits == 32

/-- R66 (b): a host access is at a multiple of 4. -/
def accessAligned (a : Addr) : Bool := a.toNat % 4 == 0

/-- R7: the range of `CELL_CAP`. -/
def Params.cellCapOk (p : Params) : Bool := 9 ≤ p.cellCap && p.cellCap ≤ 2 ^ 24

/-- R7: the range of `TXT_CAP`. -/
def Params.txtCapOk (p : Params) : Bool := 1 ≤ p.txtCap && p.txtCap ≤ 2 ^ 20

/-- R7: the range of `PAT_CAP`. -/
def Params.patCapOk (p : Params) : Bool := 1 ≤ p.patCap && p.patCap ≤ 2 ^ 24

/-- R7: the markers are no line separators (0x0A, 0x0D) and differ. -/
def Params.markersOk (p : Params) : Bool :=
  p.aliveMarker != 0x0A && p.aliveMarker != 0x0D && p.commentMarker != 0x0A &&
    p.commentMarker != 0x0D && p.aliveMarker != p.commentMarker

/-- A legal set of parameters (R7). -/
def Params.legal (p : Params) : Bool := p.cellCapOk && p.txtCapOk && p.patCapOk && p.markersOk

end Sys2Proof
end

