-- ==== Sys2Proof/Machine/HostPort.lean ====
section
/-! DEFINITION. The host port (20_memory.md): the address map (R62), host reads and writes (R63 to R67), issue
(30_encoding.md R95), the CTRL strobe (10_state.md R31) and the BUSY rule (R70). -/

namespace Sys2Proof.Machine

/-- What a mapped address names: a register, or word `w` of a window (R62). -/
inductive Target where
  | cmd | status | ctrl | finfo
  | arg (i : Fin 4)
  | res (i : Fin 8)
  | len (b : CellBank)
  | patW | patH | rtbl | capCell | capTxt | capPat
  | txt (w : Nat)
  | pat (w : Nat)
  | cells (b : CellBank) (w : Nat)
  deriving DecidableEq, Repr

/-! ### The address map (R62) -/

/-- The register at byte address 4·k. -/
def registerAt (k : Nat) : Option Target :=
  match k with
  | 0 => some .cmd
  | 1 => some .status
  | 2 => some .ctrl
  | 3 => some .finfo
  | 4 => some (.arg 0)
  | 5 => some (.arg 1)
  | 6 => some (.arg 2)
  | 7 => some (.arg 3)
  | 8 => some (.res 0)
  | 9 => some (.res 1)
  | 10 => some (.res 2)
  | 11 => some (.res 3)
  | 12 => some (.res 4)
  | 13 => some (.res 5)
  | 14 => some (.res 6)
  | 15 => some (.res 7)
  | 16 => some (.len (.buf .s0))
  | 17 => some (.len (.buf .s1))
  | 18 => some (.len .chg)
  | 19 => some .patW
  | 20 => some .patH
  | 21 => some .rtbl
  | 22 => some .capCell
  | 23 => some .capTxt
  | 24 => some .capPat
  | _ => none

/-- Word `w` of a window of `n` words, if it is below the window's bound. -/
def windowAt (n w : Nat) (t : Nat → Target) : Option Target := if w < n then some (t w) else none

/-- What the byte address `a`, a multiple of 4, names; none where it is unmapped (R62, R66 c). -/
def targetAt (p : Params) (a : Nat) : Option Target :=
  if a < 0x100000 then registerAt (a / 4)
  else if a < 0x200000 then windowAt (ceilDiv p.txtCap 4) ((a - 0x100000) / 4) .txt
  else if a < 0x400000 then windowAt (ceilDiv p.patCap 32) ((a - 0x200000) / 4) .pat
  else if a < 0x600000 then windowAt (ceilDiv p.cellCap 32) ((a - 0x400000) / 4) (.cells (.buf .s0))
  else if a < 0x800000 then windowAt (ceilDiv p.cellCap 32) ((a - 0x600000) / 4) (.cells (.buf .s1))
  else windowAt (ceilDiv p.cellCap 32) ((a - 0x800000) / 4) (.cells .chg)

/-- `addr(T)` (30_encoding.md R104): the byte address of a target (R62). -/
def Target.byteAddr : Target → Nat
  | .cmd => 0x000000
  | .status => 0x000004
  | .ctrl => 0x000008
  | .finfo => 0x00000C
  | .arg i => 0x000010 + 4 * i.val
  | .res i => 0x000020 + 4 * i.val
  | .len (.buf .s0) => 0x000040
  | .len (.buf .s1) => 0x000044
  | .len .chg => 0x000048
  | .patW => 0x00004C
  | .patH => 0x000050
  | .rtbl => 0x000054
  | .capCell => 0x000058
  | .capTxt => 0x00005C
  | .capPat => 0x000060
  | .txt w => 0x100000 + 4 * w
  | .pat w => 0x200000 + 4 * w
  | .cells (.buf .s0) w => 0x400000 + 4 * w
  | .cells (.buf .s1) w => 0x600000 + 4 * w
  | .cells .chg w => 0x800000 + 4 * w

/-- The word of a window target lies in its window's slot, the part of the address space before the next window's base
(R62: 1 MiB for TXT, 2 MiB for PAT, BUF0 and BUF1, the rest for CHG). -/
def Target.inSlot : Target → Bool
  | .txt w => w < 2 ^ 18
  | .pat w => w < 2 ^ 19
  | .cells (.buf _) w => w < 2 ^ 19
  | .cells .chg w => w < 2 ^ 21
  | .cmd | .status | .ctrl | .finfo | .arg _ | .res _ | .len _ | .patW | .patH | .rtbl | .capCell | .capTxt | .capPat =>
    true

/-- The last word of the address space, unmapped for every legal parameter value (R7, R62). -/
def unmappedAddr : Addr := 0xFFFFFC#24

/-- `addr(T)` as an address of the 24-bit space. DESIGN CHOICE (log entry 22): the spec gives no address for a window word
past its slot (for CHG, past 0xFFFFFF); the model gives it an unmapped one, so that the access is refused (R66 c) and
reaches no other register or window. -/
def Target.addr (t : Target) : Addr := if t.inSlot then BitVec.ofNat 24 t.byteAddr else unmappedAddr

/-- What a host access reaches: none for the three kinds of access R66 gives no meaning. -/
def accessTarget (p : Params) (bits : Nat) (a : Addr) : Option Target :=
  if accessWidthOk bits = true ∧ accessAligned a = true then targetAt p a.toNat else none

/-! ### Reading (R63) -/

/-- Cell `i` of a bit bank as a read sees it: an unwritten cell, or one at or beyond the capacity, gives the free bit. -/
def seenBit (m : Memory Bool) (cap i : Nat) (free : Bool) : Bool :=
  if i < cap then
    match m.read i with
    | some b => b
    | none => free
  else free

/-- Byte `j` of TXT as a read sees it. -/
def seenByte (m : Memory Byte) (cap j : Nat) (free : Byte) : Byte :=
  if j < cap then
    match m.read j with
    | some c => c
    | none => free
  else free

/-- Word `w` of a bit window: bit b is cell 32w + b (R67). `free` is the word drawn for this read. -/
def bitWindow (m : Memory Bool) (cap w : Nat) (free : Word) : Word :=
  wordOfBits fun b => seenBit m cap (32 * w + b) (free.getLsbD b)

/-- Word `w` of the TXT window: bits [8q+7 : 8q] are byte 4w + q (R67). `free` is the word drawn for this read. -/
def textWindow (m : Memory Byte) (cap w : Nat) (free : Word) : Word :=
  wordOfBits fun b => (seenByte m cap (4 * w + b / 8) (byteOfWord free (b / 8))).getLsbD (b % 8)

/-- The value a granted host read returns (R63). -/
def readTarget (s : State) : Target → Word
  | .cmd => s.cmd
  | .status => s.status.toWord
  | .ctrl => 0
  | .finfo => s.finfo
  | .arg i => s.arg[i]
  | .res i => s.res[i]
  | .len (.buf .s0) => s.len0
  | .len (.buf .s1) => s.len1
  | .len .chg => s.lenc
  | .patW => s.patW
  | .patH => s.patH
  | .rtbl => s.rt.setWidth 32
  | .capCell => wordOfNat s.params.cellCap
  | .capTxt => wordOfNat s.params.txtCap
  | .capPat => wordOfNat s.params.patCap
  | .txt w => textWindow s.txt s.params.txtCap w (Config.freeWord s.draws)
  | .pat w => bitWindow s.pat s.params.patCap w (Config.freeWord s.draws)
  | .cells b w => bitWindow (s.cells b) s.params.cellCap w (Config.freeWord s.draws)

/-! ### Writing (R64, R65) -/

/-- The cells a window write makes written: cell 32w + b gets v[b], those at or beyond the capacity are discarded. -/
def bitWrites (cap w : Nat) (v : Word) : List (Nat × Bool) :=
  ((List.range 32).map fun b => (32 * w + b, v.getLsbD b)).filter fun c => decide (c.1 < cap)

/-- The bytes a TXT window write makes written: byte 4w + q gets v[8q+7 : 8q]. -/
def byteWrites (cap w : Nat) (v : Word) : List (Nat × Byte) :=
  ((List.range 4).map fun q => (4 * w + q, byteOfWord v q)).filter fun c => decide (c.1 < cap)

/-- A granted host write to anything but CMD and CTRL. Read-only registers and the PAT window ignore it (R65). -/
def writeTarget (s : State) (t : Target) (v : Word) : State :=
  match t with
  | .arg i => { s with arg := s.arg.set i v }
  | .len (.buf .s0) => { s with len0 := v }
  | .len (.buf .s1) => { s with len1 := v }
  | .len .chg => { s with lenc := v }
  | .txt w => { s with txt := s.txt.writeMany (byteWrites s.params.txtCap w v) }
  | .cells b w => s.setCells b ((s.cells b).writeMany (bitWrites s.params.cellCap w v))
  | .cmd | .ctrl | .status | .finfo | .res _ | .patW | .patH | .rtbl | .capCell | .capTxt | .capPat | .pat _ => s

/-! ### The port -/

/-- A host access that faults during BUSY (R70): the pending command is discarded; FINFO is the byte address. -/
def busyFault (s : State) (a : Addr) : State := faultEntry s .hostBusyAccess (a.setWidth 32)

/-- A refused access sets the REFUSED mark and changes nothing else (R66). -/
def markRefused (s : State) : State := { s with refused := true }

/-- Issue: the host writes v to CMD (R95). The order of the branches is R95's (log entry 16). -/
def issue (s : State) (a : Addr) (v : Word) : State :=
  if s.status.fault then s
  else if s.status.busy then busyFault s a
  else acceptCommand s v

/-- The host writes v to CTRL (R31): bit 0 = 1 resets, in every state. -/
def strobe (s : State) (v : Word) : State := if v.getLsbD 0 then s.resetBlock else s

/-- A host write to a mapped, aligned address. -/
def writeAccess (s : State) (t : Target) (a : Addr) (v : Word) : State :=
  match t with
  | .ctrl => strobe s v
  | .cmd => issue s a v
  | t => if s.status.busy then busyFault s a else writeTarget s t v

/-- `MemWrite(a, bits/8, v)` (R64 to R66, R70). -/
def hostWrite (s : State) (bits : Nat) (a : Addr) (v : Word) : State :=
  match accessTarget s.params bits a with
  | none => markRefused s
  | some t => writeAccess s t a v

/-- One free value is used up (log entry 4). -/
def State.draw (s : State) : State := { s with draws := s.draws + 1 }

/-- A host read of a mapped, aligned address: the state after it and the value it returns. Only a STATUS read is granted
during BUSY; any other faults and returns an arbitrary value (R70). -/
def readAccess (s : State) (t : Target) (a : Addr) : State × Word :=
  if s.status.busy = true ∧ t ≠ .status then ((busyFault s a).draw, Config.freeWord s.draws)
  else (s.draw, readTarget s t)

/-- `MemRead(a, bits/8)` (R63, R66, R70): a refused read returns no value (log entry 8). -/
def hostRead (s : State) (bits : Nat) (a : Addr) : State × Option Word :=
  match accessTarget s.params bits a with
  | none => (markRefused s, none)
  | some t => ((readAccess s t a).1, some (readAccess s t a).2)

end Sys2Proof.Machine
end

