-- ==== Sys2Proof/Machine/Agents.lean ====
section
/-! DEFINITION. The two agents (00_scope.md R8, R9): the block step (30_encoding.md R96), the host step (one access of
the host's program), and which of them moves (log entry 3). -/

namespace Sys2Proof.Machine

/-! ### The host step -/

/-- Replace what the host has still to do. -/
def State.withProg (s : State) (prog : List HostStmt) : State := { s with host := { s.host with prog := prog } }

/-- Name a read result, if the program names it and there is one. -/
def State.nameResult (s : State) (into : Option Nat) (v : Option Word) : State :=
  match into, v with
  | some n, some w => { s with host := { s.host with names := s.host.names.write n w } }
  | _, _ => s

/-- The value of a host write, or the name that no read has given. -/
def HostVal.eval (names : Memory Word) : HostVal → Except Nat Word
  | .lit w => .ok w
  | .name n =>
    match names.read n with
    | some w => .ok w
    | none => .error n
  | .xor a b =>
    match names.read a, names.read b with
    | none, _ => .error a
    | _, none => .error b
    | some u, some v => .ok (u ^^^ v)

/-- `wr T, v` (R104). -/
def hostWr (s : State) (bits : Nat) (a : Addr) (v : HostVal) : Host.Outcome State Fault Refusal :=
  match v.eval s.host.names with
  | .error n => .fault (.hostNameUnset n)
  | .ok w => .next (hostWrite s bits a w)

/-- `rd T` (R104). -/
def hostRd (s : State) (bits : Nat) (a : Addr) (into : Option Nat) : State :=
  (hostRead s bits a).1.nameResult into (hostRead s bits a).2

/-- One turn of `wait` (R105): a STATUS read; `rest` is what follows once the value read has bit 0 = 0. -/
def hostWait (s : State) (rest : List HostStmt) : State :=
  if (readAccess s .status Target.status.addr).2.getLsbD 0 then (readAccess s .status Target.status.addr).1
  else (readAccess s .status Target.status.addr).1.withProg rest

/-- The host step: the next statement of the host's program (R9: one access). -/
def hostStep (s : State) : Host.Outcome State Fault Refusal :=
  match s.host.prog with
  | [] => .next s
  | .wr bits a v :: rest => hostWr (s.withProg rest) bits a v
  | .rd bits a into :: rest => .next (hostRd (s.withProg rest) bits a into)
  | .wait :: rest => .next (hostWait s rest)

/-! ### The block step -/

/-- The block executes the pending command (R96): an illegal word faults (R94), a legal one has its command's meaning. -/
def blockStep (s : State) : Host.Outcome State Fault Refusal :=
  match decode s.cmd with
  | .error _ => .next (illegalCommand s)
  | .ok i => exec i s

/-! ### Who moves -/

/-- The block's step is enabled exactly when BUSY = 1 and FAULT = 0 (R96, 10_state.md R27, R43). -/
def State.blockReady (s : State) : Bool := s.status.busy && !s.status.fault

/-- The host has a statement left. -/
def State.hostReady (s : State) : Bool := !s.host.prog.isEmpty

/-- The agent that moves. Where both could, the oldest entry of `sched` chooses; once `sched` is used up the block goes
first, so that every finite choice list gives a fair run (R299; DESIGN CHOICE, log entry 3). -/
def State.turn (s : State) : Option Agent :=
  match s.blockReady, s.hostReady with
  | true, true => some (s.sched.head?.getD .block)
  | true, false => some .block
  | false, true => some .host
  | false, false => none

/-- The choice is used up where there was one to make. -/
def State.afterTurn (s : State) : State :=
  if s.blockReady = true ∧ s.hostReady = true then { s with sched := s.sched.tail } else s

/-- What the machine does when neither agent has a step: an idle block keeps all its state (60_exceptions.md R274); a
halted one has stopped (10_state.md R43). DESIGN CHOICE (log entries 5 and 6). -/
def noStep (s : State) : Host.Outcome State Fault Refusal :=
  if s.status.fault then .fault .halted else .next s

/-- One step of one agent. -/
def agentStep (s : State) : Host.Outcome State Fault Refusal :=
  match s.turn with
  | some .block => blockStep s.afterTurn
  | some .host => hostStep s.afterTurn
  | none => noStep s

/-! ### The next command placed from outside (log entry 17) -/

/-- `s` with `w` issued (R95) as the pending command of a block that is not halted, and the next choice, if there is one
to make, the block's. -/
def State.pendCommand (s : State) (w : Word) : State :=
  { s with
    cmd := w
    status := { s.status.onIssue with fault := false }
    finfo := 0
    sched := if s.hostReady then .block :: s.sched else s.sched }

end Sys2Proof.Machine
end

