-- ==== Sys2Proof/Machine/Step.lean ====
section
/-! DEFINITION. One step of the machine: one step of one agent (00_scope.md R9), and the placing of a command as the next
thing the machine does. Everything it calls stands in Machine/Agents.lean. -/

namespace Sys2Proof.Machine

/-- One step: the block executes its pending command whole, or the host makes one access. Nothing counts time (log entry
21). -/
def step (s : State) : Host.Outcome State Fault Refusal := agentStep s

/-- LIFE-CORE fetches nothing (20_memory.md R77): the next instruction is the word in CMD while BUSY = 1. So the word of
a table row, its bits above `nbits` zero, is issued as the pending command, and the very next step executes it. -/
def State.withFetchWord (s : State) (nbits w : Nat) : State := s.pendCommand (BitVec.ofNat 32 (w % 2 ^ nbits))

end Sys2Proof.Machine
end

