-- ==== Sys2Proof/Safety.lean ====
section
/-! DEFINITION. What counts as a safe run: final states (70_reset_and_hazards.md R297) and the invariant that every step
keeps and that State.reset meets. -/

namespace Sys2Proof.Machine

/-- A final state (R297): BUSY = 0, FAULT = 0, the REFUSED mark clear, no host statement left. ERR may be 1. -/
def State.final (s : State) : Bool :=
  !s.status.busy && !s.status.fault && !s.refused && s.host.prog.isEmpty

/-- Every bank is in canonical form and holds no cell at or beyond its capacity. -/
structure State.BanksOk (s : State) : Prop where
  buf0 : s.buf0.wf ∧ s.buf0.within s.params.cellCap
  buf1 : s.buf1.wf ∧ s.buf1.within s.params.cellCap
  chg : s.chg.wf ∧ s.chg.within s.params.cellCap
  txt : s.txt.wf ∧ s.txt.within s.params.txtCap
  pat : s.pat.wf ∧ s.pat.within s.params.patCap
  names : s.host.names.wf

/-- The flags are as R27 to R29 leave them: CAUSE is NONE exactly when neither ERR nor FAULT is set, an error cause with
ERR, a fault cause with FAULT; never two of BUSY, ERR and FAULT; FINFO is 0 with CAUSE NONE. -/
def State.FlagsOk (s : State) : Prop :=
  match s.status.cause with
  | .none => s.status.err = false ∧ s.status.fault = false ∧ s.finfo = 0
  | .error _ => s.status.err = true ∧ s.status.fault = false ∧ s.status.busy = false
  | .fault _ => s.status.err = false ∧ s.status.fault = true ∧ s.status.busy = false

/-- RT_VALID and PAT_VALID stand for the existence of a rule table and a pattern (10_state.md R30): before the first
RCOMP every entry of RT is 0; before the first PPARSE the footprint is 0; after it the footprint is at least 1×1, fits
PAT_CAP, and every pattern cell is written (R40). -/
structure State.TablesOk (s : State) : Prop where
  rt : s.status.rtValid = false → s.rt = 0
  noPat : s.status.patValid = false → s.patW = 0 ∧ s.patH = 0
  pat : s.status.patValid = true →
    1 ≤ s.patW.toNat ∧ 1 ≤ s.patH.toNat ∧ s.patW.toNat * s.patH.toNat ≤ s.params.patCap ∧
      ∀ i, i < s.patW.toNat * s.patH.toNat → (s.pat.read i).isSome = true

/-- The invariant of LIFE-CORE. -/
structure State.Inv (s : State) : Prop where
  params : s.params.legal = true
  banks : s.BanksOk
  flags : s.FlagsOk
  tables : s.TablesOk

end Sys2Proof.Machine
end

