-- ==== Sys2Proof/Certificates/Slice0/Obligations.lean ====
section
/-! DEFINITION. The statements for the provers, from the numbered rules of spec/. The words they are written in
(Sys2Proof.Claims) repeat the rules in plain arithmetic, so that a statement does not lean on the definition it is about.
A state is any state, reachable or not; where a claim needs it, State.Inv (Sys2Proof/Safety.lean) is a premise. -/

namespace Sys2Proof.Claims

open Sys2Proof.Machine

/-- The status after a command that succeeds: BUSY is 0, nothing else differs (10_state.md R27, R28). -/
def doneStatus (st : Status) : Status := { st with busy := false }

/-- The state a fault leaves: FAULT, CAUSE, FINFO, BUSY, and nothing else (60_exceptions.md R263). -/
def faulted (s : State) (c : FaultCause) (info : Word) : State :=
  { s with status := { s.status with busy := false, fault := true, cause := .fault c }, finfo := info }

/-- The state a format error leaves: ERR, CAUSE, FINFO, BUSY, and nothing else (60_exceptions.md R264). -/
def erred (s : State) (e : FormatError) (info : Word) : State :=
  { s with status := { s.status with busy := false, err := true, cause := .error e }, finfo := info }

/-- The record of 10_state.md R44, over the parts of a state that a reset leaves alone. -/
def zeroed (s : State) : State :=
  { params := s.params, cmd := 0#32,
    status := { busy := false, err := false, fault := false, rtValid := false, patValid := false, cause := .none },
    finfo := 0#32, arg := #v[0#32, 0#32, 0#32, 0#32],
    res := #v[0#32, 0#32, 0#32, 0#32, 0#32, 0#32, 0#32, 0#32], len0 := 0#32, len1 := 0#32, lenc := 0#32, rt := 0#18,
    patW := 0#32, patH := 0#32, buf0 := [], buf1 := [], chg := [], txt := [], pat := [], refused := s.refused,
    host := s.host, sched := s.sched, draws := s.draws }

/-- The operand fields of 30_encoding.md R97, as (ARG number, bits). NENC checks ARG1 only after its length check. -/
def operandFields : Instr → List (Fin 4 × Nat)
  | .nbr => [(0, 16), (1, 16), (2, 16), (3, 16)]
  | .rcomp => [(0, 32), (1, 32)]
  | .rquery => [(0, 1), (1, 32)]
  | .renc => [(0, 1), (1, 32)]
  | .rdec => [(0, 5)]
  | .nenc => [(0, 32)]
  | .ndec => [(0, 8)]
  | .llook => [(0, 1), (1, 8)]
  | .llogic => [(0, 1), (1, 8)]
  | .upd _ _ => [(0, 16), (1, 16)]
  | .pparse => [(0, 32), (1, 32)]
  | .pplace _ => [(0, 16), (1, 16), (2, 16), (3, 16)]
  | .pcenter => [(0, 16), (1, 16)]

/-- Every operand of a command fits its field. -/
abbrev FieldsFit (i : Instr) (s : State) : Prop := ∀ f ∈ operandFields i, s.argNat f.1 < 2 ^ f.2

/-- The commands that take a grid size (40_addressing.md R120). -/
def takesGrid : Instr → Bool
  | .nbr | .upd _ _ | .pplace _ | .pcenter => true
  | .rcomp | .rquery | .renc | .rdec | .nenc | .ndec | .llook | .llogic | .pparse => false

/-- The RES registers a command's rule names. -/
def namedRes : Instr → List (Fin 8)
  | .nbr => [0, 1, 2, 3, 4, 5, 6, 7]
  | .rcomp => []
  | .rquery => [0]
  | .renc => [0]
  | .rdec => [0, 1]
  | .nenc => [0]
  | .ndec => [0, 1]
  | .llook => [0]
  | .llogic => [0]
  | .upd _ _ => [0, 1]
  | .pparse => [0, 1]
  | .pplace _ => []
  | .pcenter => [0, 1]

/-- The column offset of direction k (40_addressing.md R121). -/
def dx : Fin 8 → Int := ![-1, 0, 1, 1, 1, 0, -1, -1]

/-- The row offset of direction k (40_addressing.md R121). -/
def dy : Fin 8 → Int := ![-1, -1, -1, 0, 1, 1, 1, 0]

/-- `(x + dx) mod W` on integers, into [0, W) (40_addressing.md R126 e). -/
def shiftMod (x : Nat) (d : Int) (n : Nat) : Nat := (((x : Int) + d) % (n : Int)).toNat

/-- The cells from `off` to `off + n - 1` are written. -/
abbrev Written {α : Type} (m : Memory α) (off n : Nat) : Prop := ∀ i, i < n → (m.read (off + i)).isSome = true

/-- The text operand of RCOMP and PPARSE lies inside TXT, is written, and is `txt`. -/
abbrev TextIs (s : State) (txt : List Byte) : Prop :=
  s.argNat 1 = txt.length ∧ s.argNat 0 + txt.length ≤ s.params.txtCap ∧
    ∀ j, j < txt.length → s.txt.read (s.argNat 0 + j) = txt[j]?

/-- `j` is the least position of a byte that satisfies `f`. -/
abbrev FirstAt (txt : List Byte) (f : Byte → Bool) (j : Nat) : Prop :=
  (txt[j]?.any f) = true ∧ ∀ i, i < j → (txt[i]?.any f) = false

/-- Position `j` lies in one of the two digit runs, the separator being at `p` (41_rule_table.md R142, the set D). -/
abbrev InRuns (txt : List Byte) (p j : Nat) : Prop := (1 ≤ j ∧ j < p) ∨ (p + 2 ≤ j ∧ j < txt.length)

/-- A decimal digit, 0x30..0x39. -/
def digitByte (c : Byte) : Bool := 0x30 ≤ c.toNat && c.toNat ≤ 0x39

/-- One of the digits `0` to `8` of a rule string (41_rule_table.md R141). -/
abbrev RuleDigit (c : Byte) : Prop := 0x30 ≤ c.toNat ∧ c.toNat ≤ 0x38

/-- The number of live positions among the 8 neighbours of cell `i` (44_update_engine.md R200, Count). -/
def liveNeighbors (B : Memory Bool) (W H i : Nat) : Nat :=
  (Finset.univ.filter fun k : Fin 8 => B.read (nbrIdx W H i k) = some true).card

/-- Cell `i` is dirty (44_update_engine.md R205, the set D). -/
abbrev Dirty (s : State) (i : Nat) : Prop := s.chg.read i = some true

/-- Cell `i` is a boundary cell of a W×H grid (44_update_engine.md R205, the set C). -/
abbrev Boundary (s : State) (W H i : Nat) : Prop :=
  s.chg.read i = some false ∧ ∃ k : Fin 8, s.chg.read (nbrIdx W H i k) = some true

/-- The checks of UPD all pass (44_update_engine.md R201). -/
abbrev UpdReady (mode : UpdMode) (sel : BufSel) (s : State) : Prop :=
  s.argNat 0 < 65536 ∧ s.argNat 1 < 65536 ∧ 1 ≤ s.argNat 0 ∧ 1 ≤ s.argNat 1 ∧
    (mode = .rt → s.status.rtValid = true) ∧ s.argNat 0 * s.argNat 1 ≤ s.params.cellCap ∧
    s.len (.buf sel) = s.argNat 0 * s.argNat 1 ∧ s.len (.buf sel.other) = s.argNat 0 * s.argNat 1 ∧
    s.len .chg = s.argNat 0 * s.argNat 1 ∧ Written (s.buf sel) 0 (s.argNat 0 * s.argNat 1) ∧
    Written s.chg 0 (s.argNat 0 * s.argNat 1)

/-- The grid operands of UPD are legal, and in RT mode there is a rule table. -/
abbrev UpdOperandsOk (mode : UpdMode) (s : State) : Prop :=
  s.argNat 0 < 65536 ∧ s.argNat 1 < 65536 ∧ 1 ≤ s.argNat 0 ∧ 1 ≤ s.argNat 1 ∧
    (mode = .rt → s.status.rtValid = true)

/-- The checks of PPLACE all pass (45_pattern.md R234). -/
abbrev PplaceReady (sel : BufSel) (s : State) : Prop :=
  FieldsFit (.pplace sel) s ∧ 1 ≤ s.argNat 0 ∧ 1 ≤ s.argNat 1 ∧ s.status.patValid = true ∧
    s.len (.buf sel) ≤ s.params.cellCap ∧ s.argNat 0 * s.argNat 1 ≤ s.len (.buf sel) ∧
    s.argNat 2 + s.patW.toNat ≤ s.argNat 0 ∧ s.argNat 3 + s.patH.toNat ≤ s.argNat 1

/-- First byte address of a window of cells (20_memory.md R62). -/
def windowBase : CellBank → Nat
  | .buf .s0 => 0x400000
  | .buf .s1 => 0x600000
  | .chg => 0x800000

/-- A byte address R62 does not list: past the registers, past the last word of a window, or past the last window. -/
abbrev Unlisted (p : Params) (a : Nat) : Prop :=
  (0x000064 ≤ a ∧ a < 0x100000) ∨
    (0x100000 + 4 * ((p.txtCap + 3) / 4) ≤ a ∧ a < 0x200000) ∨
    (0x200000 + 4 * ((p.patCap + 31) / 32) ≤ a ∧ a < 0x400000) ∨
    (0x400000 + 4 * ((p.cellCap + 31) / 32) ≤ a ∧ a < 0x600000) ∨
    (0x600000 + 4 * ((p.cellCap + 31) / 32) ≤ a ∧ a < 0x800000) ∨
    0x800000 + 4 * ((p.cellCap + 31) / 32) ≤ a

/-- The RO registers of 20_memory.md R65, by byte address: STATUS, FINFO, RES0..7, PAT_W, PAT_H, RTBL, CAP_*. -/
def readOnlyAddrs : List Nat :=
  [0x04, 0x0C, 0x20, 0x24, 0x28, 0x2C, 0x30, 0x34, 0x38, 0x3C, 0x4C, 0x50, 0x54, 0x58, 0x5C, 0x60]

/-- `w` is the word of command `i`, both ways (30_encoding.md R106). -/
abbrev WordOf (i : Instr) (w : Word) : Prop := decode w = .ok i ∧ encode i = w

/-- The Conway rule on a status and the number of set bits of a code (43_fixed_rule_lut.md R180, R181): birth of a dead
cell on 3, survival of a live one on 2 or 3. -/
def conwayResult (st : Nat) (code : Word) : Word :=
  if (Finset.univ.filter fun k : Fin 8 => code.getLsbD k.val = true).card = 3 ∨
      (st = 1 ∧ (Finset.univ.filter fun k : Fin 8 => code.getLsbD k.val = true).card = 2) then 1#32
  else 0#32

/-- The bank code of an information word: BUF0 = 0, BUF1 = 1, CHG = 2 (60_exceptions.md R260). -/
def bankNumber : CellBank → Word
  | .buf .s0 => 0#32
  | .buf .s1 => 1#32
  | .chg => 2#32

/-- The table of 60_exceptions.md R260: every cause with its code. -/
def causeTable : List (Cause × Byte) :=
  [(.none, 0x00)] ++
  [(.error .ruleNotAscii, 0x01), (.error .ruleNoSeparator, 0x02), (.error .ruleBadPrefix, 0x03),
    (.error .ruleBadDigit, 0x04), (.error .nbLength, 0x05), (.error .patRowLength, 0x06), (.error .patEmpty, 0x07)] ++
  [(.fault .illegalCommand, 0x80), (.fault .illegalOperand, 0x81), (.fault .gridZero, 0x82),
    (.fault .bufCapacity, 0x83), (.fault .lengthMismatch, 0x84), (.fault .uninitRead, 0x85), (.fault .txtRange, 0x86),
    (.fault .ruleDigitRange, 0x87), (.fault .ruleCountRange, 0x88), (.fault .noRule, 0x89), (.fault .noPattern, 0x8A),
    (.fault .patCapacity, 0x8B), (.fault .placeBounds, 0x8C), (.fault .centerBounds, 0x8D),
    (.fault .hostBusyAccess, 0x8E)]

/-- The host is the agent that moves, and `st` is its next statement (log entry 3 says who moves where both could). -/
abbrev HostMoves (s : State) (st : HostStmt) (rest : List HostStmt) : Prop :=
  s.host.prog = st :: rest ∧ (s.status.busy = false ∨ s.status.fault = true ∨ s.sched.head? = some .host)

/-- The state once the host has taken up its turn: a scheduling choice is used up where the block could have moved too
(log entry 3), and `rest` is what the host has left. -/
def hostTurn (s : State) (rest : List HostStmt) : State :=
  { s with
    host := { s.host with prog := rest }
    sched := if s.status.busy = true ∧ s.status.fault = false then s.sched.tail else s.sched }

end Sys2Proof.Claims

open Sys2Proof Sys2Proof.Machine Sys2Proof.Claims

/-! ### Encoding -/

/-- R90, R91, R94, R106: a word decodes to a command exactly when it is that command's word; no bit is dropped. -/
def Obligations.DecodeMeetsEncode : Prop :=
  ∀ (w : Word) (i : Instr), decode w = .ok i ↔ w = encode i

/-- R106: the seventeen words of the table, written out, decode to their mnemonics, and each mnemonic has its word. -/
def Obligations.TableWordsDecode : Prop :=
  (WordOf .nbr 0x00000001 ∧ WordOf .rcomp 0x00000010 ∧ WordOf .rquery 0x00000011 ∧ WordOf .renc 0x00000012 ∧
    WordOf .rdec 0x00000013 ∧ WordOf .nenc 0x00000020 ∧ WordOf .ndec 0x00000021 ∧ WordOf .llook 0x00000030 ∧
    WordOf .llogic 0x00000031) ∧
  (WordOf (.upd .rt .s0) 0x00000040 ∧ WordOf (.upd .lut .s0) 0x00000140 ∧ WordOf (.upd .rt .s1) 0x00000240 ∧
    WordOf (.upd .lut .s1) 0x00000340 ∧ WordOf .pparse 0x00000050 ∧ WordOf (.pplace .s0) 0x00000051 ∧
    WordOf (.pplace .s1) 0x00000251 ∧ WordOf .pcenter 0x00000052)

/-- R94, R102: where the block is to execute a word that any of the four conditions makes illegal, it faults with
ILLEGAL_COMMAND and the whole word in FINFO, whatever the operands are. Log entry 3 (the model's schedule): that the block
moves, and that its move uses up a scheduling choice where the host could have moved (afterTurn), is the model's choice. -/
def Obligations.IllegalWordFaults : Prop :=
  ∀ s : State, s.turn = some .block →
    (s.cmd.toNat % 256 ∉ [0x01, 0x10, 0x11, 0x12, 0x13, 0x20, 0x21, 0x30, 0x31, 0x40, 0x50, 0x51, 0x52] ∨
      1024 ≤ s.cmd.toNat ∨ (s.cmd.getLsbD 8 = true ∧ s.cmd.toNat % 256 ≠ 0x40) ∨
      (s.cmd.getLsbD 9 = true ∧ s.cmd.toNat % 256 ≠ 0x40 ∧ s.cmd.toNat % 256 ≠ 0x51)) →
    step s = .next (faulted s.afterTurn .illegalCommand s.cmd)

/-! ### The step -/

/-- R96, R9, R104, R105: a step runs the decoded command, or the host's next statement. Log entry 3 (the model's schedule):
where both agents could move, one scheduling choice is used up. Log entry 8 (the model's choices): a write of a name that
no read has set stops, and a refused read names nothing. -/
def Obligations.StepRunsDecodedCommand : Prop :=
  (∀ (s : State) (i : Instr), s.status.busy = true → s.status.fault = false →
    (s.host.prog = [] ∨ s.sched.head? ≠ some .host) → decode s.cmd = .ok i →
    step s = exec i { s with sched := if s.host.prog = [] then s.sched else s.sched.tail }) ∧
  (∀ (s : State) (bits : Nat) (a : Addr) (v : HostVal) (rest : List HostStmt), HostMoves s (.wr bits a v) rest →
    (∀ w, v.eval s.host.names = .ok w → step s = .next (hostWrite (hostTurn s rest) bits a w)) ∧
    (∀ n, v.eval s.host.names = .error n → step s = .fault (.hostNameUnset n))) ∧
  (∀ (s t : State) (bits : Nat) (a : Addr) (r : Option Word) (rest : List HostStmt),
    hostRead (hostTurn s rest) bits a = (t, r) →
    (HostMoves s (.rd bits a none) rest → step s = .next t) ∧
    (∀ n, HostMoves s (.rd bits a (some n)) rest →
      (∀ w, r = some w →
        step s = .next { t with host := { t.host with names := t.host.names.write n w } }) ∧
      (r = none → step s = .next t))) ∧
  (∀ (s t : State) (w : Word) (rest : List HostStmt), HostMoves s .wait rest →
    hostRead (hostTurn s (.wait :: rest)) 32 0x000004#24 = (t, some w) →
    (w.getLsbD 0 = true → step s = .next t) ∧
      (w.getLsbD 0 = false → step s = .next { t with host := { t.host with prog := rest } }))

/-- R274, log entry 5 (the model's choice that an idle step is a next state): with nothing pending and nothing for the
host to do, all state is kept. -/
def Obligations.IdleKeepsState : Prop :=
  ∀ s : State, s.status.busy = false → s.status.fault = false → s.host.prog = [] → step s = .next s

/-- R43, log entry 6 (the model's choice of how a halted machine with no host statement left stops). -/
def Obligations.HaltedStops : Prop :=
  ∀ s : State, s.status.fault = true → s.host.prog = [] → step s = .fault .halted

/-- R29, R43, R266, R291: a halted block stays halted with the first cause and information word, until the host's next
statement writes CTRL with bit 0 = 1. -/
def Obligations.FaultSticksUntilReset : Prop :=
  ∀ s t : State, s.status.fault = true → s.status.busy = false → step s = .next t →
    (t.status = s.status ∧ t.finfo = s.finfo ∧ t.cmd = s.cmd) ∨
      ∃ (a : Addr) (v : HostVal) (w : Word) (rest : List HostStmt), s.host.prog = .wr 32 a v :: rest ∧
        a = 0x000008#24 ∧ v.eval s.host.names = .ok w ∧ w.getLsbD 0 = true

/-- R10, R15, R263, R264: every command that answers a next state ends in one of three ways: a fault or a format
error that changes nothing but STATUS and FINFO, or a success that leaves ERR, FAULT, CAUSE and FINFO alone. -/
def Obligations.EveryCommandEndsOneWay : Prop :=
  ∀ (i : Instr) (s t : State), exec i s = .next t →
    (∃ c info, t = faulted s c info) ∨ (∃ e info, t = erred s e info) ∨
      (t.status.busy = false ∧ t.status.err = s.status.err ∧ t.status.fault = s.status.fault ∧
        t.status.cause = s.status.cause ∧ t.finfo = s.finfo)

/-- R20, R22, R36, R37, R38, R40, R61: what a command may write. No command writes CMD, ARG, LEN, TXT, CHG or anything of
the host; RT and RT_VALID only RCOMP; PAT, PAT_W, PAT_H and PAT_VALID only PPARSE; BUF[sel] only UPD with the other
buffer as its world and PPLACE to it. -/
def Obligations.CommandWritesOnlyItsState : Prop :=
  ∀ (i : Instr) (s t : State), exec i s = .next t →
    (t.params = s.params ∧ t.cmd = s.cmd ∧ t.arg = s.arg ∧ t.len0 = s.len0 ∧ t.len1 = s.len1 ∧ t.lenc = s.lenc ∧
      t.txt = s.txt ∧ t.chg = s.chg ∧ t.refused = s.refused ∧ t.host = s.host ∧ t.sched = s.sched ∧
      t.draws = s.draws) ∧
    (i ≠ .rcomp → t.rt = s.rt ∧ t.status.rtValid = s.status.rtValid) ∧
    (i ≠ .pparse → t.pat = s.pat ∧ t.patW = s.patW ∧ t.patH = s.patH ∧ t.status.patValid = s.status.patValid) ∧
    (∀ sel, i ≠ .pplace sel → (∀ mode, i ≠ .upd mode sel.other) → t.buf sel = s.buf sel)

/-- R23: a command writes no RES register but those its rule names, and none at all when it errs or faults. -/
def Obligations.UnnamedResultsKeepValues : Prop :=
  ∀ (i : Instr) (s t : State), exec i s = .next t →
    (∀ k : Fin 8, k ∉ namedRes i → t.res[k] = s.res[k]) ∧
      (s.status.err = false → s.status.fault = false → (t.status.err = true ∨ t.status.fault = true) → t.res = s.res)

/-- R299, log entries 3 (the choice list) and 4 (each read advances the draw counter): after any number `n` of STATUS reads
that the schedule puts first, the block executes the pending command. -/
def Obligations.WaitLetsBlockRun : Prop :=
  ∀ (s : State) (rest : List HostStmt) (n : Nat), s.status.busy = true → s.status.fault = false →
    s.host.prog = .wait :: rest → s.sched = List.replicate n .host →
    Sys2Proof.core.run (n + 1) s = blockStep { s with sched := [], draws := s.draws + n }

/-! ### Invariants -/

/-- R7, R20, R26 to R30, R33, R40: every step of either agent keeps the invariant. -/
def Obligations.EveryStepKeepsInv : Prop :=
  ∀ s t : State, s.Inv → step s = .next t → t.Inv

/-- The invariant holds at power-on. -/
def Obligations.InvAtReset : Prop := State.reset.Inv

/-- R71, R14: no primitive is applied outside its precondition: a step from a state that meets the invariant never stops
on an unwritten pattern cell. -/
def Obligations.NoReadOfUnwrittenPattern : Prop :=
  ∀ (s : State) (i : Nat), s.Inv → step s ≠ .fault (.patCellUnwritten i)

/-- R21: an access that has no meaning sets the REFUSED mark; no step clears it; a state that has it is never final. -/
def Obligations.RefusedMarkStays : Prop :=
  (∀ (s : State) (bits : Nat) (a : Addr) (v : Word), accessTarget s.params bits a = none →
    (hostWrite s bits a v).refused = true ∧ (hostRead s bits a).1.refused = true) ∧
  ∀ s t : State, s.refused = true → s.final = false ∧ (step s = .next t → t.refused = true)

/-- R41: CAP_CELL, CAP_TXT and CAP_PAT read as the parameters, which no step changes. -/
def Obligations.CapacitiesAreConstant : Prop :=
  (∀ s t : State, step s = .next t → t.params = s.params) ∧
    (∀ s : State, s.status.busy = false →
      (hostRead s 32 0x000058#24).2 = some (BitVec.ofNat 32 s.params.cellCap) ∧
        (hostRead s 32 0x00005C#24).2 = some (BitVec.ofNat 32 s.params.txtCap) ∧
        (hostRead s 32 0x000060#24).2 = some (BitVec.ofNat 32 s.params.patCap))

/-! ### Reset, issue and the host port -/

/-- R31, R290: a CTRL write is accepted in every state; bit 0 = 1 resets every item of R44, bit 0 = 0 has no effect; and a
CTRL read, where it is granted, returns 0. -/
def Obligations.CtrlStrobeResets : Prop :=
  ∀ (s : State) (v : Word),
    (v.getLsbD 0 = true → hostWrite s 32 0x000008#24 v = zeroed s) ∧
      (v.getLsbD 0 = false → hostWrite s 32 0x000008#24 v = s) ∧
      (s.status.busy = false → (hostRead s 32 0x000008#24).2 = some 0#32)

/-- R44, R291 (a), log entries 1, 2, 3, 4, 11 (the model's own fields, kept by the record R44 lists): the state after
power-on, as a host sees it: every register below CAP_CELL reads 0, and every cell of every bank is unwritten. -/
def Obligations.PowerOnState : Prop :=
  State.reset = zeroed State.reset ∧
    (∀ a, a % 4 = 0 → a < 0x58 → (hostRead State.reset 32 (BitVec.ofNat 24 a)).2 = some 0#32) ∧
    (∀ b i, (State.reset.cells b).read i = none) ∧
    ∀ i, State.reset.txt.read i = none ∧ State.reset.pat.read i = none

/-- R95: issue. A halted block ignores the write; a busy one faults; otherwise CMD takes the value, BUSY is set, ERR,
CAUSE and FINFO are cleared, and nothing is validated: an illegal word is accepted and faults when executed. -/
def Obligations.IssueRule : Prop :=
  ∀ (s : State) (v : Word),
    (s.status.fault = true → hostWrite s 32 0x000000#24 v = s) ∧
      (s.status.fault = false → s.status.busy = true →
        hostWrite s 32 0x000000#24 v = faulted s .hostBusyAccess 0#32) ∧
      (s.status.fault = false → s.status.busy = false →
        hostWrite s 32 0x000000#24 v =
          { s with cmd := v, finfo := 0#32, status := { s.status with busy := true, err := false, cause := .none } } ∧
        (legalCommand v = false → blockStep (hostWrite s 32 0x000000#24 v) =
          .next (faulted (hostWrite s 32 0x000000#24 v) .illegalCommand v)))

/-- R70, log entry 7 (the model's choice that an access R66 refuses is refused during BUSY too): during BUSY every access
but a STATUS read and a CTRL write faults with its byte address, is dropped, and discards the pending command; a STATUS
read is granted; a refused access only sets the REFUSED mark, and a refused read returns no value (log entry 8). Log entry 4
(the model's form of R70's arbitrary value): a read that faults returns the free value at the draw counter, and every read
that is not refused advances that counter. -/
def Obligations.BusyAccessFaults : Prop :=
  ∀ (s : State) (bits : Nat) (a : Addr), s.status.busy = true → s.status.fault = false →
    (∀ t, accessTarget s.params bits a = some t →
      (∀ v : Word, t ≠ .ctrl → hostWrite s bits a v = faulted s .hostBusyAccess (a.setWidth 32)) ∧
      (t ≠ .status → hostRead s bits a =
        ({ faulted s .hostBusyAccess (a.setWidth 32) with draws := s.draws + 1 }, some (Config.freeWord s.draws))) ∧
      (t = .status → hostRead s bits a = ({ s with draws := s.draws + 1 }, some s.status.toWord))) ∧
    (accessTarget s.params bits a = none →
      (∀ v : Word, hostWrite s bits a v = { s with refused := true }) ∧
        hostRead s bits a = ({ s with refused := true }, none))

/-- R62: the address map, register by register and window by window, and every address it does not list is unmapped. -/
def Obligations.AddressMap : Prop :=
  ∀ p : Params, p.legal = true →
    (targetAt p 0x000000 = some .cmd ∧ targetAt p 0x000004 = some .status ∧ targetAt p 0x000008 = some .ctrl ∧
      targetAt p 0x00000C = some .finfo ∧ (∀ i : Fin 4, targetAt p (0x000010 + 4 * i.val) = some (.arg i)) ∧
      (∀ k : Fin 8, targetAt p (0x000020 + 4 * k.val) = some (.res k)) ∧
      targetAt p 0x000040 = some (.len (.buf .s0)) ∧ targetAt p 0x000044 = some (.len (.buf .s1)) ∧
      targetAt p 0x000048 = some (.len .chg) ∧ targetAt p 0x00004C = some .patW ∧
      targetAt p 0x000050 = some .patH ∧ targetAt p 0x000054 = some .rtbl ∧ targetAt p 0x000058 = some .capCell ∧
      targetAt p 0x00005C = some .capTxt ∧ targetAt p 0x000060 = some .capPat) ∧
    (∀ w, w < (p.txtCap + 3) / 4 → targetAt p (0x100000 + 4 * w) = some (.txt w)) ∧
    (∀ w, w < (p.patCap + 31) / 32 → targetAt p (0x200000 + 4 * w) = some (.pat w)) ∧
    (∀ b w, w < (p.cellCap + 31) / 32 → targetAt p (windowBase b + 4 * w) = some (.cells b w)) ∧
    (∀ a, Unlisted p a → targetAt p a = none)

/-- R66, outside BUSY (BusyAccessFaults says what happens during it): an access that is not 32 bits wide, not at a multiple
of 4, or at an unmapped address sets the REFUSED mark and changes no other state. Log entry 8 (the model's choice): a
refused read returns no value. -/
def Obligations.RefusedAccessOnlyMarks : Prop :=
  ∀ (s : State) (bits : Nat) (a : Addr) (v : Word), s.status.busy = false →
    (bits ≠ 32 ∨ a.toNat % 4 ≠ 0 ∨ (s.params.legal = true ∧ Unlisted s.params a.toNat)) →
    hostWrite s bits a v = { s with refused := true } ∧ hostRead s bits a = ({ s with refused := true }, none)

/-- R65: a write to a read-only register or to the PAT window is ignored. -/
def Obligations.ReadOnlyWritesIgnored : Prop :=
  ∀ (s : State) (v : Word), s.params.legal = true → s.status.busy = false →
    (∀ a ∈ readOnlyAddrs, hostWrite s 32 (BitVec.ofNat 24 a) v = s) ∧
      (∀ w, w < (s.params.patCap + 31) / 32 → hostWrite s 32 (BitVec.ofNat 24 (0x200000 + 4 * w)) v = s)

/-- R64, R63, R38, outside BUSY: ARG and LEN registers take any value written to them, and a read of a register returns its
value and changes nothing but the draw counter (log entry 4); RTBL is RT zero-extended. STATUS is in StatusWordLayout, CTRL
in CtrlStrobeResets, CAP_* in CapacitiesAreConstant. -/
def Obligations.RegisterWritesStick : Prop :=
  ∀ s : State, s.status.busy = false →
    (∀ v : Word, (∀ i : Fin 4, hostWrite s 32 (BitVec.ofNat 24 (0x10 + 4 * i.val)) v = { s with arg := s.arg.set i v }) ∧
      hostWrite s 32 0x000040#24 v = { s with len0 := v } ∧ hostWrite s 32 0x000044#24 v = { s with len1 := v } ∧
      hostWrite s 32 0x000048#24 v = { s with lenc := v }) ∧
    (∀ i : Fin 4, hostRead s 32 (BitVec.ofNat 24 (0x10 + 4 * i.val)) = ({ s with draws := s.draws + 1 }, some s.arg[i])) ∧
    (∀ k : Fin 8, hostRead s 32 (BitVec.ofNat 24 (0x20 + 4 * k.val)) = ({ s with draws := s.draws + 1 }, some s.res[k])) ∧
    (∀ r ∈ [(0x000000#24, s.cmd), (0x00000C#24, s.finfo), (0x000040#24, s.len0), (0x000044#24, s.len1),
        (0x000048#24, s.lenc), (0x00004C#24, s.patW), (0x000050#24, s.patH), (0x000054#24, BitVec.ofNat 32 s.rt.toNat)],
      hostRead s 32 r.1 = ({ s with draws := s.draws + 1 }, some r.2))

/-- R64, R67: a write of word w of a bit window makes cells 32w .. 32w+31 below CELL_CAP written, cell 32w+b with bit b;
every other cell, and all other state, keeps its value. -/
def Obligations.BitWindowWrite : Prop :=
  ∀ (s : State) (b : CellBank) (w : Nat) (v : Word), s.params.legal = true → s.status.busy = false →
    w < (s.params.cellCap + 31) / 32 →
    ∃ M : Memory Bool,
      (∀ j, M.read j =
        if 32 * w ≤ j ∧ j < 32 * w + 32 ∧ j < s.params.cellCap then some (v.getLsbD (j - 32 * w))
        else (s.cells b).read j) ∧
      hostWrite s 32 (BitVec.ofNat 24 (windowBase b + 4 * w)) v = s.setCells b M

/-- R64, R67: a write of word w of the TXT window makes bytes 4w .. 4w+3 below TXT_CAP written, little-endian. -/
def Obligations.TextWindowWrite : Prop :=
  ∀ (s : State) (w : Nat) (v : Word), s.params.legal = true → s.status.busy = false →
    w < (s.params.txtCap + 3) / 4 →
    ∃ M : Memory Byte,
      (∀ j, M.read j =
        if 4 * w ≤ j ∧ j < 4 * w + 4 ∧ j < s.params.txtCap then
          some (BitVec.ofNat 8 (v.toNat / 256 ^ (j - 4 * w)))
        else s.txt.read j) ∧
      hostWrite s 32 (BitVec.ofNat 24 (0x100000 + 4 * w)) v = { s with txt := M }

/-- R63, R67, R33, log entry 4 (free values): a granted read of a window changes nothing but the draw counter; bit b is
cell 32w+b where that cell is written and below the capacity, and the drawn word's bit otherwise; byte q of a TXT word
is byte 4w+q in the same way. -/
def Obligations.WindowReads : Prop :=
  ∀ (s : State) (w : Nat), s.params.legal = true → s.status.busy = false →
    (∀ b : CellBank, w < (s.params.cellCap + 31) / 32 →
      ∃ v : Word, hostRead s 32 (BitVec.ofNat 24 (windowBase b + 4 * w)) = ({ s with draws := s.draws + 1 }, some v) ∧
        ∀ i, i < 32 → v.getLsbD i =
          if 32 * w + i < s.params.cellCap then ((s.cells b).read (32 * w + i)).getD ((Config.freeWord s.draws).getLsbD i)
          else (Config.freeWord s.draws).getLsbD i) ∧
    (w < (s.params.patCap + 31) / 32 →
      ∃ v : Word, hostRead s 32 (BitVec.ofNat 24 (0x200000 + 4 * w)) = ({ s with draws := s.draws + 1 }, some v) ∧
        ∀ i, i < 32 → v.getLsbD i =
          if 32 * w + i < s.params.patCap then (s.pat.read (32 * w + i)).getD ((Config.freeWord s.draws).getLsbD i)
          else (Config.freeWord s.draws).getLsbD i) ∧
    (w < (s.params.txtCap + 3) / 4 →
      ∃ v : Word, hostRead s 32 (BitVec.ofNat 24 (0x100000 + 4 * w)) = ({ s with draws := s.draws + 1 }, some v) ∧
        ∀ q, q < 4 → ∀ c, 4 * w + q < s.params.txtCap → s.txt.read (4 * w + q) = some c →
          BitVec.ofNat 8 (v.toNat / 256 ^ q) = c)

/-- R26, R260, R63: the word a STATUS read returns, outside BUSY (BusyAccessFaults says the same during it): the five flags,
CAUSE in bits 15:8, every reserved bit 0; the code of every cause; and CAUSE bit 7 is set exactly when the cause is a
fault. The read changes nothing but the draw counter (log entry 4). -/
def Obligations.StatusWordLayout : Prop :=
  (∀ s : State, s.status.busy = false →
    hostRead s 32 0x000004#24 = ({ s with draws := s.draws + 1 }, some s.status.toWord)) ∧
  (∀ st : Status, st.toWord.getLsbD 0 = st.busy ∧ st.toWord.getLsbD 1 = st.err ∧ st.toWord.getLsbD 2 = st.fault ∧
    st.toWord.getLsbD 3 = st.rtValid ∧ st.toWord.getLsbD 4 = st.patValid ∧
    (∀ b, 5 ≤ b → b < 8 → st.toWord.getLsbD b = false) ∧ (∀ b, 16 ≤ b → st.toWord.getLsbD b = false) ∧
    st.toWord.extractLsb' 8 8 = st.cause.code) ∧
  (∀ c : Cause, (c, c.code) ∈ causeTable) ∧
  (∀ c : Cause, c.code.getLsbD 7 = true ↔ ∃ f, c = .fault f)

/-! ### Operand checks -/

/-- R98, R97: the first operand register with a nonzero reserved bit faults with ILLEGAL_OPERAND and its number, in ARG
order, before every other check; NENC checks ARG1 only after its length check. -/
def Obligations.ReservedOperandBits : Prop :=
  (∀ (i : Instr) (s : State) (before after : List (Fin 4 × Nat)) (j : Fin 4) (bits : Nat),
    operandFields i = before ++ (j, bits) :: after → (∀ f ∈ before, s.argNat f.1 < 2 ^ f.2) →
    2 ^ bits ≤ s.argNat j → exec i s = .next (faulted s .illegalOperand (BitVec.ofNat 32 j.val))) ∧
  (∀ s : State, (s.argNat 0 ≠ 8 → exec .nenc s = .next (erred s .nbLength s.arg[0])) ∧
    (s.argNat 0 = 8 → 256 ≤ s.argNat 1 → exec .nenc s = .next (faulted s .illegalOperand 1#32)))

/-- R120: every command that takes a grid size faults with GRID_ZERO on a zero dimension, right after the reserved-bit
check. -/
def Obligations.ZeroDimensionFaults : Prop :=
  ∀ (i : Instr) (s : State), takesGrid i = true → FieldsFit i s → (s.argNat 0 = 0 ∨ s.argNat 1 = 0) →
    exec i s = .next (faulted s .gridZero 0#32)

/-- R142, R231: RCOMP and PPARSE fault with TXT_RANGE when offset + length exceeds TXT_CAP, else with UNINIT_READ at the
lowest unwritten byte. -/
def Obligations.TextOperandFaults : Prop :=
  ∀ (i : Instr) (s : State), (i = .rcomp ∨ i = .pparse) →
    (s.params.txtCap < s.argNat 0 + s.argNat 1 → exec i s = .next (faulted s .txtRange 0#32)) ∧
      (∀ j, s.argNat 0 + s.argNat 1 ≤ s.params.txtCap → s.argNat 0 ≤ j → j < s.argNat 0 + s.argNat 1 →
        s.txt.read j = none → (∀ h, s.argNat 0 ≤ h → h < j → (s.txt.read h).isSome = true) →
        exec i s = .next (faulted s .uninitRead ((3#32 <<< 28) ||| BitVec.ofNat 32 j)))

/-! ### Neighborhood Addressing -/

/-- R125, with R121 and R126 (e): NBR, word 0x00000001, returns in RES[k] the cell at offset (dx_k, dy_k), each coordinate
modulo the grid, packed x | y << 16, for every position, inside the grid or not; nothing but RES and BUSY changes. A
reserved bit faults first, then a zero dimension. -/
def Obligations.NbrReturnsNeighbors : Prop :=
  WordOf .nbr 0x00000001 ∧ ∀ s : State,
    (FieldsFit .nbr s → 1 ≤ s.argNat 0 → 1 ≤ s.argNat 1 →
      ∃ v : Vector Word 8,
        (∀ k : Fin 8, v[k] = BitVec.ofNat 32
          (shiftMod (s.argNat 2) (dx k) (s.argNat 0) + 65536 * shiftMod (s.argNat 3) (dy k) (s.argNat 1))) ∧
        exec .nbr s = .next { s with res := v, status := doneStatus s.status }) ∧
    (∀ j : Fin 4, (∀ i, i < j → s.argNat i < 65536) → 65536 ≤ s.argNat j →
      exec .nbr s = .next (faulted s .illegalOperand (BitVec.ofNat 32 j.val))) ∧
    (FieldsFit .nbr s → (s.argNat 0 = 0 ∨ s.argNat 1 = 0) → exec .nbr s = .next (faulted s .gridZero 0#32))

/-- R123, R124, R126 (e): the address UPD generates for neighbour k of cell i. -/
def Obligations.NeighborIndexFormula : Prop :=
  ∀ (W H i : Nat) (k : Fin 8), 1 ≤ W → 1 ≤ H → i < W * H →
    nbrIdx W H i k = shiftMod (i / W) (dy k) H * W + shiftMod (i % W) (dx k) W ∧ nbrIdx W H i k < W * H

/-- R126 (b): on a grid at least 3 wide and 3 high the 8 neighbours are pairwise distinct and none is the cell. -/
def Obligations.NeighborsDistinct : Prop :=
  ∀ (W H i : Nat) (j k : Fin 8), 3 ≤ W → 3 ≤ H → i < W * H →
    nbrIdx W H i k ≠ i ∧ (j ≠ k → nbrIdx W H i j ≠ nbrIdx W H i k)

/-- R126 (c): direction k + 4 leads back, for every grid, degenerate sizes included. -/
def Obligations.NeighborSymmetry : Prop :=
  ∀ (W H i : Nat) (k : Fin 8), 1 ≤ W → 1 ≤ H → i < W * H → nbrIdx W H (nbrIdx W H i k) (k + 4) = i

/-! ### Rule Table -/

/-- R142, R141, R147 (b), (c): a rule string of the grammar compiles: entry 2n is set exactly when n is a birth digit,
entry 2n+1 exactly when n is a survival digit, whatever the order and multiplicity; nothing but RT, RT_VALID and BUSY
changes. -/
def Obligations.RcompCompiles : Prop :=
  ∀ (s : State) (b c : Byte) (births survivals : List Byte), (b = 0x42 ∨ b = 0x62) → (c = 0x53 ∨ c = 0x73) →
    (∀ d ∈ births, RuleDigit d) → (∀ d ∈ survivals, RuleDigit d) →
    TextIs s (b :: births ++ 0x2F :: c :: survivals) →
    ∃ table : BitVec 18,
      (∀ n, n ≤ 8 → (table.getLsbD (2 * n) = true ↔ BitVec.ofNat 8 (0x30 + n) ∈ births) ∧
        (table.getLsbD (2 * n + 1) = true ↔ BitVec.ofNat 8 (0x30 + n) ∈ survivals)) ∧
      exec .rcomp s =
        .next { s with rt := table, status := { s.status with rtValid := true, busy := false } }

/-- R142, 90_conflicts.md C4: the format errors of RCOMP and the fault of the digit 9, in the order of R142, each with the
information word of 60_exceptions.md R260; RT and RT_VALID keep their values. -/
def Obligations.RcompRejects : Prop :=
  ∀ (s : State) (txt : List Byte), TextIs s txt →
    (∀ j, FirstAt txt (fun c => decide (0x80 ≤ c.toNat)) j →
      exec .rcomp s = .next (erred s .ruleNotAscii (BitVec.ofNat 32 (s.argNat 0 + j)))) ∧
    ((∀ c ∈ txt, c.toNat < 0x80) →
      (0x2F ∉ txt → exec .rcomp s = .next (erred s .ruleNoSeparator 0#32)) ∧
      (∀ p, FirstAt txt (· == 0x2F) p →
        ((p = 0 ∨ (txt[0]? ≠ some 0x42 ∧ txt[0]? ≠ some 0x62)) →
          exec .rcomp s = .next (erred s .ruleBadPrefix 0#32)) ∧
        (1 ≤ p → (txt[0]? = some 0x42 ∨ txt[0]? = some 0x62) →
          ((txt[p + 1]? ≠ some 0x53 ∧ txt[p + 1]? ≠ some 0x73) →
            exec .rcomp s = .next (erred s .ruleBadPrefix 1#32)) ∧
          ((txt[p + 1]? = some 0x53 ∨ txt[p + 1]? = some 0x73) → ∀ j, InRuns txt p j →
            (txt[j]?.any digitByte = false → (∀ h, h < j → InRuns txt p h → txt[h]?.any digitByte = true) →
              exec .rcomp s = .next (erred s .ruleBadDigit (BitVec.ofNat 32 (s.argNat 0 + j)))) ∧
            ((∀ h, h < txt.length → InRuns txt p h → txt[h]?.any digitByte = true) → txt[j]? = some 0x39 →
              (∀ h, h < j → InRuns txt p h → txt[h]? ≠ some 0x39) →
              exec .rcomp s = .next (faulted s .ruleDigitRange (BitVec.ofNat 32 (s.argNat 0 + j))))))))

/-- R144, with R143 and 90_conflicts.md C3: RQUERY, word 0x00000011, returns RT[s + 2n] for n at most 8; it faults with
ILLEGAL_OPERAND, then NO_RULE before any RCOMP, then RULE_COUNT_RANGE for every count above 8. -/
def Obligations.RqueryRule : Prop :=
  WordOf .rquery 0x00000011 ∧ ∀ s : State,
    (s.argNat 0 < 2 → s.status.rtValid = true → s.argNat 1 ≤ 8 →
      exec .rquery s = .next { s with
        res := s.res.set 0 (if s.rt.getLsbD (s.argNat 0 + 2 * s.argNat 1) = true then 1#32 else 0#32)
        status := doneStatus s.status }) ∧
    (2 ≤ s.argNat 0 → exec .rquery s = .next (faulted s .illegalOperand 0#32)) ∧
    (s.argNat 0 < 2 → s.status.rtValid = false → exec .rquery s = .next (faulted s .noRule 0#32)) ∧
    (s.argNat 0 < 2 → s.status.rtValid = true → 9 ≤ s.argNat 1 →
      exec .rquery s = .next (faulted s .ruleCountRange s.arg[1]))

/-- R145, with 90_conflicts.md C1: RENC, word 0x00000012, returns s + 2·(n mod 16) for every count: masked, not clamped. -/
def Obligations.RencRule : Prop :=
  WordOf .renc 0x00000012 ∧ ∀ s : State,
    (s.argNat 0 < 2 → exec .renc s = .next { s with
      res := s.res.set 0 (BitVec.ofNat 32 (s.argNat 0 + 2 * (s.argNat 1 % 16)))
      status := doneStatus s.status }) ∧
    (2 ≤ s.argNat 0 → exec .renc s = .next (faulted s .illegalOperand 0#32))

/-- R146: RDEC, word 0x00000013, returns the low bit and the rest of a 5-bit index. -/
def Obligations.RdecRule : Prop :=
  WordOf .rdec 0x00000013 ∧ ∀ s : State,
    (s.argNat 0 < 32 → exec .rdec s = .next { s with
      res := (s.res.set 0 (BitVec.ofNat 32 (s.argNat 0 % 2))).set 1 (BitVec.ofNat 32 (s.argNat 0 / 2))
      status := doneStatus s.status }) ∧
    (32 ≤ s.argNat 0 → exec .rdec s = .next (faulted s .illegalOperand 0#32))

/-- R147 (a): index encode and decode are inverses, the count taken modulo 16. -/
def Obligations.RuleIndexRoundTrip : Prop :=
  (∀ st n, st < 2 → rtDecode (rtEncode st n) = (st, n % 16)) ∧
    (∀ i, i < 32 → rtEncode (rtDecode i).1 (rtDecode i).2 = i)

/-! ### Packed Neighborhood Codec -/

/-- R172: NENC, word 0x00000020, on 8 elements returns them as the code; any other length is the format error NB_LENGTH with
the length, whatever ARG1 holds; on 8 elements a reserved bit of ARG1 faults. -/
def Obligations.NencRule : Prop :=
  WordOf .nenc 0x00000020 ∧ ∀ s : State,
    (s.argNat 0 = 8 → s.argNat 1 < 256 →
      exec .nenc s = .next { s with res := s.res.set 0 s.arg[1], status := doneStatus s.status }) ∧
    (s.argNat 0 ≠ 8 → exec .nenc s = .next (erred s .nbLength s.arg[0])) ∧
    (s.argNat 0 = 8 → 256 ≤ s.argNat 1 → exec .nenc s = .next (faulted s .illegalOperand 1#32))

/-- R173: NDEC, word 0x00000021, returns the length 8 and the elements, element k at bit k. -/
def Obligations.NdecRule : Prop :=
  WordOf .ndec 0x00000021 ∧ ∀ s : State,
    (s.argNat 0 < 256 →
      exec .ndec s = .next { s with res := (s.res.set 0 8#32).set 1 s.arg[0], status := doneStatus s.status }) ∧
    (256 ≤ s.argNat 0 → exec .ndec s = .next (faulted s .illegalOperand 0#32))

/-- R174: decode then encode gives the byte back, encode then decode the sequence, and NDEC followed by NENC on its
results returns the code. -/
def Obligations.CodecRoundTrip : Prop :=
  (∀ c, c < 256 → nbEncode (nbDecode c) = c) ∧ (∀ b : Fin 8 → Bool, nbDecode (nbEncode b) = b) ∧
    (∀ s : State, s.argNat 0 < 256 →
      ∃ t u, exec .ndec s = .next t ∧
        exec .nenc { t with arg := (t.arg.set 0 t.res[0]).set 1 t.res[1] } = .next u ∧ u.res[0] = s.arg[0])

/-! ### Fixed-Rule Lookup Engine -/

/-- R182, with R180 and R181: LLOOK, word 0x00000030, returns 1 exactly on birth (dead, 3 set bits) or survival (alive, 2 or 3
set bits), whatever RT and RT_VALID hold; a reserved bit faults, ARG0 first. -/
def Obligations.LlookRule : Prop :=
  WordOf .llook 0x00000030 ∧ ∀ s : State,
    (s.argNat 0 < 2 → s.argNat 1 < 256 → exec .llook s =
      .next { s with res := s.res.set 0 (conwayResult (s.argNat 0) s.arg[1]), status := doneStatus s.status }) ∧
    (2 ≤ s.argNat 0 → exec .llook s = .next (faulted s .illegalOperand 0#32)) ∧
    (s.argNat 0 < 2 → 256 ≤ s.argNat 1 → exec .llook s = .next (faulted s .illegalOperand 1#32))

/-- R183, with R180 and R181: LLOGIC, word 0x00000031, returns 1 exactly on birth (dead, 3 set bits) or survival (alive, 2 or 3
set bits), whatever RT and RT_VALID hold; a reserved bit faults, ARG0 first. -/
def Obligations.LlogicRule : Prop :=
  WordOf .llogic 0x00000031 ∧ ∀ s : State,
    (s.argNat 0 < 2 → s.argNat 1 < 256 → exec .llogic s =
      .next { s with res := s.res.set 0 (conwayResult (s.argNat 0) s.arg[1]), status := doneStatus s.status }) ∧
    (2 ≤ s.argNat 0 → exec .llogic s = .next (faulted s .illegalOperand 0#32)) ∧
    (s.argNat 0 < 2 → 256 ≤ s.argNat 1 → exec .llogic s = .next (faulted s .illegalOperand 1#32))

/-- R184: (a) the table equals the logic; (b) after RCOMP of "B3/S23" the rule table gives the same answer for the number of
set bits; (c) the table does not depend on the order of the code's bits. -/
def Obligations.ThreeRuleFormsAgree : Prop :=
  (∀ st c, st < 2 → c < 256 → lut (lutIndex st c) = conwayLogic st c) ∧
    (∀ s t : State, TextIs s [0x42, 0x33, 0x2F, 0x53, 0x32, 0x33] → exec .rcomp s = .next t →
      ∀ st c, st < 2 → c < 256 → rtLookup t.rt st (popcount c) = lut (lutIndex st c)) ∧
    (∀ (st : Nat) (b : Fin 8 → Bool) (σ : Equiv.Perm (Fin 8)), st < 2 →
      lut (lutIndex st (nbEncode (b ∘ σ))) = lut (lutIndex st (nbEncode b)))

/-! ### Incremental Update Engine -/

/-- R200, R143, R180, R181: the next state of a cell. In RT mode it is the rule-table entry of its status and count; in
LUT mode it is birth on 3 or survival on 2 or 3; every one of the 8 positions counts. -/
def Obligations.NextStateRule : Prop :=
  ∀ (rt : BitVec 18) (B : Memory Bool) (W H i : Nat),
    nextCell .rt rt B W H i = rt.getLsbD ((B.alive i).toNat + 2 * liveNeighbors B W H i) ∧
      (nextCell .lut rt B W H i = true ↔
        liveNeighbors B W H i = 3 ∨ (B.read i = some true ∧ liveNeighbors B W H i = 2))

/-- R205, R204, R201: the closed form of UPD. A target cell is recomputed exactly when it is dirty or a boundary cell;
every other one, written or not, below N or beyond, keeps its state; RES0 and RES1 count the two sets; nothing else but
BUSY changes. The target need not be written. -/
def Obligations.UpdClosedForm : Prop :=
  ∀ (mode : UpdMode) (sel : BufSel) (s : State), UpdReady mode sel s →
    ∃ T : Memory Bool,
      (∀ i, T.read i =
        if i < s.argNat 0 * s.argNat 1 ∧ (Dirty s i ∨ Boundary s (s.argNat 0) (s.argNat 1) i) then
          some (nextCell mode s.rt (s.buf sel) (s.argNat 0) (s.argNat 1) i)
        else (s.buf sel.other).read i) ∧
      exec (.upd mode sel) s = .next { s.setBuf sel.other T with
        res := (s.res.set 0 (BitVec.ofNat 32
            ((Finset.range (s.argNat 0 * s.argNat 1)).filter fun i => Dirty s i).card)).set 1
          (BitVec.ofNat 32
            ((Finset.range (s.argNat 0 * s.argNat 1)).filter fun i =>
              Boundary s (s.argNat 0) (s.argNat 1) i).card)
        status := doneStatus s.status }

/-- R208: incremental equals full. If the world is one full recomputation of P, the target holds P, and CHG marks exactly
the cells on which P and the world differ, then after UPD the target is the full recomputation of the world. With the
rule table of B3/S23 (entries 5, 6 and 7) both modes recompute alike. -/
def Obligations.IncrementalEqualsFull : Prop :=
  (∀ (mode : UpdMode) (sel : BufSel) (s t : State) (P : Memory Bool), UpdReady mode sel s →
    (∀ i, i < s.argNat 0 * s.argNat 1 →
      (P.read i).isSome = true ∧
      (s.buf sel).read i = some (nextCell mode s.rt P (s.argNat 0) (s.argNat 1) i) ∧
      (s.buf sel.other).read i = P.read i ∧
      s.chg.read i = some (decide (P.read i ≠ (s.buf sel).read i))) →
    exec (.upd mode sel) s = .next t →
    ∀ i, i < s.argNat 0 * s.argNat 1 →
      (t.buf sel.other).read i = some (nextCell mode s.rt (s.buf sel) (s.argNat 0) (s.argNat 1) i)) ∧
  ∀ (rt : BitVec 18) (B : Memory Bool) (W H i : Nat), nextCell .rt 0x000E0#18 B W H i = nextCell .lut rt B W H i

/-- R209: with CHG all 1 UPD is a full recomputation whatever the target held, RES0 = N and RES1 = 0. -/
def Obligations.AllDirtyRecomputesAll : Prop :=
  ∀ (mode : UpdMode) (sel : BufSel) (s : State), UpdReady mode sel s →
    (∀ i, i < s.argNat 0 * s.argNat 1 → s.chg.read i = some true) →
    ∃ t, exec (.upd mode sel) s = .next t ∧ t.res[0] = BitVec.ofNat 32 (s.argNat 0 * s.argNat 1) ∧
      t.res[1] = 0#32 ∧
      ∀ i, i < s.argNat 0 * s.argNat 1 →
        (t.buf sel.other).read i = some (nextCell mode s.rt (s.buf sel) (s.argNat 0) (s.argNat 1) i)

/-- R210 (a): with CHG all 0 no target cell changes and both counts are 0. -/
def Obligations.NothingDirtyChangesNothing : Prop :=
  ∀ (mode : UpdMode) (sel : BufSel) (s : State), UpdReady mode sel s →
    (∀ i, i < s.argNat 0 * s.argNat 1 → s.chg.read i = some false) →
    exec (.upd mode sel) s =
      .next { s with res := (s.res.set 0 0#32).set 1 0#32, status := doneStatus s.status }

/-- R201, R260: the faults of UPD after the grid check, in order: NO_RULE in RT mode; BUF_CAPACITY, then LENGTH_MISMATCH,
each for the first bank of world, target, CHG; UNINIT_READ at the lowest unwritten cell of the world, then of CHG. -/
def Obligations.UpdFaults : Prop :=
  ∀ (mode : UpdMode) (sel : BufSel) (s : State), FieldsFit (.upd mode sel) s → 1 ≤ s.argNat 0 → 1 ≤ s.argNat 1 →
    (mode = .rt → s.status.rtValid = false → exec (.upd mode sel) s = .next (faulted s .noRule 0#32)) ∧
    ((mode = .rt → s.status.rtValid = true) →
      (∀ before b after, [CellBank.buf sel, .buf sel.other, .chg] = before ++ b :: after →
        (∀ c ∈ before, s.len c ≤ s.params.cellCap) → s.params.cellCap < s.len b →
        exec (.upd mode sel) s = .next (faulted s .bufCapacity (bankNumber b))) ∧
      ((∀ b, s.len b ≤ s.params.cellCap) →
        (∀ before b after, [CellBank.buf sel, .buf sel.other, .chg] = before ++ b :: after →
          (∀ c ∈ before, s.len c = s.argNat 0 * s.argNat 1) → s.len b ≠ s.argNat 0 * s.argNat 1 →
          exec (.upd mode sel) s = .next (faulted s .lengthMismatch (bankNumber b))) ∧
        ((∀ b, s.len b = s.argNat 0 * s.argNat 1) →
          (∀ i, i < s.argNat 0 * s.argNat 1 → (s.buf sel).read i = none → Written (s.buf sel) 0 i →
            exec (.upd mode sel) s = .next (faulted s .uninitRead
              ((bankNumber (.buf sel) <<< 28) ||| BitVec.ofNat 32 i))) ∧
          (∀ i, Written (s.buf sel) 0 (s.argNat 0 * s.argNat 1) → i < s.argNat 0 * s.argNat 1 →
            s.chg.read i = none → Written s.chg 0 i →
            exec (.upd mode sel) s = .next (faulted s .uninitRead ((2#32 <<< 28) ||| BitVec.ofNat 32 i))))))

/-! ### Pattern Loader/Placer -/

/-- R230: text made of segments without LF, joined by LF, splits into one line per segment; each loses one trailing CR and
begins at the offset of its segment. The kept lines are those that are not empty and do not begin with the marker. -/
def Obligations.TextSplitsIntoLines : Prop :=
  (∀ segs : List (List Byte), segs ≠ [] → (∀ g ∈ segs, (0x0A : Byte) ∉ g) →
    (textLines (List.intercalate [0x0A] segs)).map (fun l => l.bytes) =
        segs.map (fun g => if g.getLast? = some 0x0D then g.dropLast else g) ∧
      ∀ j, j < segs.length → ((textLines (List.intercalate [0x0A] segs))[j]?.map fun l => l.start) =
        some (((segs.take j).map fun g => g.length + 1).sum)) ∧
  ∀ (marker : Byte) (txt : List Byte), keptLines marker txt =
    (textLines txt).filter fun l => decide (0 < l.bytes.length ∧ l.bytes[0]? ≠ some marker)

/-- R231, R232: text whose kept lines have one length and fit PAT_CAP parses: PAT cell r·pw + c says whether byte c of kept
line r is the alive marker, cells at or beyond pw·ph keep their state, PAT_W, PAT_H, RES0, RES1 are the footprint and
PAT_VALID is set; nothing else but BUSY changes. -/
def Obligations.PparseParses : Prop :=
  ∀ (s : State) (txt : List Byte) (l : Line) (rest : List Line), TextIs s txt →
    keptLines s.params.commentMarker txt = l :: rest → (∀ m ∈ rest, m.bytes.length = l.bytes.length) →
    l.bytes.length * (rest.length + 1) ≤ s.params.patCap →
    ∃ P : Memory Bool,
      (∀ r c, r < rest.length + 1 → c < l.bytes.length → P.read (r * l.bytes.length + c) =
        (((l :: rest)[r]?.bind fun m => m.bytes[c]?).map fun b => b == s.params.aliveMarker)) ∧
      (∀ i, l.bytes.length * (rest.length + 1) ≤ i → P.read i = s.pat.read i) ∧
      exec .pparse s = .next { s with
        pat := P
        patW := BitVec.ofNat 32 l.bytes.length
        patH := BitVec.ofNat 32 (rest.length + 1)
        res := (s.res.set 0 (BitVec.ofNat 32 l.bytes.length)).set 1 (BitVec.ofNat 32 (rest.length + 1))
        status := { s.status with patValid := true, busy := false } }

/-- R231: the failures of PPARSE once its text is read, in order: PAT_EMPTY with no kept line, PAT_ROW_LENGTH at the TXT
offset of the first kept line of another length, PAT_CAPACITY; PAT, PAT_W, PAT_H and PAT_VALID keep their values. -/
def Obligations.PparseRejects : Prop :=
  ∀ (s : State) (txt : List Byte), TextIs s txt →
    (keptLines s.params.commentMarker txt = [] → exec .pparse s = .next (erred s .patEmpty 0#32)) ∧
    (∀ l before m after, keptLines s.params.commentMarker txt = l :: before ++ m :: after →
      (∀ b ∈ before, b.bytes.length = l.bytes.length) → m.bytes.length ≠ l.bytes.length →
      exec .pparse s = .next (erred s .patRowLength (BitVec.ofNat 32 (s.argNat 0 + m.start)))) ∧
    (∀ l rest, keptLines s.params.commentMarker txt = l :: rest → (∀ m ∈ rest, m.bytes.length = l.bytes.length) →
      s.params.patCap < l.bytes.length * (rest.length + 1) →
      exec .pparse s = .next (faulted s .patCapacity 0#32))

/-- R235, R234: PPLACE copies the pattern to the rectangle at (px, py) of BUF[SEL], changes no other cell of any bank and
nothing else but BUSY; a second PPLACE with the same operands gives the same buffer. The premise State.Inv gives the
pattern's cells their values. -/
def Obligations.PplaceCopiesPattern : Prop :=
  ∀ (sel : BufSel) (s : State), s.Inv → PplaceReady sel s →
    ∃ B : Memory Bool,
      (∀ r c, r < s.patH.toNat → c < s.patW.toNat →
        B.read ((s.argNat 3 + r) * s.argNat 0 + s.argNat 2 + c) = s.pat.read (r * s.patW.toNat + c)) ∧
      (∀ j, (∀ r c, r < s.patH.toNat → c < s.patW.toNat → j ≠ (s.argNat 3 + r) * s.argNat 0 + s.argNat 2 + c) →
        B.read j = (s.buf sel).read j) ∧
      exec (.pplace sel) s = .next { s.setBuf sel B with status := doneStatus s.status } ∧
      ∃ u, exec (.pplace sel) { s.setBuf sel B with status := doneStatus s.status } = .next u ∧
        ∀ j, (u.buf sel).read j = B.read j

/-- R234, R233, 90_conflicts.md C7: the faults of PPLACE after the grid check, in order: NO_PATTERN; BUF_CAPACITY;
PLACE_BOUNDS with 0 (world larger than the buffer), 1 (x fit), 2 (y fit). -/
def Obligations.PplaceFaults : Prop :=
  ∀ (sel : BufSel) (s : State), FieldsFit (.pplace sel) s → 1 ≤ s.argNat 0 → 1 ≤ s.argNat 1 →
    (s.status.patValid = false → exec (.pplace sel) s = .next (faulted s .noPattern 0#32)) ∧
    (s.status.patValid = true →
      (s.params.cellCap < s.len (.buf sel) →
        exec (.pplace sel) s = .next (faulted s .bufCapacity (bankNumber (.buf sel)))) ∧
      (s.len (.buf sel) ≤ s.params.cellCap →
        (s.len (.buf sel) < s.argNat 0 * s.argNat 1 →
          exec (.pplace sel) s = .next (faulted s .placeBounds 0#32)) ∧
        (s.argNat 0 * s.argNat 1 ≤ s.len (.buf sel) →
          (s.argNat 0 < s.argNat 2 + s.patW.toNat →
            exec (.pplace sel) s = .next (faulted s .placeBounds 1#32)) ∧
          (s.argNat 2 + s.patW.toNat ≤ s.argNat 0 → s.argNat 1 < s.argNat 3 + s.patH.toNat →
            exec (.pplace sel) s = .next (faulted s .placeBounds 2#32)))))

/-- R236: PCENTER, word 0x00000052, returns half the slack of each dimension, truncated; it faults with ILLEGAL_OPERAND, then
GRID_ZERO, then NO_PATTERN, then CENTER_BOUNDS 1 for a pattern too wide and 2 for one too high. -/
def Obligations.PcenterRule : Prop :=
  WordOf .pcenter 0x00000052 ∧ ∀ s : State,
    (65536 ≤ s.argNat 0 → exec .pcenter s = .next (faulted s .illegalOperand 0#32)) ∧
    (s.argNat 0 < 65536 → 65536 ≤ s.argNat 1 → exec .pcenter s = .next (faulted s .illegalOperand 1#32)) ∧
    (FieldsFit .pcenter s → (s.argNat 0 = 0 ∨ s.argNat 1 = 0) → exec .pcenter s = .next (faulted s .gridZero 0#32)) ∧
    (FieldsFit .pcenter s → 1 ≤ s.argNat 0 → 1 ≤ s.argNat 1 →
      (s.status.patValid = true → s.patW.toNat ≤ s.argNat 0 → s.patH.toNat ≤ s.argNat 1 →
        exec .pcenter s = .next { s with
          res := (s.res.set 0 (BitVec.ofNat 32 ((s.argNat 0 - s.patW.toNat) / 2))).set 1
            (BitVec.ofNat 32 ((s.argNat 1 - s.patH.toNat) / 2))
          status := doneStatus s.status }) ∧
      (s.status.patValid = false → exec .pcenter s = .next (faulted s .noPattern 0#32)) ∧
      (s.status.patValid = true → s.argNat 0 < s.patW.toNat →
        exec .pcenter s = .next (faulted s .centerBounds 1#32)) ∧
      (s.status.patValid = true → s.patW.toNat ≤ s.argNat 0 → s.argNat 1 < s.patH.toNat →
        exec .pcenter s = .next (faulted s .centerBounds 2#32)))

/-- R237: if PCENTER succeeds, PPLACE at the offset it returns, with the same W and H, passes both fit checks: it never
ends in PLACE_BOUNDS with 1 or 2; it ends in PLACE_BOUNDS 0 when W·H exceeds the buffer's length. -/
def Obligations.CenterThenPlaceFits : Prop :=
  ∀ (sel : BufSel) (s t u : State), s.status.fault = false → exec .pcenter s = .next t → t.status.fault = false →
    u = { t with arg := (t.arg.set 2 t.res[0]).set 3 t.res[1] } →
    (t.res[0].toNat + t.patW.toNat ≤ t.argNat 0 ∧ t.res[1].toNat + t.patH.toNat ≤ t.argNat 1) ∧
      exec (.pplace sel) u ≠ .next (faulted u .placeBounds 1#32) ∧
      exec (.pplace sel) u ≠ .next (faulted u .placeBounds 2#32) ∧
      (u.len (.buf sel) ≤ u.params.cellCap → u.len (.buf sel) < u.argNat 0 * u.argNat 1 →
        exec (.pplace sel) u = .next (faulted u .placeBounds 0#32))
end

