-- ==== Sys2Proof/Laws/Bits.lean ====
section
/-! SUPPORT. The laws of the packing helpers. -/

namespace Sys2Proof.Machine

theorem natOfBits_lt (f : Nat → Bool) (n : Nat) : natOfBits f n < 2 ^ n := by
  induction n with
  | zero => simp [natOfBits]
  | succ n ih =>
    rw [natOfBits, Nat.pow_succ]
    cases f n <;> simp <;> omega

theorem testBit_natOfBits (f : Nat → Bool) (n b : Nat) : (natOfBits f n).testBit b = (decide (b < n) && f b) := by
  induction n with
  | zero => simp [natOfBits]
  | succ n ih =>
    have hlt := natOfBits_lt f n
    have hor : natOfBits f (n + 1) = 2 ^ n * (f n).toNat + natOfBits f n := by
      rw [natOfBits, Nat.mul_comm, Nat.add_comm]
    rw [hor, Nat.testBit_two_pow_mul_add _ hlt, ih]
    by_cases h1 : b < n
    · have h2 : b < n + 1 := by omega
      simp [h1, h2]
    · by_cases h3 : b = n
      · subst h3; cases f b <;> simp
      · have h2 : ¬ b < n + 1 := by omega
        have h4 : b - n ≠ 0 := by omega
        have h5 : Nat.testBit 1 (b - n) = false := Nat.testBit_lt_two_pow (Nat.one_lt_two_pow h4)
        cases hf : f n <;> simp [h1, h2, h5]

/-- Bit `b` of the word built from `f` is `f b`. -/
@[simp] theorem getLsbD_wordOfBits (f : Nat → Bool) (b : Nat) : (wordOfBits f).getLsbD b = (decide (b < 32) && f b) := by
  rw [wordOfBits, BitVec.getLsbD_ofNat, testBit_natOfBits]
  by_cases h : b < 32 <;> simp [h]

theorem toNat_wordOfNat (n : Nat) (h : n < 2 ^ 32) : (wordOfNat n).toNat = n := by
  rw [wordOfNat, BitVec.toNat_ofNat, Nat.mod_eq_of_lt h]

@[simp] theorem toNat_wordOfBool (b : Bool) : (wordOfBool b).toNat = b.toNat := by
  cases b <;> rfl

/-- Bit `b` of byte `q` of a word is the word's bit 8q + b. -/
theorem getLsbD_byteOfWord (v : Word) (q b : Nat) : (byteOfWord v q).getLsbD b = (decide (b < 8) && v.getLsbD (8 * q + b)) := by
  simp [byteOfWord, BitVec.getLsbD_extractLsb']

/-- A packed coordinate is x + 65536·y while x is below 65536. -/
theorem packCoord_eq (c : Nat × Nat) (h : c.1 < 65536) : packCoord c = wordOfNat (c.1 + 65536 * c.2) := by
  rw [packCoord, Nat.shiftLeft_eq, Nat.lor_comm, show c.2 * 2 ^ 16 = 2 ^ 16 * c.2 by ring,
    ← Nat.two_pow_add_eq_or_of_lt (by simpa using h)]
  congr 1
  omega

theorem mem_dirs (k : Fin 8) : k ∈ dirs := by
  revert k; decide

theorem ceilDiv_mul_lt (n d w : Nat) (hd : 0 < d) (h : w < ceilDiv n d) : d * w < n := by
  rw [ceilDiv, Nat.lt_div_iff_mul_lt hd] at h
  rw [Nat.mul_comm]
  omega

end Sys2Proof.Machine
end

