-- ==== Sys2Proof/Laws/Memory.lean ====
section
/-! SUPPORT. The laws of a storage bank: a read after a write, what a write leaves alone, and that every operation keeps
the canonical form and the capacity bound. -/

namespace Sys2Proof.Machine

variable {α : Type}

@[simp] theorem Memory.read_nil (i : Nat) : Memory.read ([] : Memory α) i = none := rfl

@[simp] theorem Memory.read_write_same (m : Memory α) (i : Nat) (v : α) : (m.write i v).read i = some v := by
  induction m with
  | nil => simp [Memory.write, Memory.read]
  | cons c m ih =>
    obtain ⟨j, u⟩ := c
    simp only [Memory.write]
    split
    · simp [Memory.read]
    · split
      · simp [Memory.read]
      · simp [Memory.read, *]

theorem Memory.read_write_other (m : Memory α) (i j : Nat) (v : α) (h : j ≠ i) :
    (m.write i v).read j = m.read j := by
  induction m with
  | nil => simp [Memory.write, Memory.read, h]
  | cons c m ih =>
    obtain ⟨k, u⟩ := c
    simp only [Memory.write]
    split
    · simp [Memory.read, h]
    · split
      · next hik => subst hik; simp [Memory.read, h]
      · simp [Memory.read, ih]

theorem Memory.read_write (m : Memory α) (i j : Nat) (v : α) :
    (m.write i v).read j = if j = i then some v else m.read j := by
  by_cases h : j = i
  · subst h; simp
  · simp [h, Memory.read_write_other m i j v h]

/-- The entries of a bank after a write: the new one, or an old one. -/
theorem Memory.mem_write (m : Memory α) (i : Nat) (v : α) (c : Nat × α) (h : c ∈ m.write i v) :
    c = (i, v) ∨ c ∈ m := by
  induction m with
  | nil => simpa [Memory.write] using h
  | cons d m ih =>
    obtain ⟨j, u⟩ := d
    simp only [Memory.write] at h
    split at h
    · simpa using h
    · split at h
      · rcases List.mem_cons.1 h with h | h
        · exact .inl h
        · exact .inr (List.mem_cons_of_mem _ h)
      · rcases List.mem_cons.1 h with h | h
        · exact .inr (by simp [h])
        · rcases ih h with h | h
          · exact .inl h
          · exact .inr (List.mem_cons_of_mem _ h)

theorem Memory.wf_write (m : Memory α) (i : Nat) (v : α) (h : m.wf) : (m.write i v).wf := by
  induction m with
  | nil => simp [Memory.write, Memory.wf]
  | cons c m ih =>
    obtain ⟨j, u⟩ := c
    obtain ⟨hj, hm⟩ := List.pairwise_cons.1 h
    simp only [Memory.write]
    split
    · next hlt =>
      refine List.pairwise_cons.2 ⟨fun d hd => ?_, h⟩
      rcases List.mem_cons.1 hd with rfl | hd
      · exact hlt
      · exact Nat.lt_trans hlt (hj d hd)
    · split
      · next hij =>
        subst hij
        exact List.pairwise_cons.2 ⟨hj, hm⟩
      · refine List.pairwise_cons.2 ⟨fun d hd => ?_, ih hm⟩
        rcases Memory.mem_write m i v d hd with rfl | hd
        · simp only; omega
        · exact hj d hd

theorem Memory.within_write (m : Memory α) (i : Nat) (v : α) (cap : Nat) (h : m.within cap) (hi : i < cap) :
    (m.write i v).within cap := by
  intro c hc
  rcases Memory.mem_write m i v c hc with rfl | hc
  · exact hi
  · exact h c hc

/-! ### Several writes -/

@[simp] theorem Memory.writeMany_nil (m : Memory α) : m.writeMany [] = m := rfl

@[simp] theorem Memory.writeMany_cons (m : Memory α) (c : Nat × α) (cs : List (Nat × α)) :
    m.writeMany (c :: cs) = (m.write c.1 c.2).writeMany cs := rfl

theorem Memory.wf_writeMany (m : Memory α) (cs : List (Nat × α)) (h : m.wf) : (m.writeMany cs).wf := by
  induction cs generalizing m with
  | nil => exact h
  | cons c cs ih => exact ih _ (Memory.wf_write m c.1 c.2 h)

theorem Memory.within_writeMany (m : Memory α) (cs : List (Nat × α)) (cap : Nat) (h : m.within cap)
    (hcs : ∀ c ∈ cs, c.1 < cap) : (m.writeMany cs).within cap := by
  induction cs generalizing m with
  | nil => exact h
  | cons c cs ih =>
    exact ih _ (Memory.within_write m c.1 c.2 cap h (hcs c (by simp)))
      (fun d hd => hcs d (List.mem_cons_of_mem _ hd))

/-- A cell none of the writes names keeps its state. -/
theorem Memory.read_writeMany_other (m : Memory α) (cs : List (Nat × α)) (j : Nat) (h : ∀ c ∈ cs, c.1 ≠ j) :
    (m.writeMany cs).read j = m.read j := by
  induction cs generalizing m with
  | nil => rfl
  | cons c cs ih =>
    rw [Memory.writeMany_cons, ih _ (fun d hd => h d (List.mem_cons_of_mem _ hd)),
      Memory.read_write_other _ _ _ _ (fun hc => h c (by simp) hc.symm)]

/-- A cell that the writes name, always with the value `f` gives it, has that value after them. -/
theorem Memory.read_writeMany_of (m : Memory α) (cs : List (Nat × α)) (f : Nat → α)
    (hf : ∀ c ∈ cs, c.2 = f c.1) (j : Nat) (hj : ∃ c ∈ cs, c.1 = j) :
    (m.writeMany cs).read j = some (f j) := by
  induction cs generalizing m with
  | nil => obtain ⟨c, hc, _⟩ := hj; simp at hc
  | cons c cs ih =>
    rw [Memory.writeMany_cons]
    by_cases h : ∃ d ∈ cs, d.1 = j
    · exact ih _ (fun d hd => hf d (List.mem_cons_of_mem _ hd)) h
    · have hcj : c.1 = j := by
        obtain ⟨d, hd, hdj⟩ := hj
        rcases List.mem_cons.1 hd with rfl | hd
        · exact hdj
        · exact absurd ⟨d, hd, hdj⟩ h
      rw [Memory.read_writeMany_other _ _ _ (fun d hd hdj => h ⟨d, hd, hdj⟩), ← hcj, hf c (by simp)]
      simp

/-- A written cell stays written. -/
theorem Memory.isSome_read_write (m : Memory α) (i j : Nat) (v : α) (h : (m.read j).isSome = true) :
    ((m.write i v).read j).isSome = true := by
  rw [Memory.read_write]; split
  · rfl
  · exact h

/-! ### Listed entries and reads -/

/-- In canonical form a cell reads as its listed entry. -/
theorem Memory.read_of_mem (m : Memory α) (h : m.wf) (c : Nat × α) (hc : c ∈ m) : m.read c.1 = some c.2 := by
  induction m with
  | nil => simp at hc
  | cons d m ih =>
    obtain ⟨j, u⟩ := d
    obtain ⟨hj, hm⟩ := List.pairwise_cons.1 h
    rcases List.mem_cons.1 hc with rfl | hc
    · simp [Memory.read]
    · have : c.1 ≠ j := Nat.ne_of_gt (hj c hc)
      simpa [Memory.read, this] using ih hm hc

/-- A cell that reads as a value is listed with it. -/
theorem Memory.mem_of_read (m : Memory α) (i : Nat) (v : α) (h : m.read i = some v) : (i, v) ∈ m := by
  induction m with
  | nil => simp at h
  | cons d m ih =>
    obtain ⟨j, u⟩ := d
    simp only [Memory.read] at h
    split at h
    · next hij => simp_all
    · exact List.mem_cons_of_mem _ (ih h)

/-- In a bank that stays within its capacity no cell at or beyond it is written. -/
theorem Memory.read_eq_none_of_within (m : Memory α) (cap i : Nat) (h : m.within cap) (hi : cap ≤ i) :
    m.read i = none := by
  cases hr : m.read i with
  | none => rfl
  | some v => exact absurd (h _ (Memory.mem_of_read m i v hr)) (by simp; omega)

/-! ### Searching and gathering -/

theorem Memory.firstUnwritten_eq_none (m : Memory α) (off n : Nat) :
    m.firstUnwritten off n = none ↔ ∀ i, off ≤ i → i < off + n → (m.read i).isSome = true := by
  simp only [Memory.firstUnwritten, List.find?_eq_none, List.mem_range'_1]
  constructor
  · intro h i h1 h2
    have := h i ⟨h1, h2⟩
    cases hr : m.read i <;> simp_all
  · intro h i hi
    have := h i hi.1 hi.2
    cases hr : m.read i <;> simp_all

/-- The index `firstUnwritten` answers is unwritten, in range, and every cell before it is written. -/
theorem Memory.firstUnwritten_eq_some (m : Memory α) (off n i : Nat) (h : m.firstUnwritten off n = some i) :
    off ≤ i ∧ i < off + n ∧ m.read i = none := by
  have hm := List.mem_of_find?_eq_some h
  have hp := List.find?_some h
  rw [List.mem_range'_1] at hm
  exact ⟨hm.1, hm.2, by simpa using hp⟩

/-- Where every cell is written, the values gathered are those of the cells, in order. -/
theorem Memory.readMany_of_written (m : Memory α) (off : Nat) (vs : List α)
    (h : ∀ j, (hj : j < vs.length) → m.read (off + j) = some vs[j]) : m.readMany off vs.length = vs := by
  induction vs generalizing off with
  | nil => rfl
  | cons v vs ih =>
    have h0 : m.read off = some v := h 0 (by simp)
    have hs : m.readMany (off + 1) vs.length = vs :=
      ih (off + 1) fun j hj => by
        rw [show off + 1 + j = off + (j + 1) by omega]
        exact h (j + 1) (by simpa using hj)
    simp only [Memory.readMany, List.length_cons, List.range'_succ, List.filterMap_cons, h0]
    exact congrArg _ hs

@[simp] theorem Memory.alive_eq_true (m : Memory Bool) (i : Nat) : m.alive i = true ↔ m.read i = some true := by
  simp [Memory.alive]

end Sys2Proof.Machine
end

