-- ==== Sys2Proof/Laws/State.lean ====
section
/-! SUPPORT. One lemma per field per update of State, each true by rfl, so that no proof unfolds a record update; and the
laws of the two updates that choose a bank (setBuf, setCells) and of afterTurn. -/

namespace Sys2Proof.Machine

/-! ### errorEntry -/

@[simp] theorem errorEntry_params (s : State) (e : FormatError) (info : Word) :
    (errorEntry s e info).params = s.params := rfl
@[simp] theorem errorEntry_cmd (s : State) (e : FormatError) (info : Word) : (errorEntry s e info).cmd = s.cmd := rfl
@[simp] theorem errorEntry_status (s : State) (e : FormatError) (info : Word) :
    (errorEntry s e info).status = s.status.onError e := rfl
@[simp] theorem errorEntry_finfo (s : State) (e : FormatError) (info : Word) : (errorEntry s e info).finfo = info := rfl
@[simp] theorem errorEntry_arg (s : State) (e : FormatError) (info : Word) : (errorEntry s e info).arg = s.arg := rfl
@[simp] theorem errorEntry_res (s : State) (e : FormatError) (info : Word) : (errorEntry s e info).res = s.res := rfl
@[simp] theorem errorEntry_len0 (s : State) (e : FormatError) (info : Word) : (errorEntry s e info).len0 = s.len0 := rfl
@[simp] theorem errorEntry_len1 (s : State) (e : FormatError) (info : Word) : (errorEntry s e info).len1 = s.len1 := rfl
@[simp] theorem errorEntry_lenc (s : State) (e : FormatError) (info : Word) : (errorEntry s e info).lenc = s.lenc := rfl
@[simp] theorem errorEntry_rt (s : State) (e : FormatError) (info : Word) : (errorEntry s e info).rt = s.rt := rfl
@[simp] theorem errorEntry_patW (s : State) (e : FormatError) (info : Word) : (errorEntry s e info).patW = s.patW := rfl
@[simp] theorem errorEntry_patH (s : State) (e : FormatError) (info : Word) : (errorEntry s e info).patH = s.patH := rfl
@[simp] theorem errorEntry_buf0 (s : State) (e : FormatError) (info : Word) : (errorEntry s e info).buf0 = s.buf0 := rfl
@[simp] theorem errorEntry_buf1 (s : State) (e : FormatError) (info : Word) : (errorEntry s e info).buf1 = s.buf1 := rfl
@[simp] theorem errorEntry_chg (s : State) (e : FormatError) (info : Word) : (errorEntry s e info).chg = s.chg := rfl
@[simp] theorem errorEntry_txt (s : State) (e : FormatError) (info : Word) : (errorEntry s e info).txt = s.txt := rfl
@[simp] theorem errorEntry_pat (s : State) (e : FormatError) (info : Word) : (errorEntry s e info).pat = s.pat := rfl
@[simp] theorem errorEntry_refused (s : State) (e : FormatError) (info : Word) :
    (errorEntry s e info).refused = s.refused := rfl
@[simp] theorem errorEntry_host (s : State) (e : FormatError) (info : Word) : (errorEntry s e info).host = s.host := rfl
@[simp] theorem errorEntry_sched (s : State) (e : FormatError) (info : Word) :
    (errorEntry s e info).sched = s.sched := rfl
@[simp] theorem errorEntry_draws (s : State) (e : FormatError) (info : Word) :
    (errorEntry s e info).draws = s.draws := rfl

/-! ### faultEntry -/

@[simp] theorem faultEntry_params (s : State) (c : FaultCause) (info : Word) :
    (faultEntry s c info).params = s.params := rfl
@[simp] theorem faultEntry_cmd (s : State) (c : FaultCause) (info : Word) : (faultEntry s c info).cmd = s.cmd := rfl
@[simp] theorem faultEntry_status (s : State) (c : FaultCause) (info : Word) :
    (faultEntry s c info).status = s.status.onFault c := rfl
@[simp] theorem faultEntry_finfo (s : State) (c : FaultCause) (info : Word) : (faultEntry s c info).finfo = info := rfl
@[simp] theorem faultEntry_arg (s : State) (c : FaultCause) (info : Word) : (faultEntry s c info).arg = s.arg := rfl
@[simp] theorem faultEntry_res (s : State) (c : FaultCause) (info : Word) : (faultEntry s c info).res = s.res := rfl
@[simp] theorem faultEntry_len0 (s : State) (c : FaultCause) (info : Word) : (faultEntry s c info).len0 = s.len0 := rfl
@[simp] theorem faultEntry_len1 (s : State) (c : FaultCause) (info : Word) : (faultEntry s c info).len1 = s.len1 := rfl
@[simp] theorem faultEntry_lenc (s : State) (c : FaultCause) (info : Word) : (faultEntry s c info).lenc = s.lenc := rfl
@[simp] theorem faultEntry_rt (s : State) (c : FaultCause) (info : Word) : (faultEntry s c info).rt = s.rt := rfl
@[simp] theorem faultEntry_patW (s : State) (c : FaultCause) (info : Word) : (faultEntry s c info).patW = s.patW := rfl
@[simp] theorem faultEntry_patH (s : State) (c : FaultCause) (info : Word) : (faultEntry s c info).patH = s.patH := rfl
@[simp] theorem faultEntry_buf0 (s : State) (c : FaultCause) (info : Word) : (faultEntry s c info).buf0 = s.buf0 := rfl
@[simp] theorem faultEntry_buf1 (s : State) (c : FaultCause) (info : Word) : (faultEntry s c info).buf1 = s.buf1 := rfl
@[simp] theorem faultEntry_chg (s : State) (c : FaultCause) (info : Word) : (faultEntry s c info).chg = s.chg := rfl
@[simp] theorem faultEntry_txt (s : State) (c : FaultCause) (info : Word) : (faultEntry s c info).txt = s.txt := rfl
@[simp] theorem faultEntry_pat (s : State) (c : FaultCause) (info : Word) : (faultEntry s c info).pat = s.pat := rfl
@[simp] theorem faultEntry_refused (s : State) (c : FaultCause) (info : Word) :
    (faultEntry s c info).refused = s.refused := rfl
@[simp] theorem faultEntry_host (s : State) (c : FaultCause) (info : Word) : (faultEntry s c info).host = s.host := rfl
@[simp] theorem faultEntry_sched (s : State) (c : FaultCause) (info : Word) :
    (faultEntry s c info).sched = s.sched := rfl
@[simp] theorem faultEntry_draws (s : State) (c : FaultCause) (info : Word) :
    (faultEntry s c info).draws = s.draws := rfl

/-! ### commit -/

@[simp] theorem commit_params (s : State) : (commit s).params = s.params := rfl
@[simp] theorem commit_cmd (s : State) : (commit s).cmd = s.cmd := rfl
@[simp] theorem commit_status (s : State) : (commit s).status = s.status.onSuccess := rfl
@[simp] theorem commit_finfo (s : State) : (commit s).finfo = s.finfo := rfl
@[simp] theorem commit_arg (s : State) : (commit s).arg = s.arg := rfl
@[simp] theorem commit_res (s : State) : (commit s).res = s.res := rfl
@[simp] theorem commit_len0 (s : State) : (commit s).len0 = s.len0 := rfl
@[simp] theorem commit_len1 (s : State) : (commit s).len1 = s.len1 := rfl
@[simp] theorem commit_lenc (s : State) : (commit s).lenc = s.lenc := rfl
@[simp] theorem commit_rt (s : State) : (commit s).rt = s.rt := rfl
@[simp] theorem commit_patW (s : State) : (commit s).patW = s.patW := rfl
@[simp] theorem commit_patH (s : State) : (commit s).patH = s.patH := rfl
@[simp] theorem commit_buf0 (s : State) : (commit s).buf0 = s.buf0 := rfl
@[simp] theorem commit_buf1 (s : State) : (commit s).buf1 = s.buf1 := rfl
@[simp] theorem commit_chg (s : State) : (commit s).chg = s.chg := rfl
@[simp] theorem commit_txt (s : State) : (commit s).txt = s.txt := rfl
@[simp] theorem commit_pat (s : State) : (commit s).pat = s.pat := rfl
@[simp] theorem commit_refused (s : State) : (commit s).refused = s.refused := rfl
@[simp] theorem commit_host (s : State) : (commit s).host = s.host := rfl
@[simp] theorem commit_sched (s : State) : (commit s).sched = s.sched := rfl
@[simp] theorem commit_draws (s : State) : (commit s).draws = s.draws := rfl

/-! ### setRes -/

@[simp] theorem State.setRes_params (s : State) (i : Fin 8) (v : Word) : (s.setRes i v).params = s.params := rfl
@[simp] theorem State.setRes_cmd (s : State) (i : Fin 8) (v : Word) : (s.setRes i v).cmd = s.cmd := rfl
@[simp] theorem State.setRes_status (s : State) (i : Fin 8) (v : Word) : (s.setRes i v).status = s.status := rfl
@[simp] theorem State.setRes_finfo (s : State) (i : Fin 8) (v : Word) : (s.setRes i v).finfo = s.finfo := rfl
@[simp] theorem State.setRes_arg (s : State) (i : Fin 8) (v : Word) : (s.setRes i v).arg = s.arg := rfl
@[simp] theorem State.setRes_res (s : State) (i : Fin 8) (v : Word) : (s.setRes i v).res = s.res.set i v := rfl
@[simp] theorem State.setRes_len0 (s : State) (i : Fin 8) (v : Word) : (s.setRes i v).len0 = s.len0 := rfl
@[simp] theorem State.setRes_len1 (s : State) (i : Fin 8) (v : Word) : (s.setRes i v).len1 = s.len1 := rfl
@[simp] theorem State.setRes_lenc (s : State) (i : Fin 8) (v : Word) : (s.setRes i v).lenc = s.lenc := rfl
@[simp] theorem State.setRes_rt (s : State) (i : Fin 8) (v : Word) : (s.setRes i v).rt = s.rt := rfl
@[simp] theorem State.setRes_patW (s : State) (i : Fin 8) (v : Word) : (s.setRes i v).patW = s.patW := rfl
@[simp] theorem State.setRes_patH (s : State) (i : Fin 8) (v : Word) : (s.setRes i v).patH = s.patH := rfl
@[simp] theorem State.setRes_buf0 (s : State) (i : Fin 8) (v : Word) : (s.setRes i v).buf0 = s.buf0 := rfl
@[simp] theorem State.setRes_buf1 (s : State) (i : Fin 8) (v : Word) : (s.setRes i v).buf1 = s.buf1 := rfl
@[simp] theorem State.setRes_chg (s : State) (i : Fin 8) (v : Word) : (s.setRes i v).chg = s.chg := rfl
@[simp] theorem State.setRes_txt (s : State) (i : Fin 8) (v : Word) : (s.setRes i v).txt = s.txt := rfl
@[simp] theorem State.setRes_pat (s : State) (i : Fin 8) (v : Word) : (s.setRes i v).pat = s.pat := rfl
@[simp] theorem State.setRes_refused (s : State) (i : Fin 8) (v : Word) : (s.setRes i v).refused = s.refused := rfl
@[simp] theorem State.setRes_host (s : State) (i : Fin 8) (v : Word) : (s.setRes i v).host = s.host := rfl
@[simp] theorem State.setRes_sched (s : State) (i : Fin 8) (v : Word) : (s.setRes i v).sched = s.sched := rfl
@[simp] theorem State.setRes_draws (s : State) (i : Fin 8) (v : Word) : (s.setRes i v).draws = s.draws := rfl

/-! ### acceptCommand -/

@[simp] theorem acceptCommand_params (s : State) (v : Word) : (acceptCommand s v).params = s.params := rfl
@[simp] theorem acceptCommand_cmd (s : State) (v : Word) : (acceptCommand s v).cmd = v := rfl
@[simp] theorem acceptCommand_status (s : State) (v : Word) : (acceptCommand s v).status = s.status.onIssue := rfl
@[simp] theorem acceptCommand_finfo (s : State) (v : Word) : (acceptCommand s v).finfo = 0 := rfl
@[simp] theorem acceptCommand_arg (s : State) (v : Word) : (acceptCommand s v).arg = s.arg := rfl
@[simp] theorem acceptCommand_res (s : State) (v : Word) : (acceptCommand s v).res = s.res := rfl
@[simp] theorem acceptCommand_len0 (s : State) (v : Word) : (acceptCommand s v).len0 = s.len0 := rfl
@[simp] theorem acceptCommand_len1 (s : State) (v : Word) : (acceptCommand s v).len1 = s.len1 := rfl
@[simp] theorem acceptCommand_lenc (s : State) (v : Word) : (acceptCommand s v).lenc = s.lenc := rfl
@[simp] theorem acceptCommand_rt (s : State) (v : Word) : (acceptCommand s v).rt = s.rt := rfl
@[simp] theorem acceptCommand_patW (s : State) (v : Word) : (acceptCommand s v).patW = s.patW := rfl
@[simp] theorem acceptCommand_patH (s : State) (v : Word) : (acceptCommand s v).patH = s.patH := rfl
@[simp] theorem acceptCommand_buf0 (s : State) (v : Word) : (acceptCommand s v).buf0 = s.buf0 := rfl
@[simp] theorem acceptCommand_buf1 (s : State) (v : Word) : (acceptCommand s v).buf1 = s.buf1 := rfl
@[simp] theorem acceptCommand_chg (s : State) (v : Word) : (acceptCommand s v).chg = s.chg := rfl
@[simp] theorem acceptCommand_txt (s : State) (v : Word) : (acceptCommand s v).txt = s.txt := rfl
@[simp] theorem acceptCommand_pat (s : State) (v : Word) : (acceptCommand s v).pat = s.pat := rfl
@[simp] theorem acceptCommand_refused (s : State) (v : Word) : (acceptCommand s v).refused = s.refused := rfl
@[simp] theorem acceptCommand_host (s : State) (v : Word) : (acceptCommand s v).host = s.host := rfl
@[simp] theorem acceptCommand_sched (s : State) (v : Word) : (acceptCommand s v).sched = s.sched := rfl
@[simp] theorem acceptCommand_draws (s : State) (v : Word) : (acceptCommand s v).draws = s.draws := rfl

/-! ### markRefused -/

@[simp] theorem markRefused_params (s : State) : (markRefused s).params = s.params := rfl
@[simp] theorem markRefused_cmd (s : State) : (markRefused s).cmd = s.cmd := rfl
@[simp] theorem markRefused_status (s : State) : (markRefused s).status = s.status := rfl
@[simp] theorem markRefused_finfo (s : State) : (markRefused s).finfo = s.finfo := rfl
@[simp] theorem markRefused_arg (s : State) : (markRefused s).arg = s.arg := rfl
@[simp] theorem markRefused_res (s : State) : (markRefused s).res = s.res := rfl
@[simp] theorem markRefused_len0 (s : State) : (markRefused s).len0 = s.len0 := rfl
@[simp] theorem markRefused_len1 (s : State) : (markRefused s).len1 = s.len1 := rfl
@[simp] theorem markRefused_lenc (s : State) : (markRefused s).lenc = s.lenc := rfl
@[simp] theorem markRefused_rt (s : State) : (markRefused s).rt = s.rt := rfl
@[simp] theorem markRefused_patW (s : State) : (markRefused s).patW = s.patW := rfl
@[simp] theorem markRefused_patH (s : State) : (markRefused s).patH = s.patH := rfl
@[simp] theorem markRefused_buf0 (s : State) : (markRefused s).buf0 = s.buf0 := rfl
@[simp] theorem markRefused_buf1 (s : State) : (markRefused s).buf1 = s.buf1 := rfl
@[simp] theorem markRefused_chg (s : State) : (markRefused s).chg = s.chg := rfl
@[simp] theorem markRefused_txt (s : State) : (markRefused s).txt = s.txt := rfl
@[simp] theorem markRefused_pat (s : State) : (markRefused s).pat = s.pat := rfl
@[simp] theorem markRefused_refused (s : State) : (markRefused s).refused = true := rfl
@[simp] theorem markRefused_host (s : State) : (markRefused s).host = s.host := rfl
@[simp] theorem markRefused_sched (s : State) : (markRefused s).sched = s.sched := rfl
@[simp] theorem markRefused_draws (s : State) : (markRefused s).draws = s.draws := rfl

/-! ### draw -/

@[simp] theorem State.draw_params (s : State) : (s.draw).params = s.params := rfl
@[simp] theorem State.draw_cmd (s : State) : (s.draw).cmd = s.cmd := rfl
@[simp] theorem State.draw_status (s : State) : (s.draw).status = s.status := rfl
@[simp] theorem State.draw_finfo (s : State) : (s.draw).finfo = s.finfo := rfl
@[simp] theorem State.draw_arg (s : State) : (s.draw).arg = s.arg := rfl
@[simp] theorem State.draw_res (s : State) : (s.draw).res = s.res := rfl
@[simp] theorem State.draw_len0 (s : State) : (s.draw).len0 = s.len0 := rfl
@[simp] theorem State.draw_len1 (s : State) : (s.draw).len1 = s.len1 := rfl
@[simp] theorem State.draw_lenc (s : State) : (s.draw).lenc = s.lenc := rfl
@[simp] theorem State.draw_rt (s : State) : (s.draw).rt = s.rt := rfl
@[simp] theorem State.draw_patW (s : State) : (s.draw).patW = s.patW := rfl
@[simp] theorem State.draw_patH (s : State) : (s.draw).patH = s.patH := rfl
@[simp] theorem State.draw_buf0 (s : State) : (s.draw).buf0 = s.buf0 := rfl
@[simp] theorem State.draw_buf1 (s : State) : (s.draw).buf1 = s.buf1 := rfl
@[simp] theorem State.draw_chg (s : State) : (s.draw).chg = s.chg := rfl
@[simp] theorem State.draw_txt (s : State) : (s.draw).txt = s.txt := rfl
@[simp] theorem State.draw_pat (s : State) : (s.draw).pat = s.pat := rfl
@[simp] theorem State.draw_refused (s : State) : (s.draw).refused = s.refused := rfl
@[simp] theorem State.draw_host (s : State) : (s.draw).host = s.host := rfl
@[simp] theorem State.draw_sched (s : State) : (s.draw).sched = s.sched := rfl
@[simp] theorem State.draw_draws (s : State) : (s.draw).draws = s.draws + 1 := rfl

/-! ### withProg -/

@[simp] theorem State.withProg_params (s : State) (prog : List HostStmt) : (s.withProg prog).params = s.params := rfl
@[simp] theorem State.withProg_cmd (s : State) (prog : List HostStmt) : (s.withProg prog).cmd = s.cmd := rfl
@[simp] theorem State.withProg_status (s : State) (prog : List HostStmt) : (s.withProg prog).status = s.status := rfl
@[simp] theorem State.withProg_finfo (s : State) (prog : List HostStmt) : (s.withProg prog).finfo = s.finfo := rfl
@[simp] theorem State.withProg_arg (s : State) (prog : List HostStmt) : (s.withProg prog).arg = s.arg := rfl
@[simp] theorem State.withProg_res (s : State) (prog : List HostStmt) : (s.withProg prog).res = s.res := rfl
@[simp] theorem State.withProg_len0 (s : State) (prog : List HostStmt) : (s.withProg prog).len0 = s.len0 := rfl
@[simp] theorem State.withProg_len1 (s : State) (prog : List HostStmt) : (s.withProg prog).len1 = s.len1 := rfl
@[simp] theorem State.withProg_lenc (s : State) (prog : List HostStmt) : (s.withProg prog).lenc = s.lenc := rfl
@[simp] theorem State.withProg_rt (s : State) (prog : List HostStmt) : (s.withProg prog).rt = s.rt := rfl
@[simp] theorem State.withProg_patW (s : State) (prog : List HostStmt) : (s.withProg prog).patW = s.patW := rfl
@[simp] theorem State.withProg_patH (s : State) (prog : List HostStmt) : (s.withProg prog).patH = s.patH := rfl
@[simp] theorem State.withProg_buf0 (s : State) (prog : List HostStmt) : (s.withProg prog).buf0 = s.buf0 := rfl
@[simp] theorem State.withProg_buf1 (s : State) (prog : List HostStmt) : (s.withProg prog).buf1 = s.buf1 := rfl
@[simp] theorem State.withProg_chg (s : State) (prog : List HostStmt) : (s.withProg prog).chg = s.chg := rfl
@[simp] theorem State.withProg_txt (s : State) (prog : List HostStmt) : (s.withProg prog).txt = s.txt := rfl
@[simp] theorem State.withProg_pat (s : State) (prog : List HostStmt) : (s.withProg prog).pat = s.pat := rfl
@[simp] theorem State.withProg_refused (s : State) (prog : List HostStmt) : (s.withProg prog).refused = s.refused := rfl
@[simp] theorem State.withProg_host (s : State) (prog : List HostStmt) :
    (s.withProg prog).host = { s.host with prog := prog } := rfl
@[simp] theorem State.withProg_sched (s : State) (prog : List HostStmt) : (s.withProg prog).sched = s.sched := rfl
@[simp] theorem State.withProg_draws (s : State) (prog : List HostStmt) : (s.withProg prog).draws = s.draws := rfl

/-! ### resetBlock -/

@[simp] theorem State.resetBlock_params (s : State) : (s.resetBlock).params = s.params := rfl
@[simp] theorem State.resetBlock_cmd (s : State) : (s.resetBlock).cmd = 0 := rfl
@[simp] theorem State.resetBlock_status (s : State) :
    (s.resetBlock).status = { busy := false, err := false, fault := false, rtValid := false, patValid := false, cause := .none } := rfl
@[simp] theorem State.resetBlock_finfo (s : State) : (s.resetBlock).finfo = 0 := rfl
@[simp] theorem State.resetBlock_arg (s : State) : (s.resetBlock).arg = #v[0, 0, 0, 0] := rfl
@[simp] theorem State.resetBlock_res (s : State) : (s.resetBlock).res = #v[0, 0, 0, 0, 0, 0, 0, 0] := rfl
@[simp] theorem State.resetBlock_len0 (s : State) : (s.resetBlock).len0 = 0 := rfl
@[simp] theorem State.resetBlock_len1 (s : State) : (s.resetBlock).len1 = 0 := rfl
@[simp] theorem State.resetBlock_lenc (s : State) : (s.resetBlock).lenc = 0 := rfl
@[simp] theorem State.resetBlock_rt (s : State) : (s.resetBlock).rt = 0 := rfl
@[simp] theorem State.resetBlock_patW (s : State) : (s.resetBlock).patW = 0 := rfl
@[simp] theorem State.resetBlock_patH (s : State) : (s.resetBlock).patH = 0 := rfl
@[simp] theorem State.resetBlock_buf0 (s : State) : (s.resetBlock).buf0 = [] := rfl
@[simp] theorem State.resetBlock_buf1 (s : State) : (s.resetBlock).buf1 = [] := rfl
@[simp] theorem State.resetBlock_chg (s : State) : (s.resetBlock).chg = [] := rfl
@[simp] theorem State.resetBlock_txt (s : State) : (s.resetBlock).txt = [] := rfl
@[simp] theorem State.resetBlock_pat (s : State) : (s.resetBlock).pat = [] := rfl
@[simp] theorem State.resetBlock_refused (s : State) : (s.resetBlock).refused = s.refused := rfl
@[simp] theorem State.resetBlock_host (s : State) : (s.resetBlock).host = s.host := rfl
@[simp] theorem State.resetBlock_sched (s : State) : (s.resetBlock).sched = s.sched := rfl
@[simp] theorem State.resetBlock_draws (s : State) : (s.resetBlock).draws = s.draws := rfl

/-! ### setBuf, setCells, afterTurn -/

@[simp] theorem State.setBuf_params (s : State) (sel : BufSel) (m : Memory Bool) : (s.setBuf sel m).params = s.params := by
  cases sel <;> rfl
@[simp] theorem State.setBuf_cmd (s : State) (sel : BufSel) (m : Memory Bool) : (s.setBuf sel m).cmd = s.cmd := by
  cases sel <;> rfl
@[simp] theorem State.setBuf_status (s : State) (sel : BufSel) (m : Memory Bool) : (s.setBuf sel m).status = s.status := by
  cases sel <;> rfl
@[simp] theorem State.setBuf_finfo (s : State) (sel : BufSel) (m : Memory Bool) : (s.setBuf sel m).finfo = s.finfo := by
  cases sel <;> rfl
@[simp] theorem State.setBuf_arg (s : State) (sel : BufSel) (m : Memory Bool) : (s.setBuf sel m).arg = s.arg := by
  cases sel <;> rfl
@[simp] theorem State.setBuf_res (s : State) (sel : BufSel) (m : Memory Bool) : (s.setBuf sel m).res = s.res := by
  cases sel <;> rfl
@[simp] theorem State.setBuf_len0 (s : State) (sel : BufSel) (m : Memory Bool) : (s.setBuf sel m).len0 = s.len0 := by
  cases sel <;> rfl
@[simp] theorem State.setBuf_len1 (s : State) (sel : BufSel) (m : Memory Bool) : (s.setBuf sel m).len1 = s.len1 := by
  cases sel <;> rfl
@[simp] theorem State.setBuf_lenc (s : State) (sel : BufSel) (m : Memory Bool) : (s.setBuf sel m).lenc = s.lenc := by
  cases sel <;> rfl
@[simp] theorem State.setBuf_rt (s : State) (sel : BufSel) (m : Memory Bool) : (s.setBuf sel m).rt = s.rt := by
  cases sel <;> rfl
@[simp] theorem State.setBuf_patW (s : State) (sel : BufSel) (m : Memory Bool) : (s.setBuf sel m).patW = s.patW := by
  cases sel <;> rfl
@[simp] theorem State.setBuf_patH (s : State) (sel : BufSel) (m : Memory Bool) : (s.setBuf sel m).patH = s.patH := by
  cases sel <;> rfl
@[simp] theorem State.setBuf_chg (s : State) (sel : BufSel) (m : Memory Bool) : (s.setBuf sel m).chg = s.chg := by
  cases sel <;> rfl
@[simp] theorem State.setBuf_txt (s : State) (sel : BufSel) (m : Memory Bool) : (s.setBuf sel m).txt = s.txt := by
  cases sel <;> rfl
@[simp] theorem State.setBuf_pat (s : State) (sel : BufSel) (m : Memory Bool) : (s.setBuf sel m).pat = s.pat := by
  cases sel <;> rfl
@[simp] theorem State.setBuf_refused (s : State) (sel : BufSel) (m : Memory Bool) : (s.setBuf sel m).refused = s.refused := by
  cases sel <;> rfl
@[simp] theorem State.setBuf_host (s : State) (sel : BufSel) (m : Memory Bool) : (s.setBuf sel m).host = s.host := by
  cases sel <;> rfl
@[simp] theorem State.setBuf_sched (s : State) (sel : BufSel) (m : Memory Bool) : (s.setBuf sel m).sched = s.sched := by
  cases sel <;> rfl
@[simp] theorem State.setBuf_draws (s : State) (sel : BufSel) (m : Memory Bool) : (s.setBuf sel m).draws = s.draws := by
  cases sel <;> rfl

@[simp] theorem State.setBuf_buf (s : State) (sel : BufSel) (m : Memory Bool) : (s.setBuf sel m).buf sel = m := by
  cases sel <;> rfl
@[simp] theorem State.setBuf_buf_other (s : State) (sel : BufSel) (m : Memory Bool) :
    (s.setBuf sel m).buf sel.other = s.buf sel.other := by
  cases sel <;> rfl
@[simp] theorem State.setBuf_other_buf (s : State) (sel : BufSel) (m : Memory Bool) :
    (s.setBuf sel.other m).buf sel = s.buf sel := by
  cases sel <;> rfl
@[simp] theorem BufSel.other_other (sel : BufSel) : sel.other.other = sel := by
  cases sel <;> rfl
theorem BufSel.other_ne (sel : BufSel) : sel.other ≠ sel := by
  cases sel <;> decide

@[simp] theorem State.setCells_params (s : State) (b : CellBank) (m : Memory Bool) : (s.setCells b m).params = s.params := by
  cases b with
  | buf sel => cases sel <;> rfl
  | chg => rfl
@[simp] theorem State.setCells_cmd (s : State) (b : CellBank) (m : Memory Bool) : (s.setCells b m).cmd = s.cmd := by
  cases b with
  | buf sel => cases sel <;> rfl
  | chg => rfl
@[simp] theorem State.setCells_status (s : State) (b : CellBank) (m : Memory Bool) : (s.setCells b m).status = s.status := by
  cases b with
  | buf sel => cases sel <;> rfl
  | chg => rfl
@[simp] theorem State.setCells_finfo (s : State) (b : CellBank) (m : Memory Bool) : (s.setCells b m).finfo = s.finfo := by
  cases b with
  | buf sel => cases sel <;> rfl
  | chg => rfl
@[simp] theorem State.setCells_arg (s : State) (b : CellBank) (m : Memory Bool) : (s.setCells b m).arg = s.arg := by
  cases b with
  | buf sel => cases sel <;> rfl
  | chg => rfl
@[simp] theorem State.setCells_res (s : State) (b : CellBank) (m : Memory Bool) : (s.setCells b m).res = s.res := by
  cases b with
  | buf sel => cases sel <;> rfl
  | chg => rfl
@[simp] theorem State.setCells_len0 (s : State) (b : CellBank) (m : Memory Bool) : (s.setCells b m).len0 = s.len0 := by
  cases b with
  | buf sel => cases sel <;> rfl
  | chg => rfl
@[simp] theorem State.setCells_len1 (s : State) (b : CellBank) (m : Memory Bool) : (s.setCells b m).len1 = s.len1 := by
  cases b with
  | buf sel => cases sel <;> rfl
  | chg => rfl
@[simp] theorem State.setCells_lenc (s : State) (b : CellBank) (m : Memory Bool) : (s.setCells b m).lenc = s.lenc := by
  cases b with
  | buf sel => cases sel <;> rfl
  | chg => rfl
@[simp] theorem State.setCells_rt (s : State) (b : CellBank) (m : Memory Bool) : (s.setCells b m).rt = s.rt := by
  cases b with
  | buf sel => cases sel <;> rfl
  | chg => rfl
@[simp] theorem State.setCells_patW (s : State) (b : CellBank) (m : Memory Bool) : (s.setCells b m).patW = s.patW := by
  cases b with
  | buf sel => cases sel <;> rfl
  | chg => rfl
@[simp] theorem State.setCells_patH (s : State) (b : CellBank) (m : Memory Bool) : (s.setCells b m).patH = s.patH := by
  cases b with
  | buf sel => cases sel <;> rfl
  | chg => rfl
@[simp] theorem State.setCells_txt (s : State) (b : CellBank) (m : Memory Bool) : (s.setCells b m).txt = s.txt := by
  cases b with
  | buf sel => cases sel <;> rfl
  | chg => rfl
@[simp] theorem State.setCells_pat (s : State) (b : CellBank) (m : Memory Bool) : (s.setCells b m).pat = s.pat := by
  cases b with
  | buf sel => cases sel <;> rfl
  | chg => rfl
@[simp] theorem State.setCells_refused (s : State) (b : CellBank) (m : Memory Bool) : (s.setCells b m).refused = s.refused := by
  cases b with
  | buf sel => cases sel <;> rfl
  | chg => rfl
@[simp] theorem State.setCells_host (s : State) (b : CellBank) (m : Memory Bool) : (s.setCells b m).host = s.host := by
  cases b with
  | buf sel => cases sel <;> rfl
  | chg => rfl
@[simp] theorem State.setCells_sched (s : State) (b : CellBank) (m : Memory Bool) : (s.setCells b m).sched = s.sched := by
  cases b with
  | buf sel => cases sel <;> rfl
  | chg => rfl
@[simp] theorem State.setCells_draws (s : State) (b : CellBank) (m : Memory Bool) : (s.setCells b m).draws = s.draws := by
  cases b with
  | buf sel => cases sel <;> rfl
  | chg => rfl

@[simp] theorem State.setCells_cells (s : State) (b : CellBank) (m : Memory Bool) : (s.setCells b m).cells b = m := by
  cases b with
  | buf sel => cases sel <;> rfl
  | chg => rfl
theorem State.setCells_cells_other (s : State) (b c : CellBank) (m : Memory Bool) (h : c ≠ b) :
    (s.setCells b m).cells c = s.cells c := by
  rcases b with (_ | _) | _ <;> rcases c with (_ | _) | _ <;> first | rfl | exact absurd rfl h

@[simp] theorem State.afterTurn_params (s : State) : s.afterTurn.params = s.params := by
  unfold State.afterTurn; split <;> rfl
@[simp] theorem State.afterTurn_cmd (s : State) : s.afterTurn.cmd = s.cmd := by
  unfold State.afterTurn; split <;> rfl
@[simp] theorem State.afterTurn_status (s : State) : s.afterTurn.status = s.status := by
  unfold State.afterTurn; split <;> rfl
@[simp] theorem State.afterTurn_finfo (s : State) : s.afterTurn.finfo = s.finfo := by
  unfold State.afterTurn; split <;> rfl
@[simp] theorem State.afterTurn_arg (s : State) : s.afterTurn.arg = s.arg := by
  unfold State.afterTurn; split <;> rfl
@[simp] theorem State.afterTurn_res (s : State) : s.afterTurn.res = s.res := by
  unfold State.afterTurn; split <;> rfl
@[simp] theorem State.afterTurn_len0 (s : State) : s.afterTurn.len0 = s.len0 := by
  unfold State.afterTurn; split <;> rfl
@[simp] theorem State.afterTurn_len1 (s : State) : s.afterTurn.len1 = s.len1 := by
  unfold State.afterTurn; split <;> rfl
@[simp] theorem State.afterTurn_lenc (s : State) : s.afterTurn.lenc = s.lenc := by
  unfold State.afterTurn; split <;> rfl
@[simp] theorem State.afterTurn_rt (s : State) : s.afterTurn.rt = s.rt := by
  unfold State.afterTurn; split <;> rfl
@[simp] theorem State.afterTurn_patW (s : State) : s.afterTurn.patW = s.patW := by
  unfold State.afterTurn; split <;> rfl
@[simp] theorem State.afterTurn_patH (s : State) : s.afterTurn.patH = s.patH := by
  unfold State.afterTurn; split <;> rfl
@[simp] theorem State.afterTurn_buf0 (s : State) : s.afterTurn.buf0 = s.buf0 := by
  unfold State.afterTurn; split <;> rfl
@[simp] theorem State.afterTurn_buf1 (s : State) : s.afterTurn.buf1 = s.buf1 := by
  unfold State.afterTurn; split <;> rfl
@[simp] theorem State.afterTurn_chg (s : State) : s.afterTurn.chg = s.chg := by
  unfold State.afterTurn; split <;> rfl
@[simp] theorem State.afterTurn_txt (s : State) : s.afterTurn.txt = s.txt := by
  unfold State.afterTurn; split <;> rfl
@[simp] theorem State.afterTurn_pat (s : State) : s.afterTurn.pat = s.pat := by
  unfold State.afterTurn; split <;> rfl
@[simp] theorem State.afterTurn_refused (s : State) : s.afterTurn.refused = s.refused := by
  unfold State.afterTurn; split <;> rfl
@[simp] theorem State.afterTurn_host (s : State) : s.afterTurn.host = s.host := by
  unfold State.afterTurn; split <;> rfl
@[simp] theorem State.afterTurn_draws (s : State) : s.afterTurn.draws = s.draws := by
  unfold State.afterTurn; split <;> rfl

/-- The reads of a bank or a length that an error or fault entry leaves alone. -/
@[simp] theorem buf_faultEntry (s : State) (c : FaultCause) (info : Word) (sel : BufSel) :
    (faultEntry s c info).buf sel = s.buf sel := by
  cases sel <;> rfl
@[simp] theorem buf_errorEntry (s : State) (e : FormatError) (info : Word) (sel : BufSel) :
    (errorEntry s e info).buf sel = s.buf sel := by
  cases sel <;> rfl
@[simp] theorem buf_commit (s : State) (sel : BufSel) : (commit s).buf sel = s.buf sel := by
  cases sel <;> rfl
@[simp] theorem buf_setRes (s : State) (i : Fin 8) (v : Word) (sel : BufSel) :
    (s.setRes i v).buf sel = s.buf sel := by
  cases sel <;> rfl

end Sys2Proof.Machine
end

