-- ==== Sys2Proof/Laws/Ops.lean ====
section
/-! SUPPORT. One lemma per shared operation, saying once everything it can do. -/

namespace Sys2Proof.Machine

/-! ### Ends of a command -/

/-- The two ends of a command that fails. -/
theorem endStop_cases (s : State) (e : Stop) :
    (∃ c info, e = .error c info ∧ endStop s e = errorEntry s c info) ∨
      (∃ c info, e = .fault c info ∧ endStop s e = faultEntry s c info) := by
  cases e with
  | error c info => exact .inl ⟨c, info, rfl, rfl⟩
  | fault c info => exact .inr ⟨c, info, rfl, rfl⟩

/-- A command answers a next state on every path: the end its first failing check gives, or its staged writes. -/
theorem runCommand_eq_next (stop : State → Option Stop) (stage : State → State) (s t : State) :
    runCommand stop stage s = .next t ↔
      (∃ e, stop s = some e ∧ t = endStop s e) ∨ (stop s = none ∧ t = commit (stage s)) := by
  unfold runCommand
  cases stop s with
  | none => simp [eq_comm]
  | some e => simp [eq_comm]

theorem runCommand_of_none (stop : State → Option Stop) (stage : State → State) (s : State) (h : stop s = none) :
    runCommand stop stage s = .next (commit (stage s)) := by
  simp [runCommand, h]

theorem runCommand_of_some (stop : State → Option Stop) (stage : State → State) (s : State) (e : Stop)
    (h : stop s = some e) : runCommand stop stage s = .next (endStop s e) := by
  simp [runCommand, h]

/-! ### Operand checks -/

theorem reservedStop_eq_none (s : State) (fs : List (Fin 4 × Nat)) :
    reservedStop s fs = none ↔ ∀ f ∈ fs, s.argNat f.1 < 2 ^ f.2 := by
  induction fs with
  | nil => simp [reservedStop]
  | cons f fs ih =>
    obtain ⟨i, bits⟩ := f
    rw [reservedStop]
    split
    · next h => simp [ih, h]
    · next h => simp [h]

/-- The register the reserved check names is the first that does not fit its field. -/
theorem reservedStop_append (s : State) (before after : List (Fin 4 × Nat)) (i : Fin 4) (bits : Nat)
    (hb : ∀ f ∈ before, s.argNat f.1 < 2 ^ f.2) (hi : 2 ^ bits ≤ s.argNat i) :
    reservedStop s (before ++ (i, bits) :: after) = some (.fault .illegalOperand (wordOfNat i.val)) := by
  induction before with
  | nil => simp [reservedStop, Nat.not_lt.2 hi]
  | cons f fs ih =>
    obtain ⟨j, bits'⟩ := f
    have hj : s.argNat j < 2 ^ bits' := hb (j, bits') (by simp)
    simp only [List.cons_append, reservedStop, hj, if_true]
    exact ih fun g hg => hb g (List.mem_cons_of_mem _ hg)

theorem gridStop_eq_none (W H : Nat) : gridStop W H = none ↔ 1 ≤ W ∧ 1 ≤ H := by
  unfold gridStop
  split <;> simp <;> omega

theorem gridOperandStop_eq_none (s : State) (fs : List (Fin 4 × Nat)) :
    gridOperandStop s fs = none ↔ (∀ f ∈ fs, s.argNat f.1 < 2 ^ f.2) ∧ 1 ≤ s.argNat 0 ∧ 1 ≤ s.argNat 1 := by
  unfold gridOperandStop
  rw [← reservedStop_eq_none, ← gridStop_eq_none]
  cases reservedStop s fs <;> simp

theorem textStop_eq_none (s : State) :
    textStop s = none ↔ s.argNat 0 + s.argNat 1 ≤ s.params.txtCap ∧
      ∀ i, s.argNat 0 ≤ i → i < s.argNat 0 + s.argNat 1 → (s.txt.read i).isSome = true := by
  unfold textStop
  split
  · simp; omega
  · rw [← Memory.firstUnwritten_eq_none]
    cases s.txt.firstUnwritten (s.argNat 0) (s.argNat 1) <;> (simp; try omega)

/-- The text operand is the bytes that stand in TXT. -/
theorem text_of_written (s : State) (txt : List Byte) (hlen : s.argNat 1 = txt.length)
    (h : ∀ j, (hj : j < txt.length) → s.txt.read (s.argNat 0 + j) = some txt[j]) : s.text = txt := by
  rw [State.text, hlen]
  exact Memory.readMany_of_written s.txt (s.argNat 0) txt h

end Sys2Proof.Machine
end

