-- ==== Sys2Proof/Laws/PerInstr.lean ====
section
/-! SUPPORT. Statements about every instruction as syntax, one lemma per constructor. The family LegalWord says that the
word of a command meets all four conditions of 30_encoding.md R94. -/

namespace Sys2Proof.Laws.LegalWord

/-- The command word of `i` is legal (R94). -/
def Statement (i : Instr) : Prop := legalCommand (encode i) = true

theorem nbr : Statement .nbr := by unfold Statement; decide
theorem rcomp : Statement .rcomp := by unfold Statement; decide
theorem rquery : Statement .rquery := by unfold Statement; decide
theorem renc : Statement .renc := by unfold Statement; decide
theorem rdec : Statement .rdec := by unfold Statement; decide
theorem nenc : Statement .nenc := by unfold Statement; decide
theorem ndec : Statement .ndec := by unfold Statement; decide
theorem llook : Statement .llook := by unfold Statement; decide
theorem llogic : Statement .llogic := by unfold Statement; decide
theorem upd (mode : UpdMode) (sel : BufSel) : Statement (.upd mode sel) := by
  cases mode <;> cases sel <;> (unfold Statement; decide)
theorem pparse : Statement .pparse := by unfold Statement; decide
theorem pplace (sel : BufSel) : Statement (.pplace sel) := by
  cases sel <;> (unfold Statement; decide)
theorem pcenter : Statement .pcenter := by unfold Statement; decide

end Sys2Proof.Laws.LegalWord
end

