-- ==== Sys2Proof/Laws/Step.lean ====
section
/-! SUPPORT. What a command, a host access and a step can do, said once each. -/

namespace Sys2Proof.Machine

/-! ### Commands -/

/-- The staged writes of each command. -/
def stageOf : Instr → State → State
  | .nbr => nbrStage
  | .rcomp => rcompStage
  | .rquery => rqueryStage
  | .renc => rencStage
  | .rdec => rdecStage
  | .nenc => nencStage
  | .ndec => ndecStage
  | .llook => llookStage
  | .llogic => llogicStage
  | .upd mode sel => updStage mode sel
  | .pparse => pparseStage
  | .pplace sel => pplaceStage sel
  | .pcenter => pcenterStage

/-- The checks of each command. -/
def stopOf : Instr → State → Option Stop
  | .nbr => nbrStop
  | .rcomp => rcompStop
  | .rquery => rqueryStop
  | .renc => rencStop
  | .rdec => rdecStop
  | .nenc => nencStop
  | .ndec => ndecStop
  | .llook => llookStop
  | .llogic => llogicStop
  | .upd mode sel => updStop mode sel
  | .pparse => pparseStop
  | .pplace sel => pplaceStop sel
  | .pcenter => pcenterStop

/-- Every next state of a command is the end its first failing check gives, or its staged writes committed. -/
theorem exec_next (i : Instr) (s t : State) (h : exec i s = .next t) :
    (∃ e, stopOf i s = some e ∧ t = endStop s e) ∨ (stopOf i s = none ∧ t = commit (stageOf i s)) := by
  cases i with
  | pplace sel =>
    simp only [exec, execPplace] at h
    simp only [stopOf, stageOf]
    cases hs : pplaceStop sel s with
    | some e => rw [hs] at h; exact .inl ⟨e, rfl, by simpa using h.symm⟩
    | none =>
      rw [hs] at h
      simp only at h
      split at h
      · simp at h
      · exact .inr ⟨rfl, by simpa using h.symm⟩
  | _ => exact (runCommand_eq_next _ _ s t).1 h

/-- A command whose checks pass has its staged writes committed; PPLACE also needs its PAT cells written. -/
theorem exec_of_none (i : Instr) (s : State) (h : stopOf i s = none)
    (hp : ∀ sel, i = .pplace sel → s.pat.firstUnwritten 0 (s.patW.toNat * s.patH.toNat) = none) :
    exec i s = .next (commit (stageOf i s)) := by
  cases i with
  | pplace sel =>
    have h' : pplaceStop sel s = none := h
    simp [exec, execPplace, h', hp sel rfl, stageOf]
  | _ => exact runCommand_of_none _ _ s h

/-- A command whose check fails ends as that check says. -/
theorem exec_of_some (i : Instr) (s : State) (e : Stop) (h : stopOf i s = some e) :
    exec i s = .next (endStop s e) := by
  cases i with
  | pplace sel =>
    have h' : pplaceStop sel s = some e := h
    simp [exec, execPplace, h']
  | _ => exact runCommand_of_some _ _ s e h

/-! ### Host accesses -/

/-- A host write refuses, is ignored, faults during BUSY, issues, resets, or writes what it names. -/
theorem hostWrite_cases (s : State) (bits : Nat) (a : Addr) (v : Word) :
    (accessTarget s.params bits a = none ∧ hostWrite s bits a v = markRefused s) ∨
      hostWrite s bits a v = s ∨
      (s.status.busy = true ∧ hostWrite s bits a v = busyFault s a) ∨
      (s.status.fault = false ∧ s.status.busy = false ∧ hostWrite s bits a v = acceptCommand s v) ∨
      (v.getLsbD 0 = true ∧ accessTarget s.params bits a = some .ctrl ∧ hostWrite s bits a v = s.resetBlock) ∨
      (∃ t, s.status.busy = false ∧ accessTarget s.params bits a = some t ∧
        hostWrite s bits a v = writeTarget s t v) := by
  unfold hostWrite
  cases ht : accessTarget s.params bits a with
  | none => exact .inl ⟨rfl, rfl⟩
  | some t =>
    refine .inr ?_
    cases t with
    | ctrl =>
      by_cases hv : v.getLsbD 0 = true
      · exact .inr (.inr (.inr (.inl ⟨hv, rfl, if_pos hv⟩)))
      · exact .inl (if_neg hv)
    | cmd =>
      cases hf : s.status.fault <;> cases hb : s.status.busy <;> simp [writeAccess, issue, hb, hf]
    | _ =>
      cases hb : s.status.busy <;> simp [writeAccess, hb]

/-- A host read refuses, faults during BUSY, or changes nothing but the draw counter. -/
theorem hostRead_cases (s : State) (bits : Nat) (a : Addr) :
    (accessTarget s.params bits a = none ∧ hostRead s bits a = (markRefused s, none)) ∨
      (s.status.busy = true ∧ hostRead s bits a = ((busyFault s a).draw, some (Config.freeWord s.draws))) ∨
      (∃ t, accessTarget s.params bits a = some t ∧ hostRead s bits a = (s.draw, some (readTarget s t))) := by
  unfold hostRead
  cases ht : accessTarget s.params bits a with
  | none => exact .inl ⟨rfl, rfl⟩
  | some t =>
    refine .inr ?_
    by_cases h : s.status.busy = true ∧ t ≠ .status
    · exact .inl ⟨h.1, by simp [readAccess, h]⟩
    · exact .inr ⟨t, rfl, by simp [readAccess, h]⟩

/-! ### The addresses of targets -/

/-- In its slot, a target's address is its byte address (R62). -/
theorem toNat_addr_of_inSlot (t : Target) (h : t.inSlot = true) : t.addr.toNat = t.byteAddr := by
  have hlt : t.byteAddr < 2 ^ 24 := by
    unfold Target.inSlot at h
    unfold Target.byteAddr
    split <;> simp at h ⊢ <;> omega
  rw [Target.addr, if_pos h, BitVec.toNat_ofNat, Nat.mod_eq_of_lt hlt]

/-- Past its slot, a target's address names nothing, so that an access to it is refused (R66 c). -/
theorem accessTarget_addr_of_not_inSlot (p : Params) (t : Target) (bits : Nat) (hp : p.legal = true)
    (h : t.inSlot = false) : accessTarget p bits t.addr = none := by
  have hc : p.cellCap ≤ 2 ^ 24 := by
    simp only [Params.legal, Params.cellCapOk, Bool.and_eq_true, decide_eq_true_eq] at hp
    exact hp.1.1.1.2
  have hn : ¬ 0x1FFFFF < ceilDiv p.cellCap 32 := by unfold ceilDiv; omega
  have ht : targetAt p unmappedAddr.toNat = none := by
    simp [targetAt, unmappedAddr, windowAt, hn]
  have ha : t.addr = unmappedAddr := by simp [Target.addr, h]
  unfold accessTarget
  split
  · rw [ha, ht]
  · rfl

/-- The read of STATUS that `wait` makes reaches STATUS (R105). -/
theorem hostRead_status (s : State) :
    hostRead s 32 Target.status.addr =
      ((readAccess s .status Target.status.addr).1, some (readAccess s .status Target.status.addr).2) := rfl

/-! ### Steps -/

/-- A step is a block step, a host step, or nothing happens because neither agent has a step. -/
theorem step_cases (s : State) :
    (s.turn = some .block ∧ s.blockReady = true ∧ step s = blockStep s.afterTurn) ∨
      (s.turn = some .host ∧ s.hostReady = true ∧ step s = hostStep s.afterTurn) ∨
      (s.turn = none ∧ s.blockReady = false ∧ s.hostReady = false ∧ step s = noStep s) := by
  have key : step s = agentStep s := rfl
  rw [key, agentStep]
  cases hb : s.blockReady <;> cases hh : s.hostReady
  · simp [State.turn, hb, hh]
  · simp [State.turn, hb, hh]
  · simp [State.turn, hb, hh]
  · cases hc : s.sched.head?.getD .block <;> simp [State.turn, hb, hh, hc]

/-- The block step of a legal word is the meaning of its command. -/
theorem blockStep_of_decode (s : State) (i : Instr) (h : decode s.cmd = .ok i) : blockStep s = exec i s := by
  simp [blockStep, h]

end Sys2Proof.Machine
end

