-- ==== Sys2Proof/Machine/HostProgram.lean ====
section
/-! DEFINITION. Host programs (30_encoding.md R104 to R106): the pseudo-statements of R105 expand to lists of host
statements, and the tick of 70_reset_and_hazards.md R294. -/

namespace Sys2Proof.Machine

/-- `wr T, v` (R104). -/
def wrStmt (t : Target) (v : Word) : HostStmt := .wr 32 t.addr (.lit v)

/-- `rd T`, the result named `into` (R104). -/
def rdStmt (t : Target) (into : Option Nat) : HostStmt := .rd 32 t.addr into

/-- `cmd M`: a host write of the command word to CMD (R104, R106). -/
def cmdStmt (i : Instr) : HostStmt := wrStmt .cmd (encode i)

/-- `issue M` = `cmd M` then `wait` (R105). -/
def issueProg (i : Instr) : List HostStmt := [cmdStmt i, .wait]

/-- `args a0[, a1[, a2[, a3]]]` (R105); values past the fourth have no register. -/
def argsProg (vs : List Word) : List HostStmt :=
  ((List.zip [0, 1, 2, 3] vs).map fun c => wrStmt (.arg c.1) c.2)

/-- The word that packs bytes 4j .. 4j+3 of a string little-endian, 0x00 past its end (R105, 20_memory.md R67). -/
def packBytes (txt : List Byte) (j : Nat) : Word :=
  wordOfBits fun b => (txt.getD (4 * j + b / 8) 0).getLsbD (b % 8)

/-- `txt o, "s"`, o a multiple of 4 (R105). -/
def txtProg (o : Nat) (txt : List Byte) : List HostStmt :=
  (List.range (ceilDiv txt.length 4)).map fun j => wrStmt (.txt (o / 4 + j)) (packBytes txt j)

/-- BANK of R104: the five banks that have a window. -/
inductive WindowBank where
  | txt
  | pat
  | cells (b : CellBank)
  deriving DecidableEq, Repr

/-- `BANK[w]` (R104). -/
def bankWord : WindowBank → Nat → Target
  | .txt, w => .txt w
  | .pat, w => .pat w
  | .cells b, w => .cells b w

/-- `fill B, n, v` (R105), for each of the five banks; the writes of a `fill PAT` are ignored (20_memory.md R65). -/
def fillProg (b : WindowBank) (n : Nat) (v : Word) : List HostStmt :=
  (List.range n).map fun w => wrStmt (bankWord b w) v

/-- The change-bitset derivation for `n` cells (R294): CHG[w] = BUF0[w] xor BUF1[w] for every word. -/
def deriveProg (n : Nat) : List HostStmt :=
  (List.range (ceilDiv n 32)).flatMap fun w =>
    [rdStmt (.cells (.buf .s0) w) (some 0), rdStmt (.cells (.buf .s1) w) (some 1),
      .wr 32 (Target.cells .chg w).addr (.xor 0 1)]

/-- `tick M` (R105, R294) for a grid of `n` cells: issue, the STATUS read of R294's check, the derivation. The role swap
is the host's choice of SEL in its next UPD and moves no data (R295). What a host does when the check fails is not
given (log entry 18). -/
def tickProg (mode : UpdMode) (sel : BufSel) (n : Nat) : List HostStmt :=
  issueProg (.upd mode sel) ++ rdStmt .status none :: deriveProg n

end Sys2Proof.Machine
end

