-- ==== Sys2Proof/Tests/Slice0.lean ====
section
/-! SUPPORT. Tests. Expected results are those of spec/95_test_vectors.md, of the tables of spec/30_encoding.md or worked
out from a rule by hand, never this model's own answers. Three parts: words and ill-formed terms, single steps, and for
every statement of Certificates/Slice0/Obligations.lean that has hypotheses, states and operands that meet them. -/

namespace Sys2Proof.Tests

open Sys2Proof.Machine Sys2Proof.Claims

/-! ## Small states -/

/-- The state after reset with operands. -/
def args (a b c d : Word) : State := { State.reset with arg := #v[a, b, c, d] }

/-- A bank whose first `n` cells are written, those listed being 1. -/
def bank (n : Nat) (on : List Nat) : Memory Bool := (List.range n).map fun i => (i, on.contains i)

/-- TXT holding a text from offset 0. -/
def text (txt : List Byte) : Memory Byte := numberFrom 0 txt

/-- The state after reset with a text operand at offset 0. -/
def withText (txt : List Byte) : State := { args 0 (BitVec.ofNat 32 txt.length) 0 0 with txt := text txt }

/-- "B3/S23" -/
def conwayText : List Byte := [0x42, 0x33, 0x2F, 0x53, 0x32, 0x33]

/-- ".O.\n..O\nOOO" -/
def gliderText : List Byte := [0x2E, 0x4F, 0x2E, 0x0A, 0x2E, 0x2E, 0x4F, 0x0A, 0x4F, 0x4F, 0x4F]

/-- A state with a 3×3 pattern, the glider, and an 8×8 BUF0 of dead cells (context G). -/
def withGlider (a b c d : Word) : State :=
  { args a b c d with
    pat := bank 9 [1, 5, 6, 7, 8], patW := 3, patH := 3, len0 := 64, buf0 := bank 64 []
    status := { State.reset.status with patValid := true } }

/-- A state with the table of "B3/S23". -/
def withRule (a b : Word) : State :=
  { args a b 0 0 with rt := 0x000E0#18, status := { State.reset.status with rtValid := true } }

/-- A W×H update with world BUF0, target BUF1 and `n` = W·H cells. -/
def update (w h : Word) (n : Nat) (world target changes : List Nat) : State :=
  { withRule w h with
    len0 := BitVec.ofNat 32 n, len1 := BitVec.ofNat 32 n, lenc := BitVec.ofNat 32 n
    buf0 := bank n world, buf1 := bank n target, chg := bank n changes }

/-- `s` with a pending command word. -/
def pending (s : State) (w : Word) : State := { s with cmd := w, status := { s.status with busy := true } }

/-- `s` halted by an illegal command. -/
def halted (s : State) : State := faulted s .illegalCommand 0

/-- The next state, where there is one. -/
def next? (o : Host.Outcome State Fault Refusal) : Option State :=
  match o with
  | .next s => some s
  | .fault _ => none
  | .refused _ => none

/-- RES registers, STATUS and FINFO after a command. -/
def results (o : Host.Outcome State Fault Refusal) : Option (List Word × Word × Word) :=
  (next? o).map fun s => (s.res.toList, s.status.toWord, s.finfo)

/-! ## Words (R106) and ill-formed terms -/

theorem test_decode_words_without_fields :
    decode 0x00000001 = .ok .nbr ∧ decode 0x00000010 = .ok .rcomp ∧ decode 0x00000011 = .ok .rquery ∧
      decode 0x00000012 = .ok .renc ∧ decode 0x00000013 = .ok .rdec ∧ decode 0x00000020 = .ok .nenc ∧
      decode 0x00000021 = .ok .ndec ∧ decode 0x00000030 = .ok .llook ∧ decode 0x00000031 = .ok .llogic ∧
      decode 0x00000050 = .ok .pparse ∧ decode 0x00000052 = .ok .pcenter := by decide

/-- Bit by bit: OPC 0100 0000, MODE bit 8, SEL bit 9 (R90). -/
theorem test_decode_update_words :
    decode 0b0001000000#32 = .ok (.upd .rt .s0) ∧ decode 0b0101000000#32 = .ok (.upd .lut .s0) ∧
      decode 0b1001000000#32 = .ok (.upd .rt .s1) ∧ decode 0b1101000000#32 = .ok (.upd .lut .s1) ∧
      decode 0b0001010001#32 = .ok (.pplace .s0) ∧ decode 0b1001010001#32 = .ok (.pplace .s1) := by decide

theorem test_encode_fields : encode (.upd .lut .s1) = 0x00000340 ∧ encode (.pplace .s1) = 0x00000251 := by decide

theorem test_table_word : decodeTableWord 32 0x00000240 = some (.upd .rt .s1) ∧ decodeTableWord 32 0x00000002 = none := by
  decide

/-- X-1, X-2: an opcode R91 does not list. -/
theorem test_wf_opcode : opcodeKnown 0x00000000 = false ∧ opcodeKnown 0x00000014 = false ∧
    decode 0x00000014 = .error .unknownOpcode := by decide

/-- X-6, X-7, X-10: reserved bits. -/
theorem test_wf_reserved : reservedBitsZero 0x00000400 = false ∧ reservedBitsZero 0x80000001 = false ∧
    decode 0x00001240 = .error .reservedBits := by decide

/-- MODE = 1 on NBR (R94). -/
theorem test_wf_mode : modeAllowed 0x00000101 = false ∧ decode 0x00000101 = .error .modeNotDefined := by decide

/-- X-8, X-9: MODE on PPLACE and PCENTER. -/
theorem test_wf_mode_pattern : modeAllowed 0x00000351 = false ∧ decode 0x00000152 = .error .modeNotDefined := by decide

/-- X-4: SEL where it is not defined. -/
theorem test_wf_sel : selAllowed 0x00000201 = false ∧ decode 0x00000201 = .error .selNotDefined ∧
    legalCommand 0x00000201 = false := by decide

/-- R66 (a) and (b). -/
theorem test_wf_access : accessWidthOk 8 = false ∧ accessAligned 0x000012#24 = false := by decide

/-- R7: each parameter just outside its range, and markers that are line separators or equal. -/
theorem test_wf_params :
    ({ Params.reference with cellCap := 8 } : Params).cellCapOk = false ∧
      ({ Params.reference with txtCap := 2 ^ 20 + 1 } : Params).txtCapOk = false ∧
      ({ Params.reference with patCap := 0 } : Params).patCapOk = false ∧
      ({ Params.reference with aliveMarker := 0x0D } : Params).markersOk = false ∧
      ({ Params.reference with commentMarker := 0x4F } : Params).legal = false := by decide

/-! ## Single steps -/

/-- N-3: bottom-right corner of a 5×4 grid. -/
theorem test_nbr_corner : results (exec .nbr (args 5 4 4 3)) =
    some ([0x20003, 0x20004, 0x20000, 0x30000, 0x0, 0x4, 0x3, 0x30003], 0, 0) := by decide +kernel

/-- N-14: ILLEGAL_OPERAND comes before GRID_ZERO. -/
theorem test_nbr_reserved : results (exec .nbr (args 0 3 0 0x10000)) = some ([0, 0, 0, 0, 0, 0, 0, 0], 0x8104, 3) := by
  decide +kernel

/-- R-1. -/
theorem test_rcomp_conway : (next? (exec .rcomp (withText conwayText))).map (fun s => (readTarget s .rtbl, s.status.toWord)) =
    some (0x000000E0, 0x0008) := by decide +kernel

/-- R-17: "B3/S23/", the second separator is no digit. -/
theorem test_rcomp_second_separator :
    results (exec .rcomp (withText (conwayText ++ [0x2F]))) = some ([0, 0, 0, 0, 0, 0, 0, 0], 0x0402, 6) := by
  decide +kernel

/-- Q-3 and Q-10: survival; and no masking of the count. -/
theorem test_rquery : results (exec .rquery (withRule 1 3)) = some ([1, 0, 0, 0, 0, 0, 0, 0], 0x0008, 0) ∧
    results (exec .rquery (withRule 1 16)) = some ([0, 0, 0, 0, 0, 0, 0, 0], 0x880C, 0x10) := by decide +kernel

/-- E-6, E-9: masked, not clamped. -/
theorem test_renc : results (exec .renc (args 0 16 0 0)) = some ([0, 0, 0, 0, 0, 0, 0, 0], 0, 0) ∧
    results (exec .renc (args 1 0xFFFFFFFF 0 0)) = some ([0x1F, 0, 0, 0, 0, 0, 0, 0], 0, 0) := by decide +kernel

/-- E-15, E-17. -/
theorem test_rdec : results (exec .rdec (args 18 0 0 0)) = some ([0, 9, 0, 0, 0, 0, 0, 0], 0, 0) ∧
    results (exec .rdec (args 32 0 0 0)) = some ([0, 0, 0, 0, 0, 0, 0, 0], 0x8104, 0) := by decide +kernel

/-- K-1, K-7. -/
theorem test_nenc : results (exec .nenc (args 8 0x83 0 0)) = some ([0x83, 0, 0, 0, 0, 0, 0, 0], 0, 0) ∧
    results (exec .nenc (args 0xFFFFFFFF 0x100 0 0)) = some ([0, 0, 0, 0, 0, 0, 0, 0], 0x0502, 0xFFFFFFFF) := by
  decide +kernel

/-- K-9. -/
theorem test_ndec : results (exec .ndec (args 0x18 0 0 0)) = some ([8, 0x18, 0, 0, 0, 0, 0, 0], 0, 0) := by decide +kernel

/-- F-1, F-2. -/
theorem test_llook : results (exec .llook (args 0 0x83 0 0)) = some ([1, 0, 0, 0, 0, 0, 0, 0], 0, 0) ∧
    results (exec .llook (args 1 0xFF 0 0)) = some ([0, 0, 0, 0, 0, 0, 0, 0], 0, 0) := by decide +kernel

/-- F-6, F-12. -/
theorem test_llogic : results (exec .llogic (args 1 0x11 0 0)) = some ([1, 0, 0, 0, 0, 0, 0, 0], 0, 0) ∧
    results (exec .llogic (args 0 0x100 0 0)) = some ([0, 0, 0, 0, 0, 0, 0, 0], 0x8104, 1) := by decide +kernel

/-- U-9: a 4×1 world [1,1,0,0] with an inaccurate CHG. -/
theorem test_upd_rule_table : (next? (exec (.upd .rt .s0) (update 4 1 4 [0, 1] [] [0]))).map
    (fun s => (s.buf1, s.res[0], s.res[1])) = some (bank 4 [3], 1, 2) := by decide +kernel

/-- U-8: a block in a 4×4 world is a still life. -/
theorem test_upd_lut : (next? (exec (.upd .lut .s0) (update 4 4 16 [5, 6, 9, 10] [] (List.range 16)))).map
    (fun s => (s.buf1, s.res[0], s.res[1])) = some (bank 16 [5, 6, 9, 10], 16, 0) := by decide +kernel

/-- P-1. -/
theorem test_pparse : (next? (exec .pparse (withText gliderText))).map
    (fun s => (s.pat, s.patW, s.patH, s.status.toWord)) = some (bank 9 [1, 5, 6, 7, 8], 3, 3, 0x0010) := by decide +kernel

/-- P-8: "OO\nO". -/
theorem test_pparse_row_length :
    results (exec .pparse (withText [0x4F, 0x4F, 0x0A, 0x4F])) = some ([0, 0, 0, 0, 0, 0, 0, 0], 0x0602, 3) := by
  decide +kernel

/-- C-10. -/
theorem test_pplace : (next? (exec (.pplace .s0) (withGlider 8 8 2 2))).map (fun s => s.buf0) =
    some (bank 64 [19, 28, 34, 35, 36]) := by decide +kernel

/-- C-14. -/
theorem test_pplace_bounds : results (exec (.pplace .s0) (withGlider 8 8 0 6)) =
    some ([0, 0, 0, 0, 0, 0, 0, 0], 0x8C14, 2) := by decide +kernel

/-- C-3, C-5. -/
theorem test_pcenter : results (exec .pcenter (withGlider 4 6 0 0)) = some ([0, 1, 0, 0, 0, 0, 0, 0], 0x0010, 0) ∧
    results (exec .pcenter (withGlider 2 8 0 0)) = some ([0, 0, 0, 0, 0, 0, 0, 0], 0x8D14, 1) := by decide +kernel

/-- X-3: a step of an illegal word. -/
theorem test_step_illegal : results (step (State.reset.withFetchWord 32 0x00000141)) =
    some ([0, 0, 0, 0, 0, 0, 0, 0], 0x8004, 0x00000141) := by decide +kernel

/-- X-12: a host write to ARG0 before the block step. -/
theorem test_host_busy : (next? (step (
    { pending State.reset 1 with host := { prog := [wrStmt (.arg 0) 5], names := [] }, sched := [.host] }))).map
    (fun s => (s.status.toWord, s.finfo, s.arg[0])) = some (0x8E04, 0x10, 0) := by decide +kernel

/-- R67: CHG word 1 is cells 32 to 63, least significant bit first. -/
theorem test_window_write : (hostWrite State.reset 32 0x800004#24 0x80000001).chg.read 32 = some true ∧
    (hostWrite State.reset 32 0x800004#24 0x80000001).chg.read 33 = some false ∧
    (hostWrite State.reset 32 0x800004#24 0x80000001).chg.read 63 = some true ∧
    (hostWrite State.reset 32 0x800004#24 0x80000001).chg.read 64 = none := by decide +kernel

/-- R105: `txt 0, ".O.\n..O\nOOO"` writes the words L1-4 of 95_test_vectors.md gives. -/
theorem test_txt_expansion : txtProg 0 gliderText =
    [.wr 32 0x100000#24 (.lit 0x0A2E4F2E), .wr 32 0x100004#24 (.lit 0x0A4F2E2E), .wr 32 0x100008#24 (.lit 0x004F4F4F)] := by
  decide +kernel

/-- R105, R62: `fill TXT, 2, v`, `fill PAT, 1, v` and `fill CHG, 1, v`. -/
theorem test_fill_expansion :
    fillProg .txt 2 7 = [.wr 32 0x100000#24 (.lit 7), .wr 32 0x100004#24 (.lit 7)] ∧
      fillProg .pat 1 7 = [.wr 32 0x200000#24 (.lit 7)] ∧
      fillProg (.cells .chg) 1 7 = [.wr 32 0x800000#24 (.lit 7)] := by decide +kernel

/-- R66 (c), log entry 22: the first window words past the slots of TXT and CHG are refused. -/
theorem test_word_past_slot : accessTarget Params.reference 32 (Target.txt 0x40000).addr = none ∧
    accessTarget Params.reference 32 (Target.cells .chg 0x200000).addr = none := by decide +kernel

/-! ## States and operands that meet the hypotheses of each statement

The claim a witness belongs to is in its name; a statement with several clauses has a witness for each, at the ends of
ranges where the clause has one. -/

/-- IllegalWordFaults, one word for each of the four conditions. -/
theorem witness_IllegalWordFaults :
    (pending State.reset 0x53).turn = some .block ∧
      (0x53#32).toNat % 256 ∉ [0x01, 0x10, 0x11, 0x12, 0x13, 0x20, 0x21, 0x30, 0x31, 0x40, 0x50, 0x51, 0x52] ∧
      (pending State.reset 0x401).turn = some .block ∧ 1024 ≤ (0x401#32).toNat ∧
      (pending State.reset 0x151).turn = some .block ∧
      ((0x151#32).getLsbD 8 = true ∧ (0x151#32).toNat % 256 ≠ 0x40) ∧
      (pending State.reset 0x250).turn = some .block ∧
      ((0x250#32).getLsbD 9 = true ∧ (0x250#32).toNat % 256 ≠ 0x40 ∧ (0x250#32).toNat % 256 ≠ 0x51) := by
  decide +kernel

/-- A state with a pending NBR, host statements left and choices left. -/
def contended (sched : List Agent) : State :=
  { pending (args 3 3 1 1) 1 with host := { prog := [.wait], names := [] }, sched := sched }

/-- StepRunsDecodedCommand, the block's clause: with no host statement left, and with one. -/
theorem witness_StepRunsDecodedCommand :
    ((pending State.reset 1).status.busy = true ∧ (pending State.reset 1).status.fault = false ∧
      (pending State.reset 1).host.prog = [] ∧ decode (pending State.reset 1).cmd = .ok .nbr) ∧
    ((contended [.block]).status.busy = true ∧ (contended [.block]).status.fault = false ∧
      (contended [.block]).sched.head? ≠ some .host ∧ decode (contended [.block]).cmd = .ok .nbr) := by decide

/-- A halted state whose host has one statement left. -/
def haltedWith (st : HostStmt) : State := { halted State.reset with host := { prog := [st], names := [] } }

/-- A busy state whose host is to move: it has `st` as its next statement and the next scheduling choice. -/
def hostTurnWith (st : HostStmt) : State :=
  { pending (args 3 3 1 1) 1 with host := { prog := [st], names := [(0, 5)] }, sched := [.host] }

/-- StepRunsDecodedCommand, the host's writes: during BUSY with a choice, of a named value; idle; of an unset name. -/
theorem witness_StepRunsDecodedCommand_write :
    (HostMoves (hostTurnWith (.wr 32 0x10#24 (.name 0))) (.wr 32 0x10#24 (.name 0)) [] ∧
      (HostVal.name 0).eval (hostTurnWith .wait).host.names = .ok 5) ∧
    (HostMoves { State.reset with host := { prog := [wrStmt .cmd 1, .wait], names := [] } } (wrStmt .cmd 1) [.wait] ∧
      (HostVal.lit 1).eval [] = .ok 1) ∧
    (HostVal.xor 0 1).eval (hostTurnWith .wait).host.names = .error 1 := by
  refine ⟨⟨⟨rfl, ?_⟩, ?_⟩, ⟨⟨rfl, ?_⟩, ?_⟩, ?_⟩ <;> decide

/-- StepRunsDecodedCommand, the host's reads: granted, and refused, in a halted state. -/
theorem witness_StepRunsDecodedCommand_read :
    (HostMoves (haltedWith (rdStmt .finfo (some 3))) (rdStmt .finfo (some 3)) [] ∧
      (hostRead (hostTurn (haltedWith (rdStmt .finfo (some 3))) []) 32 0x0C#24).2 = some 0) ∧
    (HostMoves (haltedWith (.rd 16 0x0C#24 none)) (.rd 16 0x0C#24 none) [] ∧
      (hostRead (hostTurn (haltedWith (.rd 16 0x0C#24 none)) []) 16 0x0C#24).2 = none) := by
  refine ⟨⟨⟨rfl, ?_⟩, ?_⟩, ⟨rfl, ?_⟩, ?_⟩ <;> decide +kernel

/-- StepRunsDecodedCommand, the host's wait: BUSY reads 1, and reads 0. -/
theorem witness_StepRunsDecodedCommand_wait :
    (HostMoves (hostTurnWith .wait) .wait [] ∧
      (hostRead (hostTurn (hostTurnWith .wait) [.wait]) 32 0x000004#24).2 = some 1) ∧
    (HostMoves (haltedWith .wait) .wait [] ∧
      (hostRead (hostTurn (haltedWith .wait) [.wait]) 32 0x000004#24).2 = some 0x8004) := by
  refine ⟨⟨⟨rfl, ?_⟩, ?_⟩, ⟨rfl, ?_⟩, ?_⟩ <;> decide +kernel

theorem witness_IdleKeepsState : State.reset.status.busy = false ∧ State.reset.status.fault = false ∧
    State.reset.host.prog = [] := by decide

theorem witness_HaltedStops : (halted State.reset).status.fault = true ∧ (halted State.reset).host.prog = [] := by decide

/-- FaultSticksUntilReset: after a read, and after the CTRL write that resets. -/
theorem witness_FaultSticksUntilReset :
    ((haltedWith (rdStmt .finfo none)).status.fault = true ∧ (haltedWith (rdStmt .finfo none)).status.busy = false ∧
      (next? (step (haltedWith (rdStmt .finfo none)))).isSome = true) ∧
    ((haltedWith (wrStmt .ctrl 1)).status.fault = true ∧ (haltedWith (wrStmt .ctrl 1)).status.busy = false ∧
      (next? (step (haltedWith (wrStmt .ctrl 1)))).map (fun t => t.status.fault) = some false) := by decide +kernel

/-- EveryCommandEndsOneWay: a next state by each of the three ways. -/
theorem witness_EveryCommandEndsOneWay :
    (next? (exec .ndec (args 0x18 0 0 0))).map (fun t => (t.status.err, t.status.fault)) = some (false, false) ∧
      (next? (exec .nenc (args 7 0 0 0))).map (fun t => (t.status.err, t.status.fault)) = some (true, false) ∧
      (next? (exec .rdec (args 32 0 0 0))).map (fun t => (t.status.err, t.status.fault)) = some (false, true) := by
  decide +kernel

/-- CommandWritesOnlyItsState: a command that is no RCOMP and no PPARSE, for the buffer it only reads. -/
theorem witness_CommandWritesOnlyItsState :
    (next? (exec (.upd .lut .s0) (update 4 1 4 [0, 1] [] [0]))).isSome = true ∧
      Instr.upd .lut .s0 ≠ .rcomp ∧ Instr.upd .lut .s0 ≠ .pparse ∧ Instr.upd .lut .s0 ≠ .pplace .s0 ∧
      (∀ mode, Instr.upd .lut .s0 ≠ .upd mode (BufSel.s0).other) := by
  refine ⟨by decide +kernel, by decide, by decide, by decide, fun mode => ?_⟩
  cases mode <;> decide

/-- UnnamedResultsKeepValues: a register RDEC does not name; and a fault. -/
theorem witness_UnnamedResultsKeepValues :
    ((next? (exec .rdec (args 31 0 0 0))).isSome = true ∧ (2 : Fin 8) ∉ namedRes .rdec) ∧
      ((args 32 0 0 0).status.err = false ∧ (args 32 0 0 0).status.fault = false ∧
        (next? (exec .rdec (args 32 0 0 0))).map (fun t => t.status.fault) = some true) := by decide +kernel

/-- WaitLetsBlockRun: with no STATUS read before the block, and with three. -/
theorem witness_WaitLetsBlockRun :
    ((contended []).status.busy = true ∧ (contended []).status.fault = false ∧
      (contended []).host.prog = .wait :: [] ∧ (contended []).sched = List.replicate 0 .host) ∧
    ((contended [.host, .host, .host]).status.busy = true ∧ (contended [.host, .host, .host]).status.fault = false ∧
      (contended [.host, .host, .host]).host.prog = .wait :: [] ∧
      (contended [.host, .host, .host]).sched = List.replicate 3 .host) := by decide

/-- A state with a pattern, a world and a pending PPLACE meets the invariant. -/
theorem inv_withGlider : (pending (withGlider 8 8 5 5) 0x51).Inv where
  params := by decide
  banks :=
    { buf0 := by decide +kernel, buf1 := by decide, chg := by decide, txt := by decide, pat := by decide +kernel
      names := by decide }
  flags := ⟨rfl, rfl, rfl⟩
  tables := { rt := by decide, noPat := by decide, pat := by decide +kernel }

theorem witness_EveryStepKeepsInv :
    (pending (withGlider 8 8 5 5) 0x51).Inv ∧ (next? (step (pending (withGlider 8 8 5 5) 0x51))).isSome = true :=
  ⟨inv_withGlider, by decide +kernel⟩

theorem witness_NoReadOfUnwrittenPattern : (pending (withGlider 8 8 5 5) 0x51).Inv := inv_withGlider

/-- RefusedMarkStays: an access without a meaning, and a step of a state that has the mark. -/
theorem witness_RefusedMarkStays :
    accessTarget State.reset.params 32 0x000064#24 = none ∧
      (markRefused (pending State.reset 1)).refused = true ∧
      (next? (step (markRefused (pending State.reset 1)))).isSome = true := by decide +kernel

theorem witness_CapacitiesAreConstant :
    (next? (step (pending State.reset 1))).isSome = true ∧ State.reset.status.busy = false := by decide +kernel

theorem witness_CtrlStrobeResets : (0xFFFFFFFF#32).getLsbD 0 = true ∧ (0xFFFFFFFE#32).getLsbD 0 = false ∧
    State.reset.status.busy = false := by decide

theorem witness_PowerOnState : 0x54 % 4 = 0 ∧ 0x54 < 0x58 := by decide

/-- IssueRule: a halted state, a busy one, an idle one with an illegal word. -/
theorem witness_IssueRule :
    (halted State.reset).status.fault = true ∧
      ((pending State.reset 1).status.fault = false ∧ (pending State.reset 1).status.busy = true) ∧
      (State.reset.status.fault = false ∧ State.reset.status.busy = false ∧ legalCommand 0x00000053 = false) := by decide

/-- BusyAccessFaults: a write, a read, a STATUS read, a refused access, each while BUSY = 1. -/
theorem witness_BusyAccessFaults :
    ((pending State.reset 1).status.busy = true ∧ (pending State.reset 1).status.fault = false) ∧
      (accessTarget State.reset.params 32 0x000010#24 = some (.arg 0) ∧ Target.arg 0 ≠ .ctrl) ∧
      (accessTarget State.reset.params 32 0x000008#24 = some .ctrl ∧ Target.ctrl ≠ .status) ∧
      accessTarget State.reset.params 32 0x000004#24 = some .status ∧
      accessTarget State.reset.params 16 0x000004#24 = none := by decide

/-- AddressMap: the last word of each window. -/
theorem witness_AddressMap :
    Params.reference.legal = true ∧ 1023 < (Params.reference.txtCap + 3) / 4 ∧ 127 < (Params.reference.patCap + 31) / 32 ∧
      127 < (Params.reference.cellCap + 31) / 32 := by decide

/-- AddressMap: unlisted addresses, the first word of every gap. -/
theorem witness_AddressMap_unlisted :
    (∀ a ∈ [0x000064, 0x101000, 0x200200], Unlisted Params.reference a) ∧
      ∀ a ∈ [0x400200, 0x600200, 0x800200], Unlisted Params.reference a := by decide

/-- The largest parameters, at which every window fills its slot, and the smallest. -/
theorem witness_AddressMap_ends :
    ({ Params.reference with cellCap := 2 ^ 24, txtCap := 2 ^ 20, patCap := 2 ^ 24 } : Params).legal = true ∧
      ({ Params.reference with cellCap := 9, txtCap := 1, patCap := 1 } : Params).legal = true := by decide

theorem witness_RefusedAccessOnlyMarks :
    State.reset.status.busy = false ∧ 16 ≠ 32 ∧ (0x000012#24).toNat % 4 ≠ 0 ∧ State.reset.params.legal = true ∧
      Unlisted State.reset.params (0xFFFFFC#24).toNat := by decide

theorem witness_ReadOnlyWritesIgnored : State.reset.params.legal = true ∧ State.reset.status.busy = false ∧
    0x60 ∈ readOnlyAddrs ∧ 127 < (State.reset.params.patCap + 31) / 32 := by decide

theorem witness_RegisterWritesStick : State.reset.status.busy = false ∧ (halted State.reset).status.busy = false := by
  decide

/-- Windows whose last word is cut by the capacity: cells 0 to 8, and byte 0. -/
def smallBanks : State :=
  { State.reset with params := { Params.reference with cellCap := 9, txtCap := 1, patCap := 1 } }

theorem witness_BitWindowWrite : (State.reset.params.legal = true ∧ State.reset.status.busy = false ∧
      127 < (State.reset.params.cellCap + 31) / 32) ∧
    (smallBanks.params.legal = true ∧ smallBanks.status.busy = false ∧ 0 < (smallBanks.params.cellCap + 31) / 32) := by
  decide

theorem witness_TextWindowWrite : (State.reset.params.legal = true ∧ State.reset.status.busy = false ∧
      1023 < (State.reset.params.txtCap + 3) / 4) ∧
    (smallBanks.params.legal = true ∧ smallBanks.status.busy = false ∧ 0 < (smallBanks.params.txtCap + 3) / 4) := by
  decide

/-- WindowReads: the three windows, and a written TXT byte. -/
theorem witness_WindowReads :
    (smallBanks.params.legal = true ∧ smallBanks.status.busy = false ∧ 0 < (smallBanks.params.cellCap + 31) / 32 ∧
      0 < (smallBanks.params.patCap + 31) / 32 ∧ 0 < (smallBanks.params.txtCap + 3) / 4) ∧
    ((withText conwayText).params.legal = true ∧ (withText conwayText).status.busy = false ∧
      1 < ((withText conwayText).params.txtCap + 3) / 4 ∧ 4 * 1 + 1 < (withText conwayText).params.txtCap ∧
      (withText conwayText).txt.read (4 * 1 + 1) = some 0x33) := by decide

theorem witness_StatusWordLayout : (halted State.reset).status.busy = false ∧ 5 ≤ 7 ∧ 7 < 8 ∧ 16 ≤ 31 := by decide

/-- ReservedOperandBits: the last of four fields, with the others full; a one-bit field; the two ends of NENC. -/
theorem witness_ReservedOperandBits :
    (operandFields (.pplace .s1) = [(0, 16), (1, 16), (2, 16)] ++ (3, 16) :: [] ∧
      (∀ f ∈ [((0 : Fin 4), 16), (1, 16), (2, 16)], (args 0xFFFF 0xFFFF 0xFFFF 0x10000).argNat f.1 < 2 ^ f.2) ∧
      2 ^ 16 ≤ (args 0xFFFF 0xFFFF 0xFFFF 0x10000).argNat 3) ∧
    (operandFields .rquery = [] ++ (0, 1) :: [(1, 32)] ∧ 2 ^ 1 ≤ (args 2 0 0 0).argNat 0) ∧
    ((args 9 0 0 0).argNat 0 ≠ 8 ∧ (args 8 0x100 0 0).argNat 0 = 8 ∧ 256 ≤ (args 8 0x100 0 0).argNat 1) := by decide

theorem witness_ZeroDimensionFaults :
    (takesGrid .nbr = true ∧ FieldsFit .nbr (args 0 3 0 0) ∧ (args 0 3 0 0).argNat 0 = 0) ∧
      (takesGrid .pcenter = true ∧ FieldsFit .pcenter (args 0xFFFF 0 0 0) ∧ (args 0xFFFF 0 0 0).argNat 1 = 0) ∧
      takesGrid (.upd .rt .s0) = true ∧ takesGrid (.pplace .s0) = true := by decide

/-- TXT with its first four bytes written, and six asked for (R-27). -/
def shortText : State := { args 0 6 0 0 with txt := text [0x42, 0x33, 0, 0] }

/-- TextOperandFaults: R-26 (one byte past TXT_CAP); R-27 (byte 4 unwritten). -/
theorem witness_TextOperandFaults :
    (args 4090 7 0 0).params.txtCap < (args 4090 7 0 0).argNat 0 + (args 4090 7 0 0).argNat 1 ∧
      (shortText.argNat 0 + shortText.argNat 1 ≤ shortText.params.txtCap ∧ shortText.argNat 0 ≤ 4 ∧
        4 < shortText.argNat 0 + shortText.argNat 1 ∧ shortText.txt.read 4 = none ∧
        ∀ h, h < 4 → (shortText.txt.read h).isSome = true) := by decide

/-- NbrReturnsNeighbors: the largest grid with a position outside it; a reserved bit of ARG2; a zero width. -/
theorem witness_NbrReturnsNeighbors :
    (FieldsFit .nbr (args 65535 65535 65535 0) ∧ 1 ≤ (args 65535 65535 65535 0).argNat 0 ∧
      1 ≤ (args 65535 65535 65535 0).argNat 1) ∧
    ((∀ i, i < (2 : Fin 4) → (args 3 3 0x10000 0).argNat i < 65536) ∧ 65536 ≤ (args 3 3 0x10000 0).argNat 2) ∧
    (FieldsFit .nbr (args 0 3 0 0) ∧ (args 0 3 0 0).argNat 0 = 0) := by decide

theorem witness_NeighborIndexFormula : 1 ≤ 1 ∧ 1 ≤ 3 ∧ 2 < 1 * 3 := by decide

theorem witness_NeighborsDistinct : 3 ≤ 3 ∧ 3 ≤ 3 ∧ 8 < 3 * 3 ∧ (0 : Fin 8) ≠ 7 := by decide

theorem witness_NeighborSymmetry : 1 ≤ 1 ∧ 1 ≤ 1 ∧ 0 < 1 * 1 := by decide

/-- RcompCompiles: "B3/S23" and the digits at both ends of the range, "b0/s8". -/
theorem witness_RcompCompiles :
    ((∀ d ∈ [(0x33 : Byte)], RuleDigit d) ∧ (∀ d ∈ [(0x32 : Byte), 0x33], RuleDigit d) ∧
      TextIs (withText conwayText) ((0x42 : Byte) :: [0x33] ++ 0x2F :: 0x53 :: [0x32, 0x33])) ∧
    ((∀ d ∈ [(0x30 : Byte)], RuleDigit d) ∧ (∀ d ∈ [(0x38 : Byte)], RuleDigit d) ∧
      TextIs (withText [0x62, 0x30, 0x2F, 0x73, 0x38]) ((0x62 : Byte) :: [0x30] ++ 0x2F :: 0x73 :: [0x38])) := by decide

/-- RcompRejects, the text and ASCII clauses: a byte 0xC3 first; "B3S". -/
theorem witness_RcompRejects_text :
    (TextIs (withText [0xC3, 0x42, 0x33]) [0xC3, 0x42, 0x33] ∧
      FirstAt [0xC3, 0x42, 0x33] (fun c => decide (0x80 ≤ c.toNat)) 0) ∧
    (TextIs (withText [0x42, 0x33, 0x53]) [0x42, 0x33, 0x53] ∧ (∀ c ∈ [(0x42 : Byte), 0x33, 0x53], c.toNat < 0x80) ∧
      (0x2F : Byte) ∉ [(0x42 : Byte), 0x33, 0x53]) := by decide

/-- "S23/B3" (R-10), "B3/" (R-14), "Bx/S9" (R-20), "B9/S2" (R-23 cut short). -/
def badTexts : List (List Byte) :=
  [[0x53, 0x32, 0x33, 0x2F, 0x42, 0x33], [0x42, 0x33, 0x2F], [0x42, 0x78, 0x2F, 0x53, 0x39], [0x42, 0x39, 0x2F, 0x53, 0x32]]

/-- RcompRejects, the two prefixes: "/S23" (R-13), "S23/B3", "B3/". -/
theorem witness_RcompRejects_letters :
    FirstAt [0x2F, 0x53, 0x32, 0x33] (· == 0x2F) 0 ∧
      (FirstAt badTexts[0] (· == 0x2F) 3 ∧ badTexts[0][0]? ≠ some 0x42 ∧ badTexts[0][0]? ≠ some 0x62) ∧
      (FirstAt badTexts[1] (· == 0x2F) 2 ∧ badTexts[1][0]? = some 0x42 ∧
        badTexts[1][2 + 1]? ≠ some 0x53 ∧ badTexts[1][2 + 1]? ≠ some 0x73) := by decide

/-- RcompRejects, the digit runs: "Bx/S9" and "B9/S2". -/
theorem witness_RcompRejects_digits :
    (FirstAt badTexts[2] (· == 0x2F) 2 ∧ badTexts[2][2 + 1]? = some 0x53 ∧ InRuns badTexts[2] 2 1 ∧
      badTexts[2][1]?.any digitByte = false ∧
      (∀ h, h < 1 → InRuns badTexts[2] 2 h → badTexts[2][h]?.any digitByte = true)) ∧
    (FirstAt badTexts[3] (· == 0x2F) 2 ∧ badTexts[3][2 + 1]? = some 0x53 ∧ InRuns badTexts[3] 2 1 ∧
      badTexts[3][1]? = some 0x39 ∧
      (∀ h, h < 5 → InRuns badTexts[3] 2 h → badTexts[3][h]?.any digitByte = true)) := by decide

/-- RqueryRule: counts 8 and 9; ARG0 = 2; no table. -/
theorem witness_RqueryRule :
    ((withRule 1 8).argNat 0 < 2 ∧ (withRule 1 8).status.rtValid = true ∧ (withRule 1 8).argNat 1 ≤ 8) ∧
      2 ≤ (withRule 2 3).argNat 0 ∧ (State.reset.argNat 0 < 2 ∧ State.reset.status.rtValid = false) ∧
      ((withRule 0 9).argNat 0 < 2 ∧ (withRule 0 9).status.rtValid = true ∧ 9 ≤ (withRule 0 9).argNat 1) := by decide

theorem witness_RencRule : (args 1 0xFFFFFFFF 0 0).argNat 0 < 2 ∧ 2 ≤ (args 2 3 0 0).argNat 0 := by decide

theorem witness_RdecRule : (args 31 0 0 0).argNat 0 < 32 ∧ 32 ≤ (args 32 0 0 0).argNat 0 := by decide

theorem witness_RuleIndexRoundTrip : 1 < 2 ∧ 31 < 32 := by decide

theorem witness_NencRule : ((args 8 0xFF 0 0).argNat 0 = 8 ∧ (args 8 0xFF 0 0).argNat 1 < 256) ∧
    (args 7 0x7F 0 0).argNat 0 ≠ 8 ∧ ((args 8 0x100 0 0).argNat 0 = 8 ∧ 256 ≤ (args 8 0x100 0 0).argNat 1) := by decide

theorem witness_NdecRule : (args 0xFF 0 0 0).argNat 0 < 256 ∧ 256 ≤ (args 0x100 0 0 0).argNat 0 := by decide

theorem witness_CodecRoundTrip : 255 < 256 ∧ (args 0xFF 0 0 0).argNat 0 < 256 := by decide

theorem witness_LlookRule : ((args 1 0xFF 0 0).argNat 0 < 2 ∧ (args 1 0xFF 0 0).argNat 1 < 256) ∧
    2 ≤ (args 2 0 0 0).argNat 0 ∧ ((args 0 0x100 0 0).argNat 0 < 2 ∧ 256 ≤ (args 0 0x100 0 0).argNat 1) := by decide

theorem witness_LlogicRule : ((args 0 0x83 0 0).argNat 0 < 2 ∧ (args 0 0x83 0 0).argNat 1 < 256) ∧
    2 ≤ (args 3 0 0 0).argNat 0 ∧ ((args 1 0x100 0 0).argNat 0 < 2 ∧ 256 ≤ (args 1 0x100 0 0).argNat 1) := by decide

theorem witness_ThreeRuleFormsAgree : TextIs (withText conwayText) [0x42, 0x33, 0x2F, 0x53, 0x32, 0x33] ∧
    (next? (exec .rcomp (withText conwayText))).isSome = true ∧ 1 < 2 ∧ 255 < 256 := by decide +kernel

/-- UpdClosedForm: R210 (f) in both modes, and the 1×1 grid. -/
theorem witness_UpdClosedForm :
    UpdReady .rt .s0 (update 4 1 4 [0, 1] [] [0]) ∧ UpdReady .lut .s0 (update 4 1 4 [0, 1] [] [0]) ∧
      UpdReady .rt .s1 (update 1 1 1 [] [0] [0]) := by decide +kernel

/-- IncrementalEqualsFull: a blinker on a 5×5 grid (program P2 of 95_test_vectors.md). P is the horizontal one, the world
the vertical one, CHG the four cells on which they differ. -/
theorem witness_IncrementalEqualsFull :
    UpdReady .rt .s0 (update 5 5 25 [7, 12, 17] [11, 12, 13] [7, 11, 13, 17]) ∧
      (∀ i, i < 25 → ((bank 25 [11, 12, 13]).read i).isSome = true ∧
        (bank 25 [7, 12, 17]).read i = some (nextCell .rt 0x000E0#18 (bank 25 [11, 12, 13]) 5 5 i) ∧
        (bank 25 [7, 11, 13, 17]).read i =
          some (decide ((bank 25 [11, 12, 13]).read i ≠ (bank 25 [7, 12, 17]).read i))) ∧
      (next? (exec (.upd .rt .s0) (update 5 5 25 [7, 12, 17] [11, 12, 13] [7, 11, 13, 17]))).isSome = true := by
  decide +kernel

theorem witness_AllDirtyRecomputesAll : UpdReady .lut .s0 (update 2 2 4 [0] [] [0, 1, 2, 3]) ∧
    (∀ i, i < 4 → (update 2 2 4 [0] [] [0, 1, 2, 3]).chg.read i = some true) := by decide +kernel

theorem witness_NothingDirtyChangesNothing : UpdReady .rt .s0 (update 2 2 4 [0] [] []) ∧
    (∀ i, i < 4 → (update 2 2 4 [0] [] []).chg.read i = some false) := by decide +kernel

/-- UpdFaults, the first clauses: no table; CHG longer than CELL_CAP (U-15); the target of another length (U-14). -/
theorem witness_UpdFaults_lengths :
    (FieldsFit (.upd .rt .s0) (args 0xFFFF 1 0 0) ∧ 1 ≤ (args 0xFFFF 1 0 0).argNat 0 ∧ 1 ≤ (args 0xFFFF 1 0 0).argNat 1 ∧
      (args 0xFFFF 1 0 0).status.rtValid = false) ∧
    ([CellBank.buf .s0, .buf (BufSel.s0).other, .chg] = [.buf .s0, .buf .s1] ++ .chg :: [] ∧
      (∀ c ∈ [CellBank.buf .s0, .buf .s1], ({ update 5 5 25 [] [] [] with lenc := 4097 } : State).len c ≤ 4096) ∧
      4096 < ({ update 5 5 25 [] [] [] with lenc := 4097 } : State).len .chg) ∧
    ([CellBank.buf .s0, .buf (BufSel.s0).other, .chg] = [.buf .s0] ++ .buf .s1 :: [.chg] ∧
      ({ update 5 5 25 [] [] [] with len1 := 24 } : State).len (.buf .s0) = 5 * 5 ∧
      ({ update 5 5 25 [] [] [] with len1 := 24 } : State).len (.buf .s1) ≠ 5 * 5) := by decide +kernel

/-- UpdFaults: every bank within CELL_CAP and of N cells, in RT mode with a table. -/
theorem witness_UpdFaults_banks : (update 5 5 25 [] [] []).status.rtValid = true ∧
    ∀ b, (update 5 5 25 [] [] []).len b ≤ (update 5 5 25 [] [] []).params.cellCap ∧
      (update 5 5 25 [] [] []).len b = (update 5 5 25 [] [] []).argNat 0 * (update 5 5 25 [] [] []).argNat 1 := by
  refine ⟨by decide, fun b => ?_⟩
  rcases b with (_ | _) | _ <;> decide +kernel

/-- UpdFaults, the written checks: an unwritten world; CHG cell 20 unwritten (U-16). -/
theorem witness_UpdFaults_written :
    (({ update 5 5 25 [] [] [] with buf0 := [] } : State).buf0.read 0 = none) ∧
      (Written (update 5 5 25 [] [] []).buf0 0 25 ∧
        ({ update 5 5 25 [] [] [] with chg := bank 20 [] } : State).chg.read 20 = none ∧ Written (bank 20 []) 0 20) := by
  decide +kernel

/-- TextSplitsIntoLines: a segment that ends in CR, and an empty last one. -/
theorem witness_TextSplitsIntoLines :
    ([[0x4F, 0x0D], []] : List (List Byte)) ≠ [] ∧ (∀ g ∈ ([[0x4F, 0x0D], []] : List (List Byte)), (0x0A : Byte) ∉ g) := by
  decide

/-- PparseParses: the glider text. -/
theorem witness_PparseParses :
    TextIs (withText gliderText) gliderText ∧
      keptLines 0x21 gliderText = { start := 0, bytes := [0x2E, 0x4F, 0x2E] } ::
        [{ start := 4, bytes := [0x2E, 0x2E, 0x4F] }, { start := 8, bytes := [0x4F, 0x4F, 0x4F] }] ∧
      3 * (2 + 1) ≤ (withText gliderText).params.patCap := by decide +kernel

/-- "OO" where PAT holds one cell. -/
def tightPattern : State := { withText [0x4F, 0x4F] with params := { Params.reference with patCap := 1 } }

/-- PparseRejects: no kept line; P-8; a pattern of one cell more than PAT_CAP. -/
theorem witness_PparseRejects :
    (TextIs (withText []) [] ∧ keptLines 0x21 [] = []) ∧
    (TextIs (withText [0x4F, 0x4F, 0x0A, 0x4F]) [0x4F, 0x4F, 0x0A, 0x4F] ∧
      keptLines 0x21 [0x4F, 0x4F, 0x0A, 0x4F] =
        { start := 0, bytes := [0x4F, 0x4F] } :: [] ++ { start := 3, bytes := [0x4F] } :: []) ∧
    (TextIs tightPattern [0x4F, 0x4F] ∧ keptLines 0x21 [0x4F, 0x4F] = { start := 0, bytes := [0x4F, 0x4F] } :: [] ∧
      tightPattern.params.patCap < 2 * (0 + 1)) := by decide +kernel

/-- PplaceCopiesPattern: the pattern touches the right and bottom edges (C-11). -/
theorem witness_PplaceCopiesPattern :
    (pending (withGlider 8 8 5 5) 0x51).Inv ∧ PplaceReady .s0 (pending (withGlider 8 8 5 5) 0x51) :=
  ⟨inv_withGlider, by decide +kernel⟩

/-- PplaceFaults: no pattern; LEN0 above CELL_CAP; 72 cells in 64 (C-15); x and y one past the edge. -/
theorem witness_PplaceFaults :
    (FieldsFit (.pplace .s0) (args 8 8 0 0) ∧ (args 8 8 0 0).status.patValid = false) ∧
      4096 < ({ withGlider 8 8 0 0 with len0 := 4097 } : State).len (.buf .s0) ∧
      ((withGlider 8 9 0 0).status.patValid = true ∧ (withGlider 8 9 0 0).len (.buf .s0) < 8 * 9) ∧
      (FieldsFit (.pplace .s0) (withGlider 8 8 6 0) ∧ 8 * 8 ≤ (withGlider 8 8 6 0).len (.buf .s0) ∧
        (withGlider 8 8 6 0).argNat 0 < (withGlider 8 8 6 0).argNat 2 + (withGlider 8 8 6 0).patW.toNat) ∧
      ((withGlider 8 8 5 6).argNat 2 + (withGlider 8 8 5 6).patW.toNat ≤ (withGlider 8 8 5 6).argNat 0 ∧
        (withGlider 8 8 5 6).argNat 1 < (withGlider 8 8 5 6).argNat 3 + (withGlider 8 8 5 6).patH.toNat) := by
  decide +kernel

/-- PcenterRule: each of the seven clauses, the fit at its limit. -/
theorem witness_PcenterRule :
    65536 ≤ (withGlider 0x10000 8 0 0).argNat 0 ∧
      ((withGlider 8 0x10000 0 0).argNat 0 < 65536 ∧ 65536 ≤ (withGlider 8 0x10000 0 0).argNat 1) ∧
      (FieldsFit .pcenter (withGlider 0 8 0 0) ∧ (withGlider 0 8 0 0).argNat 0 = 0) ∧
      (FieldsFit .pcenter (withGlider 3 3 0 0) ∧ 1 ≤ (withGlider 3 3 0 0).argNat 0 ∧ 1 ≤ (withGlider 3 3 0 0).argNat 1 ∧
        (withGlider 3 3 0 0).status.patValid = true ∧ (withGlider 3 3 0 0).patW.toNat ≤ (withGlider 3 3 0 0).argNat 0 ∧
        (withGlider 3 3 0 0).patH.toNat ≤ (withGlider 3 3 0 0).argNat 1) ∧
      (FieldsFit .pcenter (args 8 8 0 0) ∧ (args 8 8 0 0).status.patValid = false) ∧
      (FieldsFit .pcenter (withGlider 2 8 0 0) ∧ (withGlider 2 8 0 0).argNat 0 < (withGlider 2 8 0 0).patW.toNat) ∧
      (FieldsFit .pcenter (withGlider 3 2 0 0) ∧ (withGlider 3 2 0 0).patW.toNat ≤ (withGlider 3 2 0 0).argNat 0 ∧
        (withGlider 3 2 0 0).argNat 1 < (withGlider 3 2 0 0).patH.toNat) := by decide +kernel

/-- CenterThenPlaceFits: C-1, and a world larger than the buffer. -/
theorem witness_CenterThenPlaceFits :
    ((withGlider 8 8 0 0).status.fault = false ∧
      (next? (exec .pcenter (withGlider 8 8 0 0))).map (fun t => t.status.fault) = some false) ∧
    ((next? (exec .pcenter (withGlider 8 9 0 0))).map (fun t => (t.status.fault, t.len (.buf .s0), t.argNat 1)) =
      some (false, 64, 9)) := by decide +kernel

end Sys2Proof.Tests
end

