-- ==== Sys2Proof/Proofs/CommandEnds.lean ====
section
/-! PROOFS. How a command ends (00_scope.md R10, R15; 60_exceptions.md R263, R264): what the staged writes of a command
do to STATUS and FINFO, and the three ends of `exec` in the words of the statements. -/

namespace Sys2Proof.Machine

open Sys2Proof.Claims

/-! ### STATUS and FINFO under the staged writes -/

@[simp] theorem rcompStage_status (s : State) : (rcompStage s).status = s.status.markRt := rfl

@[simp] theorem pparseStage_status (s : State) : (pparseStage s).status = s.status.markPat := rfl

@[simp] theorem updStage_status (mode : UpdMode) (sel : BufSel) (s : State) :
    (updStage mode sel s).status = s.status := by
  simp [updStage]

@[simp] theorem updStage_finfo (mode : UpdMode) (sel : BufSel) (s : State) :
    (updStage mode sel s).finfo = s.finfo := by
  simp [updStage]

@[simp] theorem pplaceStage_status (sel : BufSel) (s : State) : (pplaceStage sel s).status = s.status := by
  simp [pplaceStage]

@[simp] theorem pplaceStage_finfo (sel : BufSel) (s : State) : (pplaceStage sel s).finfo = s.finfo := by
  simp [pplaceStage]

/-- R30: the staged writes of RCOMP mark RT_VALID and those of PPARSE mark PAT_VALID; no other command stages a change
of STATUS. -/
theorem stageOf_status_cases (i : Instr) (s : State) :
    (i = .rcomp ∧ (stageOf i s).status = s.status.markRt) ∨
      (i = .pparse ∧ (stageOf i s).status = s.status.markPat) ∨
      (i ≠ .rcomp ∧ i ≠ .pparse ∧ (stageOf i s).status = s.status) := by
  cases i with
  | rcomp => exact .inl ⟨rfl, rcompStage_status s⟩
  | pparse => exact .inr (.inl ⟨rfl, pparseStage_status s⟩)
  | upd mode sel => exact .inr (.inr ⟨nofun, nofun, updStage_status mode sel s⟩)
  | pplace sel => exact .inr (.inr ⟨nofun, nofun, pplaceStage_status sel s⟩)
  | _ => exact .inr (.inr ⟨nofun, nofun, rfl⟩)

/-- FINFO is written by error and fault entry alone. -/
@[simp] theorem stageOf_finfo (i : Instr) (s : State) : (stageOf i s).finfo = s.finfo := by
  cases i with
  | upd mode sel => exact updStage_finfo mode sel s
  | pplace sel => exact pplaceStage_finfo sel s
  | _ => rfl

/-- R28, R29: the staged writes touch neither ERR, FAULT nor CAUSE. -/
theorem stageOf_status_err_fault_cause (i : Instr) (s : State) :
    (stageOf i s).status.err = s.status.err ∧ (stageOf i s).status.fault = s.status.fault ∧
      (stageOf i s).status.cause = s.status.cause := by
  obtain ⟨-, h⟩ | ⟨-, h⟩ | ⟨-, -, h⟩ := stageOf_status_cases i s <;> rw [h] <;> exact ⟨rfl, rfl, rfl⟩

/-! ### The ends in the words of the statements -/

theorem errorEntry_eq_erred (s : State) (e : FormatError) (info : Word) : errorEntry s e info = erred s e info := rfl

theorem faultEntry_eq_faulted (s : State) (c : FaultCause) (info : Word) :
    faultEntry s c info = faulted s c info := rfl

/-- Settles O8: a next state of `exec` is the end its first failing check gives, which is a fault or an error entry, or
its staged writes committed, which keep ERR, FAULT, CAUSE and FINFO. -/
theorem everyCommandEndsOneWay : Obligations.EveryCommandEndsOneWay := by
  intro i s t h
  obtain ⟨e, -, rfl⟩ | ⟨-, rfl⟩ := exec_next i s t h
  · obtain ⟨c, info, -, hend⟩ | ⟨c, info, -, hend⟩ := endStop_cases s e
    · exact .inr (.inl ⟨c, info, hend.trans (errorEntry_eq_erred s c info)⟩)
    · exact .inl ⟨c, info, hend.trans (faultEntry_eq_faulted s c info)⟩
  · obtain ⟨herr, hfault, hcause⟩ := stageOf_status_err_fault_cause i s
    exact .inr (.inr ⟨rfl, herr, hfault, hcause, stageOf_finfo i s⟩)

end Sys2Proof.Machine
end

