-- ==== Sys2Proof/Proofs/CommandFrames.lean ====
section
/-! PROOFS. What a command leaves unchanged (10_state.md R20 to R23, R36 to R40; 20_memory.md R61): the frame of the
staged writes of each command, and from it the frame of `exec`. -/

namespace Sys2Proof.Machine

open Sys2Proof.Claims

/-! ### What no command writes -/

/-- `t` agrees with `s` on everything that no command writes: the parameters, CMD, ARG, LEN, TXT, CHG, the REFUSED mark
and the model's own fields. -/
structure CommandFrame (s t : State) : Prop where
  params : t.params = s.params
  cmd : t.cmd = s.cmd
  arg : t.arg = s.arg
  len0 : t.len0 = s.len0
  len1 : t.len1 = s.len1
  lenc : t.lenc = s.lenc
  txt : t.txt = s.txt
  chg : t.chg = s.chg
  refused : t.refused = s.refused
  host : t.host = s.host
  sched : t.sched = s.sched
  draws : t.draws = s.draws

theorem commandFrame_stageOf (i : Instr) (s : State) : CommandFrame s (stageOf i s) := by
  cases i with
  | upd mode sel => constructor <;> simp [stageOf, updStage]
  | pplace sel => constructor <;> simp [stageOf, pplaceStage]
  | _ => constructor <;> rfl

/-- An error or fault entry writes STATUS and FINFO only. -/
theorem commandFrame_endStop (s : State) (e : Stop) : CommandFrame s (endStop s e) := by
  cases e <;> constructor <;> rfl

theorem CommandFrame.commit {s t : State} (h : CommandFrame s t) : CommandFrame s (commit t) := { h with }

theorem commandFrame_exec (i : Instr) (s t : State) (h : exec i s = .next t) : CommandFrame s t := by
  obtain ⟨e, -, rfl⟩ | ⟨-, rfl⟩ := exec_next i s t h
  · exact commandFrame_endStop s e
  · exact (commandFrame_stageOf i s).commit

/-! ### The rule table, the pattern and the buffers under the staged writes -/

theorem stageOf_rt (i : Instr) (s : State) (h : i ≠ .rcomp) : (stageOf i s).rt = s.rt := by
  cases i with
  | rcomp => exact absurd rfl h
  | upd mode sel => simp [stageOf, updStage]
  | pplace sel => simp [stageOf, pplaceStage]
  | _ => rfl

theorem stageOf_pat (i : Instr) (s : State) (h : i ≠ .pparse) :
    (stageOf i s).pat = s.pat ∧ (stageOf i s).patW = s.patW ∧ (stageOf i s).patH = s.patH := by
  cases i with
  | pparse => exact absurd rfl h
  | upd mode sel => simp [stageOf, updStage]
  | pplace sel => simp [stageOf, pplaceStage]
  | _ => exact ⟨rfl, rfl, rfl⟩

theorem stageOf_rtValid (i : Instr) (s : State) (h : i ≠ .rcomp) :
    (stageOf i s).status.rtValid = s.status.rtValid := by
  obtain ⟨hi, -⟩ | ⟨-, hst⟩ | ⟨-, -, hst⟩ := stageOf_status_cases i s
  · exact absurd hi h
  · rw [hst]; rfl
  · rw [hst]

theorem stageOf_patValid (i : Instr) (s : State) (h : i ≠ .pparse) :
    (stageOf i s).status.patValid = s.status.patValid := by
  obtain ⟨-, hst⟩ | ⟨hi, -⟩ | ⟨-, -, hst⟩ := stageOf_status_cases i s
  · rw [hst]; rfl
  · exact absurd hi h
  · rw [hst]

theorem BufSel.eq_or_eq_other (sel sel' : BufSel) : sel = sel' ∨ sel = sel'.other := by
  cases sel <;> cases sel' <;> decide

theorem State.setBuf_buf_of_ne (s : State) (sel sel' : BufSel) (m : Memory Bool) (h : sel' ≠ sel) :
    (s.setBuf sel' m).buf sel = s.buf sel := by
  obtain rfl | rfl := BufSel.eq_or_eq_other sel' sel
  · exact absurd rfl h
  · exact State.setBuf_other_buf s sel m

theorem stageOf_buf (i : Instr) (s : State) (sel : BufSel) (hplace : i ≠ .pplace sel)
    (hupd : ∀ mode, i ≠ .upd mode sel.other) : (stageOf i s).buf sel = s.buf sel := by
  cases i with
  | upd mode sel' =>
    have hne : sel'.other ≠ sel := by
      rintro rfl
      exact hupd mode (by rw [BufSel.other_other])
    simp [stageOf, updStage, State.setBuf_buf_of_ne _ _ _ _ hne]
  | pplace sel' =>
    have hne : sel' ≠ sel := by
      rintro rfl
      exact hplace rfl
    exact State.setBuf_buf_of_ne _ _ _ _ hne
  | _ => cases sel <;> rfl

/-- Settles O9: an error or fault entry writes STATUS and FINFO only, and the staged writes of each command have the
frame that the lemmas above state. -/
theorem commandWritesOnlyItsState : Obligations.CommandWritesOnlyItsState := by
  intro i s t h
  have hframe := commandFrame_exec i s t h
  refine ⟨⟨hframe.params, hframe.cmd, hframe.arg, hframe.len0, hframe.len1, hframe.lenc, hframe.txt, hframe.chg,
    hframe.refused, hframe.host, hframe.sched, hframe.draws⟩, ?_⟩
  obtain ⟨e, -, rfl⟩ | ⟨-, rfl⟩ := exec_next i s t h
  · cases e <;> simp [endStop, Status.onError, Status.onFault]
  · refine ⟨fun hi => ⟨stageOf_rt i s hi, stageOf_rtValid i s hi⟩, fun hi => ?_, fun sel hplace hupd => ?_⟩
    · obtain ⟨hpat, hpatW, hpatH⟩ := stageOf_pat i s hi
      exact ⟨hpat, hpatW, hpatH, stageOf_patValid i s hi⟩
    · rw [buf_commit, stageOf_buf i s sel hplace hupd]

/-! ### The result registers -/

theorem endStop_res (s : State) (e : Stop) : (endStop s e).res = s.res := by
  cases e <;> rfl

/-- A result register other than the one `setRes` writes. -/
theorem State.setRes_getElem_of_ne (s : State) (i k : Fin 8) (v : Word) (h : k ≠ i) :
    (s.setRes i v).res[k] = s.res[k] := by
  have hval : i.val ≠ k.val := fun hik => h (Fin.ext hik.symm)
  simp [hval]

theorem stageOf_res_of_not_named (i : Instr) (s : State) (k : Fin 8) (h : k ∉ namedRes i) :
    (stageOf i s).res[k] = s.res[k] := by
  cases i with
  | nbr => exact absurd (by revert k; decide) h
  | rcomp => rfl
  | pplace sel => simp [stageOf, pplaceStage]
  | rquery | renc | nenc | llook | llogic =>
    have hk : k ≠ 0 := by simpa [namedRes] using h
    exact State.setRes_getElem_of_ne _ 0 k _ hk
  | rdec | ndec | pparse | pcenter | upd =>
    obtain ⟨hk0, hk1⟩ : k ≠ 0 ∧ k ≠ 1 := by simpa [namedRes] using h
    refine (State.setRes_getElem_of_ne _ 1 k _ hk1).trans ((State.setRes_getElem_of_ne _ 0 k _ hk0).trans ?_)
    simp

/-- Settles O10: an error or fault entry writes no RES register; the staged writes name only those of `namedRes`, and a
command that commits them keeps ERR and FAULT, so it has not failed. -/
theorem unnamedResultsKeepValues : Obligations.UnnamedResultsKeepValues := by
  intro i s t h
  obtain ⟨e, -, rfl⟩ | ⟨-, rfl⟩ := exec_next i s t h
  · rw [endStop_res]
    exact ⟨fun _ _ => rfl, fun _ _ _ => rfl⟩
  · refine ⟨fun k hk => stageOf_res_of_not_named i s k hk, fun herr hfault hfailed => ?_⟩
    obtain ⟨herr', hfault', -⟩ := stageOf_status_err_fault_cause i s
    simp [Status.onSuccess, herr', hfault', herr, hfault] at hfailed

end Sys2Proof.Machine
end

