-- ==== Sys2Proof/Proofs/StepClosed.lean ====
section
/-! PROOFS. The induction over one step, packaged once: a property of states that each elementary transition keeps is kept
by every step of either agent. From it: the parameters never change (10_state.md R41) and the REFUSED mark stays (R21);
and what a CTRL access does (R31). -/

namespace Sys2Proof.Machine

open Sys2Proof.Claims

/-- Every elementary transition that a step of either agent is made of keeps `P`: the bookkeeping of the host agent, the
accesses of the host port, and the ends of a command. -/
structure StepClosed (P : State → Prop) : Prop where
  afterTurn : ∀ s, P s → P s.afterTurn
  withProg : ∀ s prog, P s → P (s.withProg prog)
  nameResult : ∀ s into v, P s → P (s.nameResult into v)
  draw : ∀ s, P s → P s.draw
  markRefused : ∀ s, P s → P (markRefused s)
  resetBlock : ∀ s, P s → P s.resetBlock
  writeTarget : ∀ s t v, P s → P (writeTarget s t v)
  acceptCommand : ∀ s v, s.status.fault = false → P s → P (acceptCommand s v)
  faultEntry : ∀ s c info, s.status.busy = true → P s → P (faultEntry s c info)
  errorEntry : ∀ s e info, s.status.busy = true → P s → P (errorEntry s e info)
  success : ∀ i s, stopOf i s = none → P s → P (commit (stageOf i s))

namespace StepClosed

variable {P : State → Prop} (hP : StepClosed P)
include hP

theorem of_exec (i : Instr) (s t : State) (hbusy : s.status.busy = true) (hs : P s) (h : exec i s = .next t) : P t := by
  obtain ⟨e, -, rfl⟩ | ⟨hstop, rfl⟩ := exec_next i s t h
  · cases e with
    | error e info => exact hP.errorEntry s e info hbusy hs
    | fault c info => exact hP.faultEntry s c info hbusy hs
  · exact hP.success i s hstop hs

theorem of_blockStep (s t : State) (hbusy : s.status.busy = true) (hs : P s) (h : blockStep s = .next t) : P t := by
  cases hd : decode s.cmd with
  | error _ =>
    have ht : illegalCommand s = t := by simpa [blockStep, hd] using h
    exact ht ▸ hP.faultEntry s _ _ hbusy hs
  | ok i => exact hP.of_exec i s t hbusy hs (blockStep_of_decode s i hd ▸ h)

theorem of_hostWrite (s : State) (bits : Nat) (a : Addr) (v : Word) (hs : P s) : P (hostWrite s bits a v) := by
  obtain ⟨-, h⟩ | h | ⟨hb, h⟩ | ⟨hf, -, h⟩ | ⟨-, -, h⟩ | ⟨t, -, -, h⟩ := hostWrite_cases s bits a v <;> rw [h]
  · exact hP.markRefused s hs
  · exact hs
  · exact hP.faultEntry s _ _ hb hs
  · exact hP.acceptCommand s v hf hs
  · exact hP.resetBlock s hs
  · exact hP.writeTarget s t v hs

theorem of_hostRead (s : State) (bits : Nat) (a : Addr) (hs : P s) : P (hostRead s bits a).1 := by
  obtain ⟨-, h⟩ | ⟨hb, h⟩ | ⟨t, -, h⟩ := hostRead_cases s bits a <;> rw [h]
  · exact hP.markRefused s hs
  · exact hP.draw _ (hP.faultEntry s _ _ hb hs)
  · exact hP.draw s hs

theorem of_hostWait (s : State) (rest : List HostStmt) (hs : P s) : P (hostWait s rest) := by
  have hread : P (readAccess s .status Target.status.addr).1 := hP.of_hostRead s 32 Target.status.addr hs
  unfold hostWait
  split
  · exact hread
  · exact hP.withProg _ rest hread

theorem of_hostStep (s t : State) (hs : P s) (h : hostStep s = .next t) : P t := by
  cases hprog : s.host.prog with
  | nil =>
    have ht : s = t := by simpa [hostStep, hprog] using h
    exact ht ▸ hs
  | cons stmt rest =>
    cases stmt with
    | wr bits a v =>
      cases hv : v.eval s.host.names with
      | error n => simp [hostStep, hprog, hostWr, hv] at h
      | ok w =>
        have ht : hostWrite (s.withProg rest) bits a w = t := by
          simpa [hostStep, hprog, hostWr, hv] using h
        exact ht ▸ hP.of_hostWrite _ bits a w (hP.withProg s rest hs)
    | rd bits a into =>
      have ht : hostRd (s.withProg rest) bits a into = t := by simpa [hostStep, hprog] using h
      exact ht ▸ hP.nameResult _ into _ (hP.of_hostRead _ bits a (hP.withProg s rest hs))
    | wait =>
      have ht : hostWait s rest = t := by simpa [hostStep, hprog] using h
      exact ht ▸ hP.of_hostWait s rest hs

/-- A property that every elementary transition keeps is kept by every step. -/
theorem of_step (s t : State) (hs : P s) (h : step s = .next t) : P t := by
  have hs' : P s.afterTurn := hP.afterTurn s hs
  obtain ⟨-, hready, hstep⟩ | ⟨-, -, hstep⟩ | ⟨-, -, -, hstep⟩ := step_cases s <;> rw [hstep] at h
  · have hbusy : s.status.busy = true := by
      simp only [State.blockReady, Bool.and_eq_true] at hready
      exact hready.1
    exact hP.of_blockStep _ t (by simpa using hbusy) hs' h
  · exact hP.of_hostStep _ t hs' h
  · unfold noStep at h
    split at h
    · simp at h
    · exact (Host.Outcome.next.inj h) ▸ hs

end StepClosed

/-! ### What the host's transitions leave unchanged -/

@[simp] theorem writeTarget_params (s : State) (t : Target) (v : Word) : (writeTarget s t v).params = s.params := by
  unfold writeTarget
  split <;> simp

@[simp] theorem writeTarget_refused (s : State) (t : Target) (v : Word) : (writeTarget s t v).refused = s.refused := by
  unfold writeTarget
  split <;> simp

@[simp] theorem State.nameResult_params (s : State) (into : Option Nat) (v : Option Word) :
    (s.nameResult into v).params = s.params := by
  unfold State.nameResult
  split <;> rfl

@[simp] theorem State.nameResult_refused (s : State) (into : Option Nat) (v : Option Word) :
    (s.nameResult into v).refused = s.refused := by
  unfold State.nameResult
  split <;> rfl

/-! ### The REFUSED mark -/

theorem stepClosed_refused : StepClosed (fun s => s.refused = true) where
  afterTurn s h := by simpa using h
  withProg _ _ h := h
  nameResult s into v h := by simpa using h
  draw _ h := h
  markRefused _ _ := rfl
  resetBlock _ h := h
  writeTarget s t v h := by simpa using h
  acceptCommand _ _ _ h := h
  faultEntry _ _ _ _ h := h
  errorEntry _ _ _ _ h := h
  success i s _ h := (commandFrame_stageOf i s).refused.trans h

/-- Settles O15: a refused access answers `markRefused`, a final state has the mark clear, and every elementary
transition keeps the mark. -/
theorem refusedMarkStays : Obligations.RefusedMarkStays := by
  refine ⟨fun s bits a v hrefused => ?_, fun s t hmark => ⟨?_, stepClosed_refused.of_step s t hmark⟩⟩
  · simp [hostWrite, hostRead, hrefused]
  · simp [State.final, hmark]

/-! ### The parameters -/

theorem stepClosed_params (p : Params) : StepClosed (fun s => s.params = p) where
  afterTurn s h := by simpa using h
  withProg _ _ h := h
  nameResult s into v h := by simpa using h
  draw _ h := h
  markRefused _ h := h
  resetBlock _ h := h
  writeTarget s t v h := by simpa using h
  acceptCommand _ _ _ h := h
  faultEntry _ _ _ _ h := h
  errorEntry _ _ _ _ h := h
  success i s _ h := (commandFrame_stageOf i s).params.trans h

/-- Outside BUSY a read that reaches a target returns what the target holds (20_memory.md R63). -/
theorem hostRead_value_of_not_busy (s : State) (bits : Nat) (a : Addr) (t : Target) (hbusy : s.status.busy = false)
    (ht : accessTarget s.params bits a = some t) : (hostRead s bits a).2 = some (readTarget s t) := by
  simp [hostRead, ht, readAccess, hbusy]

/-- Settles O16: every elementary transition keeps the parameters, and a read of the addresses of R62 that is not a
BUSY fault returns them. -/
theorem capacitiesAreConstant : Obligations.CapacitiesAreConstant := by
  refine ⟨fun s t => (stepClosed_params s.params).of_step s t rfl, fun s hbusy => ⟨?_, ?_, ?_⟩⟩
  · exact hostRead_value_of_not_busy s 32 _ .capCell hbusy rfl
  · exact hostRead_value_of_not_busy s 32 _ .capTxt hbusy rfl
  · exact hostRead_value_of_not_busy s 32 _ .capPat hbusy rfl

/-! ### CTRL -/

theorem accessTarget_ctrl (p : Params) : accessTarget p 32 0x000008#24 = some .ctrl := rfl

/-- A write to CTRL is the strobe of R31, BUSY and FAULT or not. -/
theorem hostWrite_ctrl (s : State) (v : Word) : hostWrite s 32 0x000008#24 v = strobe s v := by
  simp [hostWrite, accessTarget_ctrl, writeAccess]

theorem resetBlock_eq_zeroed (s : State) : s.resetBlock = zeroed s := rfl

/-- Settles O17: an access to 0x000008 reaches CTRL, which is the reset strobe when written and 0 when read. -/
theorem ctrlStrobeResets : Obligations.CtrlStrobeResets := by
  refine fun s v => ⟨fun hv => ?_, fun hv => ?_, fun hbusy => ?_⟩
  · rw [hostWrite_ctrl, strobe, if_pos hv, resetBlock_eq_zeroed]
  · rw [hostWrite_ctrl, strobe, if_neg (Bool.eq_false_iff.1 hv)]
  · exact hostRead_value_of_not_busy s 32 _ .ctrl hbusy (accessTarget_ctrl s.params)

end Sys2Proof.Machine
end

