-- ==== Sys2Proof/Proofs/CommandChecks.lean ====
section
/-! PROOFS. When the checks of UPD, PPLACE and PPARSE pass (44_update_engine.md R201; 45_pattern.md R231, R234), and that
the cells each of them then writes lie inside the bank. -/

namespace Sys2Proof.Machine

open Sys2Proof.Claims

/-! ### The checks -/

/-- A chain of checks finds no failure exactly where its first check passes and the rest finds none. -/
theorem check_eq_none {α : Type} (c : Prop) [Decidable c] (e : α) (rest : Option α) :
    (if c then some e else rest) = none ↔ ¬ c ∧ rest = none := by
  split <;> simp [*]

theorem updLengthStop_eq_none (sel : BufSel) (s : State) :
    updLengthStop sel s = none ↔
      ∀ b ∈ updBanks sel, s.len b ≤ s.params.cellCap ∧ s.len b = s.argNat 0 * s.argNat 1 := by
  unfold updLengthStop
  cases hcap : (updBanks sel).find? (fun b => decide (s.params.cellCap < s.len b)) with
  | some b =>
    have hb : s.params.cellCap < s.len b := by simpa using List.find?_some hcap
    have hmem := List.mem_of_find?_eq_some hcap
    simp only [reduceCtorEq, false_iff]
    exact fun h => absurd (h b hmem).1 (Nat.not_le.2 hb)
  | none =>
    have hle : ∀ b ∈ updBanks sel, s.len b ≤ s.params.cellCap := by simpa using hcap
    cases hlen : (updBanks sel).find? (fun b => decide (s.len b ≠ s.argNat 0 * s.argNat 1)) with
    | some b =>
      have hb : s.len b ≠ s.argNat 0 * s.argNat 1 := by simpa using List.find?_some hlen
      have hmem := List.mem_of_find?_eq_some hlen
      simp only [reduceCtorEq, false_iff]
      exact fun h => hb (h b hmem).2
    | none =>
      have heq : ∀ b ∈ updBanks sel, s.len b = s.argNat 0 * s.argNat 1 := by simpa using hlen
      simp only [true_iff]
      exact fun b hb => ⟨hle b hb, heq b hb⟩

/-- R201: the checks of UPD pass only for a grid that is not empty and fits CELL_CAP. -/
theorem grid_of_updStop_eq_none (mode : UpdMode) (sel : BufSel) (s : State) (h : updStop mode sel s = none) :
    1 ≤ s.argNat 0 ∧ 1 ≤ s.argNat 1 ∧ s.argNat 0 * s.argNat 1 ≤ s.params.cellCap := by
  unfold updStop at h
  split at h
  · simp at h
  · next hgrid =>
    split at h
    · simp at h
    · split at h
      · simp at h
      · next hlength =>
        obtain ⟨-, hW, hH⟩ := (gridOperandStop_eq_none s _).1 hgrid
        obtain ⟨hcap, hlen⟩ := (updLengthStop_eq_none sel s).1 hlength .chg (by simp [updBanks])
        exact ⟨hW, hH, hlen ▸ hcap⟩

/-- R234: the checks of PPLACE pass exactly where the operands fit, there is a pattern, and it lies inside the grid and
the buffer. -/
theorem pplaceStop_eq_none (sel : BufSel) (s : State) : pplaceStop sel s = none ↔ PplaceReady sel s := by
  have hgrid := gridOperandStop_eq_none s gridPosFields
  unfold pplaceStop
  cases hg : gridOperandStop s gridPosFields with
  | some e =>
    simp only [hg, reduceCtorEq, false_iff] at hgrid ⊢
    exact fun ⟨hfit, hW, hH, _⟩ => hgrid ⟨hfit, hW, hH⟩
  | none =>
    obtain ⟨hfit, hW, hH⟩ := hgrid.1 hg
    have hfit' : FieldsFit (.pplace sel) s := hfit
    rw [PplaceReady, and_iff_right hfit', and_iff_right hW, and_iff_right hH]
    simp [check_eq_none]

theorem patternTextStop_eq_none (p : Params) (off : Nat) (txt : List Byte) :
    patternTextStop p off txt = none ↔
      ∃ l rest, keptLines p.commentMarker txt = l :: rest ∧
        (∀ m ∈ l :: rest, m.bytes.length = l.bytes.length) ∧
        l.bytes.length * (l :: rest).length ≤ p.patCap := by
  unfold patternTextStop
  cases keptLines p.commentMarker txt with
  | nil => simp
  | cons l rest =>
    cases hrow : (l :: rest).find? (fun m => decide (m.bytes.length ≠ l.bytes.length)) with
    | some m =>
      have hm : m.bytes.length ≠ l.bytes.length := by simpa using List.find?_some hrow
      have hmem := List.mem_of_find?_eq_some hrow
      simp only [hrow, reduceCtorEq, false_iff]
      rintro ⟨l', rest', heq, hrows, -⟩
      obtain ⟨rfl, rfl⟩ := List.cons.inj heq
      exact hm (hrows m hmem)
    | none =>
      have hrows : ∀ m ∈ l :: rest, m.bytes.length = l.bytes.length := by simpa using hrow
      simp only [hrow, ite_eq_right_iff, reduceCtorEq, imp_false, Nat.not_lt]
      constructor
      · exact fun hcap => ⟨l, rest, rfl, hrows, hcap⟩
      · rintro ⟨l', rest', heq, -, hcap⟩
        obtain ⟨rfl, rfl⟩ := List.cons.inj heq
        exact hcap

/-! ### Grid indices (40_addressing.md R122 to R124) -/

theorem lin_lt (W H : Nat) (c : Nat × Nat) (hx : c.1 < W) (hy : c.2 < H) : lin W c < W * H := by
  calc lin W c < c.2 * W + W := Nat.add_lt_add_left hx _
    _ = (c.2 + 1) * W := (Nat.succ_mul _ _).symm
    _ ≤ H * W := Nat.mul_le_mul_right W hy
    _ = W * H := Nat.mul_comm _ _

theorem ringBefore_lt (n c : Nat) (h : c < n) : ringBefore n c < n := by
  unfold ringBefore
  split <;> omega

theorem ringAfter_lt (n c : Nat) (h : c < n) : ringAfter n c < n := Nat.mod_lt _ (by omega)

/-- Every neighbour of a cell lies in the grid (R126). -/
theorem nbr_lt (W H x y : Nat) (k : Fin 8) (hW : 1 ≤ W) (hH : 1 ≤ H) :
    (nbr W H x y k).1 < W ∧ (nbr W H x y k).2 < H := by
  have hx : x % W < W := Nat.mod_lt x hW
  have hy : y % H < H := Nat.mod_lt y hH
  have hx0 := ringBefore_lt W _ hx
  have hx1 := ringAfter_lt W _ hx
  have hy0 := ringBefore_lt H _ hy
  have hy1 := ringAfter_lt H _ hy
  fin_cases k <;> constructor <;> assumption

theorem nbrIdx_lt (W H i : Nat) (k : Fin 8) (hW : 1 ≤ W) (hH : 1 ≤ H) : nbrIdx W H i k < W * H := by
  obtain ⟨hx, hy⟩ := nbr_lt W H (i % W) (i / W) k hW hH
  exact lin_lt W H _ hx hy

/-! ### The cells UPD writes -/

theorem mem_updDirty (chg : Memory Bool) (n i : Nat) : i ∈ updDirty chg n ↔ i < n ∧ chg.read i = some true := by
  simp [updDirty]

theorem mem_insertCand (i j : Nat) (c : List Nat) : i ∈ insertCand j c ↔ i = j ∨ i ∈ c := by
  induction c with
  | nil => simp [insertCand]
  | cons a c ih =>
    unfold insertCand
    split
    · simp
    · split
      · next hja => simp [hja]
      · simp only [List.mem_cons, ih]
        tauto

/-- A fold each step of which adds the members `Q` names has the members it began with and those of all its steps. -/
theorem mem_foldl_iff {α β : Type} (f : List α → β → List α) (Q : β → α → Prop)
    (hf : ∀ c b j, j ∈ f c b ↔ j ∈ c ∨ Q b j) (bs : List β) (c : List α) (j : α) :
    j ∈ bs.foldl f c ↔ j ∈ c ∨ ∃ b ∈ bs, Q b j := by
  induction bs generalizing c with
  | nil => simp
  | cons b bs ih => rw [List.foldl_cons, ih, hf, List.exists_mem_cons_iff, or_assoc]

/-- Visiting a dirty cell adds its neighbours whose CHG bit is not 1 (R201). -/
theorem mem_visitNeighbors (chg : Memory Bool) (W H : Nat) (cand : List Nat) (i j : Nat) :
    j ∈ visitNeighbors chg W H cand i ↔
      j ∈ cand ∨ ∃ k, chg.alive (nbrIdx W H i k) = false ∧ j = nbrIdx W H i k := by
  have hstep : ∀ (c : List Nat) (k : Fin 8) (j : Nat),
      j ∈ (if chg.alive (nbrIdx W H i k) then c else insertCand (nbrIdx W H i k) c) ↔
        j ∈ c ∨ chg.alive (nbrIdx W H i k) = false ∧ j = nbrIdx W H i k := by
    intro c k j
    split
    · next hk => simp [hk]
    · next hk => rw [mem_insertCand, or_comm, Bool.eq_false_iff.2 hk]; simp
  rw [visitNeighbors, mem_foldl_iff _ _ hstep]
  simp [mem_dirs]

/-- CAND after the dirty pass: the neighbours of dirty cells whose CHG bit is not 1 (R203). -/
theorem mem_updCand (chg : Memory Bool) (W H : Nat) (dirty : List Nat) (j : Nat) :
    j ∈ updCand chg W H dirty ↔
      ∃ i ∈ dirty, ∃ k, chg.alive (nbrIdx W H i k) = false ∧ j = nbrIdx W H i k := by
  rw [updCand, mem_foldl_iff _ _ (mem_visitNeighbors chg W H)]
  simp

theorem passWrites_lt (mode : UpdMode) (rt : BitVec 18) (B : Memory Bool) (W H n : Nat) (is : List Nat)
    (h : ∀ i ∈ is, i < n) : ∀ c ∈ passWrites mode rt B W H is, c.1 < n := by
  simpa [passWrites] using h

/-! ### The cells PPLACE writes -/

/-- Inside the bounds that PPLACE checks, every destination cell lies in the grid (R234). -/
theorem placeWrites_lt (pat : Memory Bool) (pw ph W H px py : Nat) (hx : px + pw ≤ W) (hy : py + ph ≤ H) :
    ∀ c ∈ placeWrites pat pw ph W px py, c.1 < W * H := by
  simp only [placeWrites, List.mem_flatMap, List.mem_map, List.mem_range]
  rintro _ ⟨r, hr, col, hcol, rfl⟩
  exact lin_lt W H (px + col, py + r) (by simp only; omega) (by simp only; omega)

/-! ### The cells PPARSE writes -/

theorem map_fst_numberFrom {α : Type} (i : Nat) (vs : List α) :
    (numberFrom i vs).map Prod.fst = List.range' i vs.length := by
  induction vs generalizing i with
  | nil => rfl
  | cons v vs ih => rw [numberFrom, List.map_cons, ih, List.length_cons, List.range'_succ]

theorem length_patBits (marker : Byte) (kept : List Line) (n : Nat) (h : ∀ l ∈ kept, l.bytes.length = n) :
    (patBits marker kept).length = n * kept.length := by
  induction kept with
  | nil => rfl
  | cons l kept ih =>
    obtain ⟨hl, hkept⟩ := List.forall_mem_cons.1 h
    have hrest := ih hkept
    simp only [patBits, List.flatMap_cons, List.length_append, List.length_map, hl, List.length_cons,
      Nat.mul_succ] at hrest ⊢
    omega

/-- A kept line is not empty (R230). -/
theorem length_pos_of_mem_keptLines (marker : Byte) (txt : List Byte) (l : Line) (h : l ∈ keptLines marker txt) :
    1 ≤ l.bytes.length := by
  have hkept : isKept marker l = true := (List.mem_filter.1 h).2
  cases hb : l.bytes with
  | nil => simp [isKept, hb] at hkept
  | cons => simp

end Sys2Proof.Machine
end

