-- ==== Sys2Proof/Proofs/Invariant.lean ====
section
/-! PROOFS. The invariant of LIFE-CORE holds at power-on and every step keeps it (10_state.md R27 to R33, R40): one lemma
per elementary transition, assembled by `StepClosed`. A transition that writes only some of the invariant's parts hands
the others over unchanged. -/

namespace Sys2Proof.Machine

/-! ### Banks -/

/-- Writes inside the capacity keep a bank in canonical form and inside its capacity. -/
theorem Memory.wf_within_writeMany {α : Type} (m : Memory α) (cs : List (Nat × α)) (cap : Nat)
    (h : m.wf ∧ m.within cap) (hcs : ∀ c ∈ cs, c.1 < cap) :
    (m.writeMany cs).wf ∧ (m.writeMany cs).within cap :=
  ⟨Memory.wf_writeMany m cs h.1, Memory.within_writeMany m cs cap h.2 hcs⟩

/-- After a list of writes the written cells are those the list names and those written before. -/
theorem Memory.isSome_read_writeMany {α : Type} (m : Memory α) (cs : List (Nat × α)) (i : Nat) :
    ((m.writeMany cs).read i).isSome = true ↔ i ∈ cs.map Prod.fst ∨ (m.read i).isSome = true := by
  induction cs generalizing m with
  | nil => simp
  | cons c cs ih =>
    rw [Memory.writeMany_cons, ih, Memory.read_write, List.map_cons, List.mem_cons]
    by_cases hi : i = c.1 <;> simp [hi]

theorem State.BanksOk.buf {s : State} (h : s.BanksOk) (sel : BufSel) :
    (s.buf sel).wf ∧ (s.buf sel).within s.params.cellCap := by
  cases sel
  · exact h.buf0
  · exact h.buf1

theorem State.BanksOk.cells {s : State} (h : s.BanksOk) (b : CellBank) :
    (s.cells b).wf ∧ (s.cells b).within s.params.cellCap := by
  cases b with
  | buf sel => exact h.buf sel
  | chg => exact h.chg

/-- Replacing the cells of one of the three banks of CELL_CAP cells. -/
theorem State.BanksOk.setCells {s : State} (h : s.BanksOk) (b : CellBank) (m : Memory Bool)
    (hm : m.wf ∧ m.within s.params.cellCap) : (s.setCells b m).BanksOk := by
  rcases b with (_ | _) | _
  · exact { h with buf0 := hm }
  · exact { h with buf1 := hm }
  · exact { h with chg := hm }

theorem State.Inv.setCells {s : State} (h : s.Inv) (b : CellBank) (m : Memory Bool)
    (hm : m.wf ∧ m.within s.params.cellCap) : (s.setCells b m).Inv where
  params := by simpa using h.params
  banks := h.banks.setCells b m hm
  flags := by simpa [State.FlagsOk] using h.flags
  tables := by
    obtain ⟨hrt, hnoPat, hpat⟩ := h.tables
    constructor <;> simpa

/-- Writing cells inside the capacity of one of the three banks of CELL_CAP cells. -/
theorem State.Inv.setCells_writeMany {s : State} (h : s.Inv) (b : CellBank) (cs : List (Nat × Bool))
    (hcs : ∀ c ∈ cs, c.1 < s.params.cellCap) : (s.setCells b ((s.cells b).writeMany cs)).Inv :=
  h.setCells b _ (Memory.wf_within_writeMany _ cs _ (h.banks.cells b) hcs)

/-! ### Flags -/

/-- While a command is pending there is no cause, and so neither ERR nor FAULT (R27 to R29). -/
theorem State.FlagsOk.of_busy {s : State} (h : s.FlagsOk) (hbusy : s.status.busy = true) :
    s.status.err = false ∧ s.status.fault = false := by
  unfold State.FlagsOk at h
  split at h
  · obtain ⟨herr, hfault, -⟩ := h
    exact ⟨herr, hfault⟩
  · simp [hbusy] at h
  · simp [hbusy] at h

theorem State.Inv.faultEntry {s : State} (h : s.Inv) (hbusy : s.status.busy = true) (c : FaultCause) (info : Word) :
    (faultEntry s c info).Inv :=
  { h with
    banks := { h.banks with }
    flags := ⟨(h.flags.of_busy hbusy).1, rfl, rfl⟩
    tables := { h.tables with } }

theorem State.Inv.errorEntry {s : State} (h : s.Inv) (hbusy : s.status.busy = true) (e : FormatError) (info : Word) :
    (errorEntry s e info).Inv :=
  { h with
    banks := { h.banks with }
    flags := ⟨rfl, (h.flags.of_busy hbusy).2, rfl⟩
    tables := { h.tables with } }

theorem State.Inv.acceptCommand {s : State} (h : s.Inv) (hfault : s.status.fault = false) (v : Word) :
    (acceptCommand s v).Inv :=
  { h with
    banks := { h.banks with }
    flags := ⟨rfl, hfault, rfl⟩
    tables := { h.tables with } }

/-- Clearing BUSY breaks none of the relations between the flags. -/
theorem State.Inv.commit {s : State} (h : s.Inv) : (commit s).Inv where
  params := h.params
  banks := { h.banks with }
  flags := by
    have hflags := h.flags
    cases hcause : s.status.cause with
    | none =>
      simp only [State.FlagsOk, commit_status, Status.onSuccess, hcause] at hflags ⊢
      exact hflags
    | error | fault =>
      simp only [State.FlagsOk, commit_status, Status.onSuccess, hcause] at hflags ⊢
      obtain ⟨herr, hfault, -⟩ := hflags
      exact ⟨herr, hfault, trivial⟩
  tables := { h.tables with }

/-! ### The host's transitions -/

/-- A reset leaves nothing written, no cause, and neither a rule table nor a pattern (R44). -/
theorem inv_blank (p : Params) (refused : Bool) (host : HostAgent) (sched : List Agent) (draws : Nat)
    (hp : p.legal = true) (hnames : host.names.wf) : (State.blank p refused host sched draws).Inv where
  params := hp
  banks := ⟨⟨.nil, nofun⟩, ⟨.nil, nofun⟩, ⟨.nil, nofun⟩, ⟨.nil, nofun⟩, ⟨.nil, nofun⟩, hnames⟩
  flags := ⟨rfl, rfl, rfl⟩
  tables := ⟨fun _ => rfl, fun _ => ⟨rfl, rfl⟩, nofun⟩

theorem State.Inv.nameResult {s : State} (h : s.Inv) (into : Option Nat) (v : Option Word) :
    (s.nameResult into v).Inv := by
  unfold State.nameResult
  split
  · next n w =>
    exact { h with
      banks := { h.banks with names := Memory.wf_write _ n w h.banks.names }
      tables := { h.tables with } }
  · exact h

theorem State.Inv.afterTurn {s : State} (h : s.Inv) : s.afterTurn.Inv := by
  unfold State.afterTurn
  split
  · exact { h with banks := { h.banks with }, tables := { h.tables with } }
  · exact h

/-- A window write discards the cells at or beyond the capacity (20_memory.md R67). -/
theorem bitWrites_lt (cap w : Nat) (v : Word) : ∀ c ∈ bitWrites cap w v, c.1 < cap :=
  fun _ hc => of_decide_eq_true (List.mem_filter.1 hc).2

theorem byteWrites_lt (cap w : Nat) (v : Word) : ∀ c ∈ byteWrites cap w v, c.1 < cap :=
  fun _ hc => of_decide_eq_true (List.mem_filter.1 hc).2

theorem State.Inv.writeTarget {s : State} (h : s.Inv) (t : Target) (v : Word) : (writeTarget s t v).Inv := by
  cases t with
  | arg i => exact { h with banks := { h.banks with }, tables := { h.tables with } }
  | len b => rcases b with (_ | _) | _ <;> exact { h with banks := { h.banks with }, tables := { h.tables with } }
  | txt w =>
    have htxt := Memory.wf_within_writeMany s.txt _ _ h.banks.txt (byteWrites_lt s.params.txtCap w v)
    exact { h with banks := { h.banks with txt := htxt }, tables := { h.tables with } }
  | cells b w => exact h.setCells_writeMany b _ (bitWrites_lt _ w v)
  | _ => exact h

/-! ### The staged writes of the commands -/

theorem State.Inv.setRes {s : State} (h : s.Inv) (i : Fin 8) (v : Word) : (s.setRes i v).Inv :=
  { h with banks := { h.banks with }, tables := { h.tables with } }

theorem State.Inv.rcompStage {s : State} (h : s.Inv) : (rcompStage s).Inv :=
  { h with
    banks := { h.banks with }
    tables := { h.tables with rt := nofun } }

/-- Both passes of UPD write cells of the grid, so a target bank that holds the grid stays in form (44_update_engine.md
R201). -/
theorem updTarget_wf_within (mode : UpdMode) (rt : BitVec 18) (world chg target : Memory Bool) (W H cap : Nat)
    (hW : 1 ≤ W) (hH : 1 ≤ H) (hcap : W * H ≤ cap) (h : target.wf ∧ target.within cap) :
    (updTarget mode rt world chg target W H).wf ∧ (updTarget mode rt world chg target W H).within cap := by
  have hdirty : ∀ i ∈ updDirty chg (W * H), i < cap := fun i hi =>
    Nat.lt_of_lt_of_le ((mem_updDirty chg _ i).1 hi).1 hcap
  have hcand : ∀ j ∈ updCand chg W H (updDirty chg (W * H)), j < cap := by
    intro j hj
    obtain ⟨i, -, k, -, rfl⟩ := (mem_updCand ..).1 hj
    exact Nat.lt_of_lt_of_le (nbrIdx_lt W H i k hW hH) hcap
  refine Memory.wf_within_writeMany _ _ cap (Memory.wf_within_writeMany target _ cap h ?_) ?_
  · exact passWrites_lt mode rt world W H cap _ hdirty
  · exact passWrites_lt mode rt world W H cap _ hcand

theorem State.Inv.updStage {s : State} (h : s.Inv) (mode : UpdMode) (sel : BufSel) (hstop : updStop mode sel s = none) :
    (updStage mode sel s).Inv := by
  obtain ⟨hW, hH, hcap⟩ := grid_of_updStop_eq_none mode sel s hstop
  have htarget := updTarget_wf_within mode s.rt (s.buf sel) s.chg _ _ _ _ hW hH hcap (h.banks.buf sel.other)
  exact ((h.setCells (.buf sel.other) _ htarget).setRes 0 _).setRes 1 _

/-- PPLACE writes cells of the grid, which fits the buffer and so CELL_CAP (45_pattern.md R234). -/
theorem State.Inv.pplaceStage {s : State} (h : s.Inv) (sel : BufSel) (hstop : pplaceStop sel s = none) :
    (pplaceStage sel s).Inv := by
  obtain ⟨-, -, -, -, hcap, hlen, hx, hy⟩ := (pplaceStop_eq_none sel s).1 hstop
  refine h.setCells_writeMany (.buf sel) _ fun c hc => ?_
  exact Nat.lt_of_lt_of_le (placeWrites_lt _ _ _ _ _ _ _ hx hy c hc) (hlen.trans hcap)

theorem patCap_le_of_legal (p : Params) (h : p.legal = true) : p.patCap ≤ 2 ^ 24 := by
  simp only [Params.legal, Params.patCapOk, Bool.and_eq_true, decide_eq_true_eq] at h
  obtain ⟨⟨-, -, hpat⟩, -⟩ := h
  exact hpat

/-- After its checks PPARSE has a footprint of at least 1×1 inside PAT_CAP, and as many pattern bits (R231, R232). -/
theorem footprint_of_pparseStop_eq_none (s : State) (hstop : pparseStop s = none) :
    ∃ pw ph, patFootprint (keptLines s.params.commentMarker s.text) = (pw, ph) ∧
      (patBits s.params.aliveMarker (keptLines s.params.commentMarker s.text)).length = pw * ph ∧
      1 ≤ pw ∧ 1 ≤ ph ∧ pw * ph ≤ s.params.patCap := by
  have htext : patternTextStop s.params (s.argNat 0) s.text = none := by
    unfold pparseStop at hstop
    split at hstop
    · simp at hstop
    · exact hstop
  obtain ⟨l, rest, hkept, hrows, hcap⟩ := (patternTextStop_eq_none ..).1 htext
  have hl : l ∈ keptLines s.params.commentMarker s.text := by simp [hkept]
  exact ⟨l.bytes.length, (l :: rest).length, by rw [hkept]; rfl, by rw [hkept, length_patBits _ _ _ hrows],
    length_pos_of_mem_keptLines _ _ l hl, by simp, hcap⟩

/-- PPARSE writes every cell of its footprint, and the footprint fits PAT_CAP (R40). -/
theorem State.Inv.pparseStage {s : State} (h : s.Inv) (hstop : pparseStop s = none) : (pparseStage s).Inv := by
  obtain ⟨pw, ph, hfoot, hbits, hpw, hph, hcap⟩ := footprint_of_pparseStop_eq_none s hstop
  have hpatCap := patCap_le_of_legal s.params h.params
  have hpwLe : pw ≤ pw * ph := Nat.le_mul_of_pos_right pw hph
  have hphLe : ph ≤ pw * ph := Nat.le_mul_of_pos_left ph hpw
  have hpwN : (wordOfNat pw).toNat = pw := toNat_wordOfNat pw (by omega)
  have hphN : (wordOfNat ph).toNat = ph := toNat_wordOfNat ph (by omega)
  have hcells : ∀ i, i ∈ (numberFrom 0 (patBits s.params.aliveMarker (keptLines s.params.commentMarker s.text))).map
      Prod.fst ↔ i < pw * ph := by
    simp [map_fst_numberFrom, hbits]
  have hpat := Memory.wf_within_writeMany s.pat _ _ h.banks.pat fun c hc =>
    Nat.lt_of_lt_of_le ((hcells c.1).1 (List.mem_map_of_mem hc)) hcap
  exact { h with
    banks := { h.banks with pat := hpat }
    tables := { h.tables with
      noPat := nofun
      pat := fun _ => by
        simp only [Machine.pparseStage, State.setRes_patW, State.setRes_patH, State.setRes_params, State.setRes_pat,
          hfoot, hpwN, hphN]
        exact ⟨hpw, hph, hcap, fun i hi => (Memory.isSome_read_writeMany ..).2 (.inl ((hcells i).2 hi))⟩ } }

theorem State.Inv.stageOf {s : State} (h : s.Inv) (i : Instr) (hstop : stopOf i s = none) : (stageOf i s).Inv := by
  cases i with
  | nbr => exact { h with banks := { h.banks with }, tables := { h.tables with } }
  | rcomp => exact h.rcompStage
  | upd mode sel => exact h.updStage mode sel hstop
  | pparse => exact h.pparseStage hstop
  | pplace sel => exact h.pplaceStage sel hstop
  | rquery | renc | nenc | llook | llogic => exact h.setRes 0 _
  | rdec | ndec | pcenter => exact (h.setRes 0 _).setRes 1 _

/-! ### Power-on and steps -/

/-- Settles O13: the state after power-on is the record of R44 with legal parameters and a host that has named nothing. -/
theorem invAtReset : Obligations.InvAtReset :=
  inv_blank Params.reference false { prog := [], names := [] } [] 0 (by decide) List.Pairwise.nil

theorem stepClosed_inv : StepClosed State.Inv where
  afterTurn _ h := h.afterTurn
  withProg _ _ h := { h with banks := { h.banks with }, tables := { h.tables with } }
  nameResult _ into v h := h.nameResult into v
  draw _ h := { h with banks := { h.banks with }, tables := { h.tables with } }
  markRefused _ h := { h with banks := { h.banks with }, tables := { h.tables with } }
  resetBlock _ h := inv_blank _ _ _ _ _ h.params h.banks.names
  writeTarget _ t v h := h.writeTarget t v
  acceptCommand _ v hfault h := h.acceptCommand hfault v
  faultEntry _ c info hbusy h := h.faultEntry hbusy c info
  errorEntry _ e info hbusy h := h.errorEntry hbusy e info
  success i _ hstop h := (h.stageOf i hstop).commit

/-- Settles O12: every elementary transition keeps the invariant, so every step does. -/
theorem everyStepKeepsInv : Obligations.EveryStepKeepsInv :=
  fun s t hs h => stepClosed_inv.of_step s t hs h

end Sys2Proof.Machine
end

