-- ==== Sys2Proof/Proofs/PatternReads.lean ====
section
/-! PROOFS. The stops of the model: which of them a command, a block step, a host step and an idle machine can reach
(log entries 6, 8, 9), and that under the invariant a command has none (00_scope.md R14, 20_memory.md R71). -/

namespace Sys2Proof.Machine

/-- R30, R40: once the checks of PPLACE have passed there is a pattern, and the invariant has all its cells written. -/
theorem State.Inv.firstUnwritten_pat {s : State} (h : s.Inv) (sel : BufSel) (hstop : pplaceStop sel s = none) :
    s.pat.firstUnwritten 0 (s.patW.toNat * s.patH.toNat) = none := by
  obtain ⟨-, -, -, hvalid, -⟩ := (pplaceStop_eq_none sel s).1 hstop
  obtain ⟨-, -, -, hwritten⟩ := h.tables.pat hvalid
  exact (Memory.firstUnwritten_eq_none ..).2 fun i _ hi => hwritten i (by omega)

/-- Under the invariant every command answers a next state. -/
theorem State.Inv.exec_eq_next {s : State} (h : s.Inv) (i : Instr) : ∃ t, exec i s = .next t := by
  cases hstop : stopOf i s with
  | some e => exact ⟨_, exec_of_some i s e hstop⟩
  | none =>
    refine ⟨_, exec_of_none i s hstop fun sel hi => h.firstUnwritten_pat sel ?_⟩
    subst hi
    exact hstop

theorem State.Inv.blockStep_eq_next {s : State} (h : s.Inv) : ∃ t, blockStep s = .next t := by
  cases hd : decode s.cmd with
  | error _ => exact ⟨illegalCommand s, by simp [blockStep, hd]⟩
  | ok i => exact blockStep_of_decode s i hd ▸ h.exec_eq_next i

/-- A host step stops only on a write of a name that no read has set (log entry 8). -/
theorem hostStep_eq_fault (s : State) (r : Fault) (h : hostStep s = .fault r) : ∃ n, r = .hostNameUnset n := by
  cases hprog : s.host.prog with
  | nil => simp [hostStep, hprog] at h
  | cons stmt rest =>
    cases stmt with
    | wr bits a v =>
      cases hv : v.eval s.host.names with
      | error n =>
        have hr : Fault.hostNameUnset n = r := by
          simpa [hostStep, hprog, hostWr, State.withProg, hv] using h
        exact ⟨n, hr.symm⟩
      | ok w => simp [hostStep, hprog, hostWr, State.withProg, hv] at h
    | rd bits a into => simp [hostStep, hprog] at h
    | wait => simp [hostStep, hprog] at h

theorem noStep_eq_fault (s : State) (r : Fault) (h : noStep s = .fault r) : r = .halted := by
  unfold noStep at h
  split at h
  · exact (Host.Outcome.fault.inj h).symm
  · simp at h

/-- Settles O14: under the invariant the block step stops nowhere, and the other two kinds of step stop for other
reasons. -/
theorem noReadOfUnwrittenPattern : Obligations.NoReadOfUnwrittenPattern := by
  intro s i hs h
  obtain ⟨-, -, hstep⟩ | ⟨-, -, hstep⟩ | ⟨-, -, -, hstep⟩ := step_cases s <;> rw [hstep] at h
  · obtain ⟨t, ht⟩ := hs.afterTurn.blockStep_eq_next
    simp [ht] at h
  · obtain ⟨n, hn⟩ := hostStep_eq_fault _ _ h
    simp at hn
  · simpa using noStep_eq_fault s _ h

end Sys2Proof.Machine
end

