-- ==== Sys2Proof/Proofs/AddressMap.lean ====
section
/-! PROOFS. The host address map (20_memory.md R62): a target inside its window stands at its byte address, and an address
R62 does not list names nothing; then what a host access to the address of a target reaches outside BUSY. -/

namespace Sys2Proof.Machine

open Sys2Proof.Claims

/-! ### The ranges of the capacities (00_scope.md R7) -/

theorem cellCap_le_of_legal (p : Params) (h : p.legal = true) : p.cellCap ≤ 2 ^ 24 := by
  simp only [Params.legal, Params.cellCapOk, Bool.and_eq_true, decide_eq_true_eq] at h
  obtain ⟨⟨⟨⟨-, hcell⟩, -⟩, -⟩, -⟩ := h
  exact hcell

theorem txtCap_le_of_legal (p : Params) (h : p.legal = true) : p.txtCap ≤ 2 ^ 20 := by
  simp only [Params.legal, Params.txtCapOk, Bool.and_eq_true, decide_eq_true_eq] at h
  obtain ⟨⟨⟨-, -, htxt⟩, -⟩, -⟩ := h
  exact htxt

/-! ### Targets and their addresses -/

/-- R62 lists the target: every register, and the words below a window's bound. -/
def Target.Mapped (p : Params) : Target → Prop
  | .txt w => w < ceilDiv p.txtCap 4
  | .pat w => w < ceilDiv p.patCap 32
  | .cells _ w => w < ceilDiv p.cellCap 32
  | .cmd | .status | .ctrl | .finfo | .arg _ | .res _ | .len _ | .patW | .patH | .rtbl | .capCell | .capTxt | .capPat =>
    True

/-- The largest legal capacity just fills the window's slot. -/
theorem Target.Mapped.inSlot {p : Params} {t : Target} (h : t.Mapped p) (hp : p.legal = true) : t.inSlot = true := by
  have hcell := cellCap_le_of_legal p hp
  have htxt := txtCap_le_of_legal p hp
  have hpat := patCap_le_of_legal p hp
  cases t with
  | txt w | pat w => simp only [Target.Mapped, ceilDiv] at h; simp only [Target.inSlot, decide_eq_true_eq]; omega
  | cells b w =>
    cases b <;> (simp only [Target.Mapped, ceilDiv] at h; simp only [Target.inSlot, decide_eq_true_eq]; omega)
  | _ => rfl

theorem Target.byteAddr_mod_four (t : Target) : t.byteAddr % 4 = 0 := by
  unfold Target.byteAddr
  split <;> omega

theorem byteAddr_cells (b : CellBank) (w : Nat) : (Target.cells b w).byteAddr = windowBase b + 4 * w := by
  rcases b with (_ | _) | _ <;> rfl

/-! ### The address map -/

/-- The byte address of word `w` leads back to word `w`. -/
theorem windowAt_word (n base w : Nat) (t : Nat → Target) (h : w < n) :
    windowAt n ((base + 4 * w - base) / 4) t = some (t w) := by
  rw [Nat.add_sub_cancel_left, Nat.mul_div_cancel_left w (by decide), windowAt, if_pos h]

theorem windowAt_eq_none (n w : Nat) (t : Nat → Target) (h : n ≤ w) : windowAt n w t = none :=
  if_neg (Nat.not_lt.2 h)

/-- No register stands past CAP_PAT, at word 24. -/
theorem registerAt_eq_none (k : Nat) (h : 25 ≤ k) : registerAt k = none := by
  obtain ⟨j, rfl⟩ := Nat.exists_eq_add_of_le' h
  rfl

/-- Every target that R62 lists stands at its byte address: for a window word the other branches of `targetAt` are the
slots its address does not lie in. -/
theorem targetAt_byteAddr (p : Params) (hp : p.legal = true) (t : Target) (h : t.Mapped p) :
    targetAt p t.byteAddr = some t := by
  have hslot := h.inSlot hp
  cases t with
  | txt w | pat w =>
    simp only [Target.inSlot, decide_eq_true_eq] at hslot
    rw [Target.byteAddr, targetAt]
    split_ifs
    any_goals omega
    exact windowAt_word _ _ _ _ h
  | cells b w =>
    rcases b with (_ | _) | _
    all_goals
      simp only [Target.inSlot, decide_eq_true_eq] at hslot
      rw [Target.byteAddr, targetAt]
      split_ifs
      any_goals omega
      exact windowAt_word _ _ _ _ h
  | arg i | res i => fin_cases i <;> rfl
  | len b => rcases b with (_ | _) | _ <;> rfl
  | _ => rfl

/-- An address that R62 does not list is past the last register or past the last word of the window in whose slot it
lies. -/
theorem targetAt_of_unlisted (p : Params) (a : Nat) (h : Unlisted p a) : targetAt p a = none := by
  unfold targetAt
  split_ifs
  · exact registerAt_eq_none _ (by omega)
  all_goals exact windowAt_eq_none _ _ _ (by unfold ceilDiv; omega)

/-- Settles O21: each target that R62 lists stands at its byte address, and no other address names one. -/
theorem addressMap : Obligations.AddressMap := by
  intro p hp
  have h := targetAt_byteAddr p hp
  refine ⟨⟨h .cmd trivial, h .status trivial, h .ctrl trivial, h .finfo trivial, fun i => h (.arg i) trivial,
    fun k => h (.res k) trivial, h (.len (.buf .s0)) trivial, h (.len (.buf .s1)) trivial, h (.len .chg) trivial,
    h .patW trivial, h .patH trivial, h .rtbl trivial, h .capCell trivial, h .capTxt trivial, h .capPat trivial⟩,
    fun w hw => h (.txt w) hw, fun w hw => h (.pat w) hw, fun b w hw => ?_, targetAt_of_unlisted p⟩
  rw [← byteAddr_cells]
  exact h (.cells b w) hw

/-! ### Accesses to the address of a target -/

/-- A 32-bit access to the byte address of a target that R62 lists reaches it. -/
theorem accessTarget_byteAddr (p : Params) (hp : p.legal = true) (t : Target) (h : t.Mapped p) :
    accessTarget p 32 (BitVec.ofNat 24 t.byteAddr) = some t := by
  have hslot := h.inSlot hp
  have haddr : t.addr = BitVec.ofNat 24 t.byteAddr := if_pos hslot
  have hnat : (BitVec.ofNat 24 t.byteAddr).toNat = t.byteAddr := haddr ▸ toNat_addr_of_inSlot t hslot
  simp [accessTarget, accessWidthOk, accessAligned, hnat, t.byteAddr_mod_four, targetAt_byteAddr p hp t h]

/-- Outside BUSY a write that reaches a target other than CMD and CTRL writes what it names (R64, R65). -/
theorem hostWrite_byteAddr (s : State) (t : Target) (v : Word) (hp : s.params.legal = true)
    (hbusy : s.status.busy = false) (h : t.Mapped s.params) (hcmd : t ≠ .cmd) (hctrl : t ≠ .ctrl) :
    hostWrite s 32 (BitVec.ofNat 24 t.byteAddr) v = writeTarget s t v := by
  rw [hostWrite, accessTarget_byteAddr s.params hp t h]
  cases t with
  | cmd => exact absurd rfl hcmd
  | ctrl => exact absurd rfl hctrl
  | _ => simp [writeAccess, hbusy]

end Sys2Proof.Machine
end

