-- ==== Sys2Proof/Proofs/WindowWrites.lean ====
section
/-! PROOFS. Host writes outside BUSY (20_memory.md R64, R65, R67): what a write to a read-only register, to the PAT window,
to a bit window and to the TXT window does to every cell. -/

namespace Sys2Proof.Machine

open Sys2Proof.Claims

/-! ### Read-only targets (R65) -/

/-- The registers of `readOnlyAddrs`, in its order. -/
def readOnlyRegisters : List Target :=
  [.status, .finfo, .res 0, .res 1, .res 2, .res 3, .res 4, .res 5, .res 6, .res 7, .patW, .patH, .rtbl, .capCell,
    .capTxt, .capPat]

theorem map_byteAddr_readOnlyRegisters : readOnlyRegisters.map Target.byteAddr = readOnlyAddrs := rfl

theorem hostWrite_readOnlyRegister (s : State) (t : Target) (v : Word) (hp : s.params.legal = true)
    (hbusy : s.status.busy = false) (ht : t ∈ readOnlyRegisters) :
    hostWrite s 32 (BitVec.ofNat 24 t.byteAddr) v = s := by
  have hkind : t.Mapped s.params ∧ t ≠ .cmd ∧ t ≠ .ctrl ∧ writeTarget s t v = s := by
    revert t
    simp [readOnlyRegisters, Target.Mapped, writeTarget]
  obtain ⟨hmapped, hcmd, hctrl, hignored⟩ := hkind
  rw [hostWrite_byteAddr s t v hp hbusy hmapped hcmd hctrl, hignored]

/-- Settles O23: the addresses are those of the read-only registers and of the PAT words, whose writes are ignored. -/
theorem readOnlyWritesIgnored : Obligations.ReadOnlyWritesIgnored := by
  refine fun s v hp hbusy => ⟨fun a ha => ?_, fun w hw => ?_⟩
  · rw [← map_byteAddr_readOnlyRegisters] at ha
    obtain ⟨t, ht, rfl⟩ := List.mem_map.1 ha
    exact hostWrite_readOnlyRegister s t v hp hbusy ht
  · exact hostWrite_byteAddr s (.pat w) v hp hbusy hw nofun nofun

/-! ### The cells a window write makes written (R67) -/

/-- The writes of word `w` of a window of `n` cells per word, cell `q` of the word getting `f q`: those at or beyond the
capacity are discarded. -/
def wordWrites {α : Type} (n cap w : Nat) (f : Nat → α) : List (Nat × α) :=
  ((List.range n).map fun q => (n * w + q, f q)).filter fun c => decide (c.1 < cap)

theorem bitWrites_eq_wordWrites (cap w : Nat) (v : Word) : bitWrites cap w v = wordWrites 32 cap w v.getLsbD := rfl

theorem byteWrites_eq_wordWrites (cap w : Nat) (v : Word) : byteWrites cap w v = wordWrites 4 cap w (byteOfWord v) := rfl

theorem mem_wordWrites {α : Type} (n cap w : Nat) (f : Nat → α) (c : Nat × α) :
    c ∈ wordWrites n cap w f ↔ (n * w ≤ c.1 ∧ c.1 < n * w + n ∧ c.1 < cap) ∧ c.2 = f (c.1 - n * w) := by
  simp only [wordWrites, List.mem_filter, List.mem_map, List.mem_range, decide_eq_true_eq]
  constructor
  · rintro ⟨⟨q, hq, rfl⟩, hcap⟩
    exact ⟨⟨Nat.le_add_right _ _, Nat.add_lt_add_left hq _, hcap⟩, by rw [Nat.add_sub_cancel_left]⟩
  · rintro ⟨⟨hlow, hhigh, hcap⟩, hvalue⟩
    refine ⟨⟨c.1 - n * w, by omega, ?_⟩, hcap⟩
    rw [← hvalue, Nat.add_sub_cancel' hlow]

/-- After a window write the cells of the word below the capacity hold its values, and every other cell is as before. -/
theorem Memory.read_writeMany_wordWrites {α : Type} (m : Memory α) (n cap w : Nat) (f : Nat → α) (j : Nat) :
    (m.writeMany (wordWrites n cap w f)).read j =
      if n * w ≤ j ∧ j < n * w + n ∧ j < cap then some (f (j - n * w)) else m.read j := by
  split
  · next hj =>
    refine Memory.read_writeMany_of m _ (fun i => f (i - n * w)) (fun c hc => ((mem_wordWrites ..).1 hc).2) j ?_
    exact ⟨(j, f (j - n * w)), (mem_wordWrites ..).2 ⟨hj, rfl⟩, rfl⟩
  · next hj =>
    refine Memory.read_writeMany_other m _ j fun c hc hcj => hj ?_
    exact hcj ▸ ((mem_wordWrites ..).1 hc).1

/-- Byte `q` of a word in plain arithmetic: the least significant byte is byte 0. -/
theorem byteOfWord_eq_ofNat (v : Word) (q : Nat) : byteOfWord v q = BitVec.ofNat 8 (v.toNat / 256 ^ q) := by
  rw [byteOfWord, BitVec.extractLsb', Nat.shiftRight_eq_div_pow, Nat.pow_mul]

/-- Settles O25: the write stages `bitWrites`, a word of 32 cells. -/
theorem bitWindowWrite : Obligations.BitWindowWrite := by
  intro s b w v hp hbusy hw
  refine ⟨(s.cells b).writeMany (bitWrites s.params.cellCap w v), fun j => ?_, ?_⟩
  · rw [bitWrites_eq_wordWrites, Memory.read_writeMany_wordWrites]
  · rw [← byteAddr_cells]
    exact hostWrite_byteAddr s (.cells b w) v hp hbusy hw nofun nofun

/-- Settles O26: the write stages `byteWrites`, a word of 4 bytes. -/
theorem textWindowWrite : Obligations.TextWindowWrite := by
  intro s w v hp hbusy hw
  refine ⟨s.txt.writeMany (byteWrites s.params.txtCap w v), fun j => ?_, ?_⟩
  · rw [byteWrites_eq_wordWrites, Memory.read_writeMany_wordWrites, byteOfWord_eq_ofNat]
  · exact hostWrite_byteAddr s (.txt w) v hp hbusy hw nofun nofun

end Sys2Proof.Machine
end

