-- ==== Sys2Proof/Proofs/Encoding.lean ====
section
/-! PROOFS. Command words (30_encoding.md R90, R91, R94, R106): a word is its four fields, a word that decodes to a command
has the fields of that command's word, and so decode and encode agree; then issue, which validates nothing (R95), and the
fault of an illegal word once it is executed. -/

namespace Sys2Proof.Machine

open Sys2Proof.Claims

/-! ### The four fields of a word (R90) -/

theorem modeField_eq_rt (w : Word) : modeField w = .rt ↔ ¬ w.getLsbD 8 = true := by
  unfold modeField
  split
  · next h => exact iff_of_false nofun (not_not_intro h)
  · next h => exact iff_of_true rfl h

theorem selField_eq_s0 (w : Word) : selField w = .s0 ↔ ¬ w.getLsbD 9 = true := by
  unfold selField
  split
  · next h => exact iff_of_false nofun (not_not_intro h)
  · next h => exact iff_of_true rfl h

theorem getLsbD_eight_of_modeField_eq (v w : Word) (h : modeField v = modeField w) : v.getLsbD 8 = w.getLsbD 8 := by
  rw [Bool.eq_iff_iff, ← not_iff_not, ← modeField_eq_rt, ← modeField_eq_rt, h]

theorem getLsbD_nine_of_selField_eq (v w : Word) (h : selField v = selField w) : v.getLsbD 9 = w.getLsbD 9 := by
  rw [Bool.eq_iff_iff, ← not_iff_not, ← selField_eq_s0, ← selField_eq_s0, h]

/-- The four fields cover all 32 bits of a word. -/
theorem word_eq_of_fields_eq (v w : Word) (hopc : opcField v = opcField w) (hmode : modeField v = modeField w)
    (hsel : selField v = selField w) (hres : reservedField v = reservedField w) : v = w := by
  have hlow : v.extractLsb' 0 8 = w.extractLsb' 0 8 := BitVec.eq_of_toNat_eq hopc
  have hhigh : v.extractLsb' 10 22 = w.extractLsb' 10 22 := BitVec.eq_of_toNat_eq hres
  refine BitVec.eq_of_getLsbD_eq fun b hb => ?_
  obtain h | rfl | rfl | h : b < 8 ∨ b = 8 ∨ b = 9 ∨ 10 ≤ b := by omega
  · simpa [BitVec.getLsbD_extractLsb', h] using congrArg (·.getLsbD b) hlow
  · exact getLsbD_eight_of_modeField_eq v w hmode
  · exact getLsbD_nine_of_selField_eq v w hsel
  · have hlt : b - 10 < 22 := by omega
    simpa [BitVec.getLsbD_extractLsb', hlt, Nat.add_sub_cancel' h] using congrArg (·.getLsbD (b - 10)) hhigh

/-! ### Decode and encode -/

theorem decode_encode (i : Instr) : decode (encode i) = .ok i := by
  cases i with
  | upd mode sel => cases mode <;> cases sel <;> rfl
  | pplace sel => cases sel <;> rfl
  | _ => rfl

/-- A chain of checks succeeds exactly where its first check passes and the rest succeeds. -/
theorem check_eq_ok {ε α : Type} (c : Prop) [Decidable c] (e : ε) (rest : Except ε α) (a : α) :
    (if c then .error e else rest) = .ok a ↔ ¬ c ∧ rest = .ok a := by
  split <;> simp [*]

/-- R94: a word decodes to what its OPC names where its reserved bits are 0, MODE is 0 but for UPD, and SEL is 0 but for
UPD and PPLACE. -/
theorem decode_eq_ok (w : Word) (i : Instr) :
    decode w = .ok i ↔ reservedField w = 0 ∧ (opcField w ≠ 0x40 → modeField w = .rt) ∧
      (opcField w ≠ 0x40 → opcField w ≠ 0x51 → selField w = .s0) ∧ decodeOpcode w = .ok i := by
  rw [decode, check_eq_ok, check_eq_ok, check_eq_ok, not_ne_iff, modeField_eq_rt, selField_eq_s0]
  tauto

/-- UPD has both fields, PPLACE has SEL, and every other command has MODE = 0 and SEL = 0 (R92, R93). -/
theorem fields_eq_of_decodeOpcode (w : Word) (i : Instr) (hmode : opcField w ≠ 0x40 → modeField w = .rt)
    (hsel : opcField w ≠ 0x40 → opcField w ≠ 0x51 → selField w = .s0) (h : decodeOpcode w = .ok i) :
    opcField w = opcField (encode i) ∧ modeField w = modeField (encode i) ∧ selField w = selField (encode i) := by
  by_cases hupd : opcField w = 0x40
  · obtain rfl : .upd (modeField w) (selField w) = i := by simpa [decodeOpcode, hupd] using h
    rw [hupd]
    cases modeField w <;> cases selField w <;> decide
  by_cases hpplace : opcField w = 0x51
  · obtain rfl : .pplace (selField w) = i := by simpa [decodeOpcode, hpplace] using h
    rw [hpplace, hmode hupd]
    cases selField w <;> decide
  unfold decodeOpcode at h
  split at h
  any_goals contradiction
  all_goals
    next hopc =>
    obtain rfl := Except.ok.inj h
    rw [hopc, hmode hupd, hsel hupd hpplace]
    decide

theorem reservedField_encode (i : Instr) : reservedField (encode i) = 0 :=
  ((decode_eq_ok _ i).1 (decode_encode i)).1

/-- Settles O1: a word that decodes to a command agrees with that command's word in all four fields, so it is that word. -/
theorem decodeMeetsEncode : Obligations.DecodeMeetsEncode := by
  refine fun w i => ⟨fun h => ?_, fun h => h ▸ decode_encode i⟩
  obtain ⟨hres, hmode, hsel, hop⟩ := (decode_eq_ok w i).1 h
  obtain ⟨hopc, hmode', hsel'⟩ := fields_eq_of_decodeOpcode w i hmode hsel hop
  exact word_eq_of_fields_eq w (encode i) hopc hmode' hsel' (hres.trans (reservedField_encode i).symm)

theorem wordOf_encode (i : Instr) : WordOf i (encode i) := ⟨decode_encode i, rfl⟩

/-- Settles O2: the seventeen words are those that `encode` gives. -/
theorem tableWordsDecode : Obligations.TableWordsDecode :=
  ⟨⟨wordOf_encode .nbr, wordOf_encode .rcomp, wordOf_encode .rquery, wordOf_encode .renc, wordOf_encode .rdec,
      wordOf_encode .nenc, wordOf_encode .ndec, wordOf_encode .llook, wordOf_encode .llogic⟩,
    wordOf_encode (.upd .rt .s0), wordOf_encode (.upd .lut .s0), wordOf_encode (.upd .rt .s1),
    wordOf_encode (.upd .lut .s1), wordOf_encode .pparse, wordOf_encode (.pplace .s0), wordOf_encode (.pplace .s1),
    wordOf_encode .pcenter⟩

/-! ### Illegal words (R94) -/

theorem legalCommand_encode : (i : Instr) → legalCommand (encode i) = true
  | .nbr => Laws.LegalWord.nbr
  | .rcomp => Laws.LegalWord.rcomp
  | .rquery => Laws.LegalWord.rquery
  | .renc => Laws.LegalWord.renc
  | .rdec => Laws.LegalWord.rdec
  | .nenc => Laws.LegalWord.nenc
  | .ndec => Laws.LegalWord.ndec
  | .llook => Laws.LegalWord.llook
  | .llogic => Laws.LegalWord.llogic
  | .upd mode sel => Laws.LegalWord.upd mode sel
  | .pparse => Laws.LegalWord.pparse
  | .pplace sel => Laws.LegalWord.pplace sel
  | .pcenter => Laws.LegalWord.pcenter

/-- Executing an illegal word faults: were it to decode, it would be the word of a command, which is legal. -/
theorem blockStep_of_not_legalCommand (s : State) (h : legalCommand s.cmd = false) :
    blockStep s = .next (faulted s .illegalCommand s.cmd) := by
  unfold blockStep
  cases hd : decode s.cmd with
  | error e => rfl
  | ok i =>
    rw [(decodeMeetsEncode s.cmd i).1 hd, legalCommand_encode] at h
    exact absurd h (by decide)

/-! ### Issue (R95) -/

theorem accessTarget_cmd (p : Params) : accessTarget p 32 0x000000#24 = some .cmd := rfl

/-- A 32-bit write to address 0 is issue, whatever the flags are. -/
theorem hostWrite_cmd (s : State) (v : Word) : hostWrite s 32 0x000000#24 v = issue s 0x000000#24 v := by
  simp [hostWrite, accessTarget_cmd, writeAccess]

/-- Settles O19: a write to CMD is issue, whose three branches are those of R95, and the word it accepts is the one the
block executes. -/
theorem issueRule : Obligations.IssueRule := by
  refine fun s v => ⟨fun hfault => ?_, fun hfault hbusy => ?_, fun hfault hbusy => ?_⟩
  · rw [hostWrite_cmd, issue, if_pos hfault]
  · simp [hostWrite_cmd, issue, hfault, hbusy, busyFault, faultEntry_eq_faulted]
  · have haccept : hostWrite s 32 0x000000#24 v = acceptCommand s v := by
      simp [hostWrite_cmd, issue, hfault, hbusy]
    rw [haccept]
    exact ⟨rfl, fun hillegal => blockStep_of_not_legalCommand (acceptCommand s v) hillegal⟩

end Sys2Proof.Machine
end

