-- ==== Sys2Proof/Proofs/ReservedOperands.lean ====
section
/-! PROOFS. The reserved-bit check (30_encoding.md R97, R98): a command ends with the failure that its operand fields give,
before any other check; NENC checks its length first (42_neighborhood_codec.md R172). -/

namespace Sys2Proof.Machine

open Sys2Proof.Claims

/-- A 32-bit operand has no reserved bit. -/
theorem reservedStop_append_full (s : State) (fs : List (Fin 4 × Nat)) (i : Fin 4) :
    reservedStop s (fs ++ [(i, 32)]) = reservedStop s fs := by
  induction fs with
  | nil => exact if_pos s.arg[i].isLt
  | cons f fs ih => simp only [List.cons_append, reservedStop, ih]

theorem gridOperandStop_of_reservedStop (s : State) (fs : List (Fin 4 × Nat)) (e : Stop)
    (h : reservedStop s fs = some e) : gridOperandStop s fs = some e := by
  simp [gridOperandStop, h]

/-- R98: the reserved-bit check comes before every other check of a command. -/
theorem stopOf_of_reservedStop (i : Instr) (s : State) (e : Stop) (h : reservedStop s (operandFields i) = some e) :
    stopOf i s = some e := by
  cases i with
  | nbr => exact gridOperandStop_of_reservedStop s _ e h
  | upd mode sel =>
    have hgrid := gridOperandStop_of_reservedStop s gridFields e h
    simp [stopOf, updStop, hgrid]
  | pplace sel =>
    have hgrid := gridOperandStop_of_reservedStop s gridPosFields e h
    simp [stopOf, pplaceStop, hgrid]
  | pcenter =>
    have hgrid := gridOperandStop_of_reservedStop s gridFields e h
    simp [stopOf, pcenterStop, hgrid]
  | rquery =>
    have hstatus : reservedStop s [(0, statusBits)] = some e := (reservedStop_append_full s [(0, 1)] 1).symm.trans h
    simp [stopOf, rqueryStop, hstatus]
  | renc => exact (reservedStop_append_full s [(0, 1)] 1).symm.trans h
  | rdec | ndec | llook | llogic => exact h
  | rcomp | pparse =>
    have hfit : reservedStop s [(0, 32), (1, 32)] = none :=
      (reservedStop_append_full s [(0, 32)] 1).trans (reservedStop_append_full s [] 0)
    exact absurd (hfit.symm.trans h) nofun
  | nenc =>
    have hfit : reservedStop s [(0, 32)] = none := reservedStop_append_full s [] 0
    exact absurd (hfit.symm.trans h) nofun

/-- Settles O29: the first field that does not fit is the failure of the reserved-bit check, which every command makes
first; NENC makes it after its length check. -/
theorem reservedOperandBits : Obligations.ReservedOperandBits := by
  refine ⟨fun i s before after j bits hfields hbefore hj => ?_, fun s => ⟨fun hlen => ?_, fun hlen hcode => ?_⟩⟩
  · have hstop := reservedStop_append s before after j bits hbefore hj
    rw [← hfields] at hstop
    exact exec_of_some i s _ (stopOf_of_reservedStop i s _ hstop)
  · exact exec_of_some .nenc s _ (if_pos hlen)
  · have hstop : stopOf .nenc s = reservedStop s [(1, codeBits)] := if_neg (not_not_intro hlen)
    exact exec_of_some .nenc s _ (hstop.trans (reservedStop_append s [] [] 1 codeBits nofun hcode))

end Sys2Proof.Machine
end

