-- ==== Sys2Proof/Proofs/GridCheck.lean ====
section
/-! PROOFS. GridCheck (40_addressing.md R120): a zero dimension is the failure of the grid check, and every command that
takes a grid size makes that check before its own. -/

namespace Sys2Proof.Machine

open Sys2Proof.Claims

theorem gridStop_of_zero (W H : Nat) (h : W = 0 ∨ H = 0) : gridStop W H = some (.fault .gridZero 0#32) := if_pos h

/-- R120: where the fields fit, the check after the reserved bits is GridCheck. -/
theorem gridOperandStop_of_zero (s : State) (fs : List (Fin 4 × Nat)) (hfit : ∀ f ∈ fs, s.argNat f.1 < 2 ^ f.2)
    (h : s.argNat 0 = 0 ∨ s.argNat 1 = 0) : gridOperandStop s fs = some (.fault .gridZero 0#32) := by
  rw [gridOperandStop, (reservedStop_eq_none s fs).2 hfit]
  exact gridStop_of_zero _ _ h

/-- R120: a command that takes a grid size begins with the operand check of its fields. -/
theorem stopOf_of_gridOperandStop (i : Instr) (s : State) (e : Stop) (hi : takesGrid i = true)
    (h : gridOperandStop s (operandFields i) = some e) : stopOf i s = some e := by
  cases i with
  | nbr => exact h
  | upd mode sel =>
    have hgrid : gridOperandStop s gridFields = some e := h
    simp [stopOf, updStop, hgrid]
  | pplace sel =>
    have hgrid : gridOperandStop s gridPosFields = some e := h
    simp [stopOf, pplaceStop, hgrid]
  | pcenter =>
    have hgrid : gridOperandStop s gridFields = some e := h
    simp [stopOf, pcenterStop, hgrid]
  | _ => exact absurd hi Bool.false_ne_true

/-- Settles O30: a zero dimension is the failure of the operand check with which every grid command begins. -/
theorem zeroDimensionFaults : Obligations.ZeroDimensionFaults := fun i s hi hfit hzero =>
  exec_of_some i s _ (stopOf_of_gridOperandStop i s _ hi (gridOperandStop_of_zero s _ hfit hzero))

end Sys2Proof.Machine
end

