-- ==== Sys2Proof/Proofs/Neighbors.lean ====
section
/-! PROOFS. The toroidal neighbours (40_addressing.md R121 to R126). The table of R122 shifts each coordinate on its own
ring (`nbr_eq_shiftMod`), so what R126 says of neighbours follows from the shift of one ring and the eight offsets. -/

namespace Sys2Proof.Machine

open Sys2Proof.Claims

/-! ### The shift of one ring -/

theorem shiftMod_zero (c n : Nat) : shiftMod c 0 n = c % n := by
  rw [shiftMod, Int.add_zero, ← Int.natCast_emod, Int.toNat_natCast]

theorem ringAfter_mod (n c : Nat) : ringAfter n (c % n) = shiftMod c 1 n := by
  rw [ringAfter, Nat.mod_add_mod, shiftMod, ← Int.natCast_succ, ← Int.natCast_emod, Int.toNat_natCast]

theorem natCast_shiftMod (c n : Nat) (d : Int) (hn : 1 ≤ n) : (shiftMod c d n : Int) = ((c : Int) + d) % n :=
  Int.toNat_of_nonneg (Int.emod_nonneg _ (by omega))

theorem shiftMod_lt (c n : Nat) (d : Int) (hn : 1 ≤ n) : shiftMod c d n < n := by
  have hlt : ((c : Int) + d) % n < n := Int.emod_lt_of_pos _ (by omega)
  rw [← natCast_shiftMod c n d hn] at hlt
  exact Int.ofNat_lt.1 hlt

/-- Shifts of one ring add up. -/
theorem shiftMod_shiftMod (c n : Nat) (d e : Int) (hn : 1 ≤ n) :
    shiftMod (shiftMod c d n) e n = shiftMod c (d + e) n := by
  rw [shiftMod, natCast_shiftMod c n d hn, Int.emod_add_emod, Int.add_assoc, shiftMod]

/-- On a ring of at least 3 the shifts by -1, 0 and 1 differ. -/
theorem eq_of_shiftMod_eq (c n : Nat) (d e : Int) (hn : 3 ≤ n) (hd : |d| ≤ 1) (he : |e| ≤ 1)
    (h : shiftMod c d n = shiftMod c e n) : d = e := by
  have hcast : ((c : Int) + d) % n = ((c : Int) + e) % n := by
    rw [← natCast_shiftMod c n d (by omega), ← natCast_shiftMod c n e (by omega), h]
  have hdvd : (n : Int) ∣ d - e := by
    simpa using Int.ModEq.dvd hcast.symm
  have hlt : |d - e| < n := lt_of_le_of_lt (abs_sub d e) (by omega)
  exact sub_eq_zero.1 (Int.eq_zero_of_abs_lt_dvd hdvd hlt)

theorem ringAfter_ringBefore (n c : Nat) (h : c < n) : ringAfter n (ringBefore n c) = c := by
  unfold ringAfter ringBefore
  split
  · next h0 => rw [Nat.sub_add_cancel (by omega), Nat.mod_self, h0]
  · next h0 => rw [Nat.sub_add_cancel (by omega), Nat.mod_eq_of_lt h]

/-- Stepping forward undoes `ringBefore`, so `ringBefore` is the shift by -1. -/
theorem ringBefore_mod (n c : Nat) (hn : 1 ≤ n) : ringBefore n (c % n) = shiftMod c (-1) n := by
  have hc : c % n < n := Nat.mod_lt c hn
  have hb := ringBefore_lt n _ hc
  have hafter : shiftMod (ringBefore n (c % n)) 1 n = shiftMod c 0 n := by
    rw [← ringAfter_mod, Nat.mod_eq_of_lt hb, ringAfter_ringBefore n _ hc, shiftMod_zero]
  calc ringBefore n (c % n)
      = shiftMod (ringBefore n (c % n)) (1 + -1) n := by
        rw [Int.add_right_neg, shiftMod_zero, Nat.mod_eq_of_lt hb]
    _ = shiftMod c (0 + -1) n := by
        rw [← shiftMod_shiftMod _ n _ _ hn, hafter, shiftMod_shiftMod _ n _ _ hn]
    _ = shiftMod c (-1) n := by rw [Int.zero_add]

/-! ### The offsets (R121) -/

theorem abs_dx_le (k : Fin 8) : |dx k| ≤ 1 := by revert k; decide

theorem abs_dy_le (k : Fin 8) : |dy k| ≤ 1 := by revert k; decide

theorem dx_add_four (k : Fin 8) : dx k + dx (k + 4) = 0 := by revert k; decide

theorem dy_add_four (k : Fin 8) : dy k + dy (k + 4) = 0 := by revert k; decide

/-- The offsets of two directions differ. -/
theorem eq_of_offset_eq (j k : Fin 8) (hx : dx j = dx k) (hy : dy j = dy k) : j = k := by revert j k; decide

/-- No direction has the offset of the cell itself. -/
theorem offset_ne_zero (k : Fin 8) (hx : dx k = 0) : dy k ≠ 0 := by revert k; decide

/-! ### Neighbours as shifts -/

/-- R126 (e): the table entry of direction k is the offset of k added to each coordinate, modulo the grid. -/
theorem nbr_eq_shiftMod (W H x y : Nat) (k : Fin 8) (hW : 1 ≤ W) (hH : 1 ≤ H) :
    nbr W H x y k = (shiftMod x (dx k) W, shiftMod y (dy k) H) := by
  have hx := ringBefore_mod W x hW
  have hy := ringBefore_mod H y hH
  have hx' := ringAfter_mod W x
  have hy' := ringAfter_mod H y
  have hx0 := shiftMod_zero x W
  have hy0 := shiftMod_zero y H
  fin_cases k <;> simp [nbr, nbrTable, dx, dy, hx, hy, hx', hy', hx0, hy0]

theorem nbrIdx_eq_lin (W H i : Nat) (k : Fin 8) (hW : 1 ≤ W) (hH : 1 ≤ H) :
    nbrIdx W H i k = lin W (shiftMod (i % W) (dx k) W, shiftMod (i / W) (dy k) H) := by
  rw [nbrIdx, nbr_eq_shiftMod W H _ _ k hW hH]

/-- Settles O33: the index of the shifted cell, which lies in the grid. -/
theorem neighborIndexFormula : Obligations.NeighborIndexFormula := fun W H i k hW hH _ =>
  ⟨nbrIdx_eq_lin W H i k hW hH, nbrIdx_lt W H i k hW hH⟩

/-! ### Indices and cells (R123) -/

theorem lin_mod (W x y : Nat) (hx : x < W) : lin W (x, y) % W = x := by
  rw [lin, Nat.mul_add_mod', Nat.mod_eq_of_lt hx]

theorem lin_div (W x y : Nat) (hx : x < W) : lin W (x, y) / W = y := by
  rw [lin, Nat.add_comm, Nat.add_mul_div_right x y (by omega), Nat.div_eq_of_lt hx, Nat.zero_add]

theorem lin_mod_div (W i : Nat) : lin W (i % W, i / W) = i := Nat.div_add_mod' i W

theorem nbrIdx_mod (W H i : Nat) (k : Fin 8) (hW : 1 ≤ W) (hH : 1 ≤ H) :
    nbrIdx W H i k % W = shiftMod (i % W) (dx k) W := by
  rw [nbrIdx_eq_lin W H i k hW hH, lin_mod W _ _ (shiftMod_lt _ W _ hW)]

theorem nbrIdx_div (W H i : Nat) (k : Fin 8) (hW : 1 ≤ W) (hH : 1 ≤ H) :
    nbrIdx W H i k / W = shiftMod (i / W) (dy k) H := by
  rw [nbrIdx_eq_lin W H i k hW hH, lin_div W _ _ (shiftMod_lt _ W _ hW)]

/-- Below W·H both coordinates are already reduced, so the shift by 0 keeps them. -/
theorem shiftMod_zero_of_cell (W H i : Nat) (hi : i < W * H) :
    shiftMod (i % W) 0 W = i % W ∧ shiftMod (i / W) 0 H = i / W := by
  rw [shiftMod_zero, shiftMod_zero, Nat.mod_mod, Nat.mod_eq_of_lt (Nat.div_lt_of_lt_mul hi)]
  exact ⟨rfl, rfl⟩

/-- R126 (b): the neighbour in direction k is not the cell. -/
theorem nbrIdx_ne_self (W H i : Nat) (k : Fin 8) (hW : 3 ≤ W) (hH : 3 ≤ H) (hi : i < W * H) : nbrIdx W H i k ≠ i := by
  intro h
  obtain ⟨hx0, hy0⟩ := shiftMod_zero_of_cell W H i hi
  have hx := nbrIdx_mod W H i k (by omega) (by omega)
  have hy := nbrIdx_div W H i k (by omega) (by omega)
  rw [h] at hx hy
  exact offset_ne_zero k (eq_of_shiftMod_eq _ W _ 0 hW (abs_dx_le k) (by decide) (hx.symm.trans hx0.symm))
    (eq_of_shiftMod_eq _ H _ 0 hH (abs_dy_le k) (by decide) (hy.symm.trans hy0.symm))

/-- R126 (b): directions with the same neighbour are the same. -/
theorem eq_of_nbrIdx_eq (W H i : Nat) (j k : Fin 8) (hW : 3 ≤ W) (hH : 3 ≤ H)
    (h : nbrIdx W H i j = nbrIdx W H i k) : j = k := by
  have hx : shiftMod (i % W) (dx j) W = shiftMod (i % W) (dx k) W := by
    rw [← nbrIdx_mod W H i j (by omega) (by omega), h, nbrIdx_mod W H i k (by omega) (by omega)]
  have hy : shiftMod (i / W) (dy j) H = shiftMod (i / W) (dy k) H := by
    rw [← nbrIdx_div W H i j (by omega) (by omega), h, nbrIdx_div W H i k (by omega) (by omega)]
  exact eq_of_offset_eq j k (eq_of_shiftMod_eq _ W _ _ hW (abs_dx_le j) (abs_dx_le k) hx)
    (eq_of_shiftMod_eq _ H _ _ hH (abs_dy_le j) (abs_dy_le k) hy)

/-- Settles O34: on rings of at least 3 the offset can be read off the neighbour's coordinates, and the eight offsets
differ from each other and from (0, 0). -/
theorem neighborsDistinct : Obligations.NeighborsDistinct := fun W H i j k hW hH hi =>
  ⟨nbrIdx_ne_self W H i k hW hH hi, fun hjk h => hjk (eq_of_nbrIdx_eq W H i j k hW hH h)⟩

/-- Settles O35: the offsets of k and k + 4 add up to 0 in each coordinate. -/
theorem neighborSymmetry : Obligations.NeighborSymmetry := by
  intro W H i k hW hH hi
  obtain ⟨hx, hy⟩ := shiftMod_zero_of_cell W H i hi
  calc nbrIdx W H (nbrIdx W H i k) (k + 4)
      = lin W (shiftMod (i % W) (dx k + dx (k + 4)) W, shiftMod (i / W) (dy k + dy (k + 4)) H) := by
        rw [nbrIdx_eq_lin W H _ _ hW hH, nbrIdx_mod W H i k hW hH, nbrIdx_div W H i k hW hH,
          shiftMod_shiftMod _ W _ _ hW, shiftMod_shiftMod _ H _ _ hH]
    _ = lin W (i % W, i / W) := by rw [dx_add_four, dy_add_four, hx, hy]
    _ = i := lin_mod_div W i

/-! ### NBR (R125) -/

/-- R125: RES[k] is the neighbour in direction k of the position in ARG2 and ARG3. -/
theorem nbrStage_res (s : State) (k : Fin 8) :
    (nbrStage s).res[k] = packCoord (nbr (s.argNat 0) (s.argNat 1) (s.argNat 2) (s.argNat 3) k) :=
  Vector.getElem_map packCoord k.isLt

/-- A shifted coordinate of a 16-bit ring takes 16 bits, so the two stand side by side in the word (R100). -/
theorem packCoord_nbr (W H x y : Nat) (k : Fin 8) (hW : 1 ≤ W) (hH : 1 ≤ H) (hfit : W < 65536) :
    packCoord (nbr W H x y k) = BitVec.ofNat 32 (shiftMod x (dx k) W + 65536 * shiftMod y (dy k) H) := by
  rw [nbr_eq_shiftMod W H x y k hW hH]
  exact packCoord_eq _ (Nat.lt_trans (shiftMod_lt x W _ hW) hfit)

/-- The fields of NBR before ARG[j] are those of the lower ARG registers, 16 bits each (R97). -/
theorem operandFields_nbr_split (j : Fin 4) :
    operandFields .nbr = (operandFields .nbr).take j ++ (j, 16) :: (operandFields .nbr).drop (j + 1) ∧
      ∀ f ∈ (operandFields .nbr).take j, f.1 < j ∧ f.2 = 16 := by
  revert j; decide

/-- R98: the first ARG of NBR with a reserved bit. -/
theorem exec_nbr_of_reserved (s : State) (j : Fin 4) (hbefore : ∀ i, i < j → s.argNat i < 65536)
    (hj : 65536 ≤ s.argNat j) : exec .nbr s = .next (faulted s .illegalOperand (BitVec.ofNat 32 j.val)) := by
  obtain ⟨hsplit, hlow⟩ := operandFields_nbr_split j
  refine reservedOperandBits.1 .nbr s _ _ j 16 hsplit (fun f hf => ?_) hj
  obtain ⟨hlt, hbits⟩ := hlow f hf
  rw [hbits]
  exact hbefore f.1 hlt

/-- Settles O32: where the checks pass, the staged RES is the answer; the faults are those of O29 and O30. -/
theorem nbrReturnsNeighbors : Obligations.NbrReturnsNeighbors := by
  refine ⟨wordOf_encode .nbr, fun s => ⟨fun hfit hW hH => ⟨(nbrStage s).res, fun k => ?_, ?_⟩,
    exec_nbr_of_reserved s, zeroDimensionFaults .nbr s rfl⟩⟩
  · have hW16 : s.argNat 0 < 65536 := hfit (0, 16) (List.mem_cons_self ..)
    rw [nbrStage_res, packCoord_nbr _ _ _ _ k hW hH hW16]
  · have hstop : stopOf .nbr s = none := (gridOperandStop_eq_none s gridPosFields).2 ⟨hfit, hW, hH⟩
    exact exec_of_none .nbr s hstop nofun

end Sys2Proof.Machine
end

