-- ==== Sys2Proof/Proofs/TextOperand.lean ====
section
/-! PROOFS. The text operand of RCOMP and PPARSE (41_rule_table.md R142; 45_pattern.md R231): the two faults of its check,
with which both commands begin, and what the check and the reading of the text give where TXT holds a given text. -/

namespace Sys2Proof.Machine

open Sys2Proof.Claims

/-! ### The lowest unwritten cell -/

/-- The unwritten cell that has only written cells before it is the one `firstUnwritten` answers. -/
theorem Memory.firstUnwritten_eq_some_of_lowest {α : Type} (m : Memory α) (off n j : Nat) (hoff : off ≤ j)
    (hn : j < off + n) (hj : m.read j = none) (hlow : ∀ i, off ≤ i → i < j → (m.read i).isSome = true) :
    m.firstUnwritten off n = some j := by
  refine List.find?_range'_eq_some.2 ⟨by simp [hj], List.mem_range'_1.2 ⟨hoff, hn⟩, fun i hi hij => ?_⟩
  rw [Option.not_isNone, hlow i hi hij]

/-! ### The check of the text operand -/

theorem textStop_of_txtCap_lt (s : State) (h : s.params.txtCap < s.argNat 0 + s.argNat 1) :
    textStop s = some (.fault .txtRange 0#32) := if_pos h

theorem textStop_of_firstUnwritten (s : State) (j : Nat) (hcap : s.argNat 0 + s.argNat 1 ≤ s.params.txtCap)
    (hj : s.txt.firstUnwritten (s.argNat 0) (s.argNat 1) = some j) :
    textStop s = some (.fault .uninitRead (uninitInfo txtCode j)) := by
  rw [textStop, if_neg (Nat.not_lt.2 hcap), hj]

/-- R260: the bank code of TXT stands in bits 31:28, the index below it. -/
theorem uninitInfo_txtCode (j : Nat) : uninitInfo txtCode j = (3#32 <<< 28) ||| BitVec.ofNat 32 j := BitVec.ofNat_or

/-- RCOMP and PPARSE check their text operand before anything else. -/
theorem stopOf_of_textStop (i : Instr) (s : State) (e : Stop) (hi : i = .rcomp ∨ i = .pparse)
    (h : textStop s = some e) : stopOf i s = some e := by
  obtain rfl | rfl := hi
  · simp [stopOf, rcompStop, h]
  · simp [stopOf, pparseStop, h]

/-- Settles O31: both faults are those of the text check, with which the two commands begin. -/
theorem textOperandFaults : Obligations.TextOperandFaults := by
  refine fun i s hi => ⟨fun hcap => ?_, fun j hcap hoff hn hj hlow => ?_⟩
  · exact exec_of_some i s _ (stopOf_of_textStop i s _ hi (textStop_of_txtCap_lt s hcap))
  · have hfirst := s.txt.firstUnwritten_eq_some_of_lowest _ _ j hoff hn hj hlow
    rw [← uninitInfo_txtCode]
    exact exec_of_some i s _ (stopOf_of_textStop i s _ hi (textStop_of_firstUnwritten s j hcap hfirst))

/-! ### A text operand that is given -/

theorem read_txt_of_textIs {s : State} {txt : List Byte} (h : TextIs s txt) (j : Nat) (hj : j < txt.length) :
    s.txt.read (s.argNat 0 + j) = some txt[j] := by
  obtain ⟨-, -, hread⟩ := h
  rw [hread j hj, List.getElem?_eq_getElem hj]

theorem textStop_of_textIs {s : State} {txt : List Byte} (h : TextIs s txt) : textStop s = none := by
  have hread := read_txt_of_textIs h
  obtain ⟨hlen, hcap, -⟩ := h
  refine (textStop_eq_none s).2 ⟨hlen ▸ hcap, fun i hi hlt => ?_⟩
  have hi' := hread (i - s.argNat 0) (by omega)
  rw [Nat.add_sub_cancel' hi] at hi'
  rw [hi', Option.isSome_some]

theorem text_of_textIs {s : State} {txt : List Byte} (h : TextIs s txt) : s.text = txt :=
  text_of_written s txt h.1 (read_txt_of_textIs h)

end Sys2Proof.Machine
end

