-- ==== Sys2Proof/Proofs/RuleIndex.lean ====
section
/-! PROOFS. The rule-table index (41_rule_table.md R140, R147 (a)) in plain arithmetic, and the three commands that use it:
RQUERY (R144), RENC (R145) and RDEC (R146). -/

namespace Sys2Proof.Machine

open Sys2Proof.Claims

/-! ### The index -/

/-- The four-bit mask is the remainder by 16, and the shift doubles it. -/
theorem rtEncode_eq (st n : Nat) : rtEncode st n = st + 2 * (n % 16) := by
  have hmask : n &&& 0xF = n % 16 := Nat.and_two_pow_sub_one_eq_mod n 4
  rw [rtEncode, hmask, Nat.shiftLeft_eq, Nat.mul_comm]

theorem rtDecode_eq (i : Nat) : rtDecode i = (i % 2, i / 2) := by
  rw [rtDecode, Nat.and_one_is_mod, Nat.shiftRight_eq_div_pow]

/-- Settles O41: the status is the low bit of the index, the count modulo 16 the rest. -/
theorem ruleIndexRoundTrip : Obligations.RuleIndexRoundTrip := by
  refine ⟨fun st n hst => ?_, fun i hi => ?_⟩
  · rw [rtEncode_eq, rtDecode_eq, Prod.mk.injEq]
    omega
  · rw [rtDecode_eq, rtEncode_eq]
    omega

/-! ### Commands that answer in RES -/

theorem commit_setRes (s : State) (i : Fin 8) (v : Word) :
    commit (s.setRes i v) = { s with res := s.res.set i v, status := doneStatus s.status } := rfl

theorem commit_setRes_setRes (s : State) (i j : Fin 8) (v w : Word) :
    commit ((s.setRes i v).setRes j w) =
      { s with res := (s.res.set i v).set j w, status := doneStatus s.status } := rfl

/-- The check of a command whose one narrow field is ARG0 passes where ARG0 fits. -/
theorem reservedStop_arg0_of_lt (s : State) (bits : Nat) (h : s.argNat 0 < 2 ^ bits) :
    reservedStop s [(0, bits)] = none := if_pos h

/-- R98: a command whose first field is ARG0 faults where ARG0 does not fit. -/
theorem exec_of_reserved_arg0 (i : Instr) (s : State) (bits : Nat) (after : List (Fin 4 × Nat))
    (hfields : operandFields i = (0, bits) :: after) (h : 2 ^ bits ≤ s.argNat 0) :
    exec i s = .next (faulted s .illegalOperand 0#32) :=
  reservedOperandBits.1 i s [] after 0 bits hfields nofun h

/-! ### RQUERY (R144) -/

theorem rqueryStop_of_not_rtValid (s : State) (hst : s.argNat 0 < 2) (hrt : s.status.rtValid = false) :
    rqueryStop s = some (.fault .noRule 0#32) := by
  simp [rqueryStop, reservedStop_arg0_of_lt s statusBits hst, hrt]

theorem rqueryStop_of_rtValid (s : State) (hst : s.argNat 0 < 2) (hrt : s.status.rtValid = true) :
    rqueryStop s = if 8 < s.argNat 1 then some (.fault .ruleCountRange s.arg[1]) else none := by
  simp [rqueryStop, reservedStop_arg0_of_lt s statusBits hst, hrt]

/-- R143: for a count of at most 8 the mask does nothing, and a Boolean result is 0 or 1 (R100). -/
theorem wordOfBool_rtLookup (rt : BitVec 18) (st n : Nat) (hn : n ≤ 8) :
    wordOfBool (rtLookup rt st n) = if rt.getLsbD (st + 2 * n) = true then 1#32 else 0#32 := by
  rw [rtLookup, rtEncode_eq, Nat.mod_eq_of_lt (by omega)]
  cases rt.getLsbD (st + 2 * n) <;> rfl

/-- Settles O38: the three checks of RQUERY in their order, and the entry it stages. -/
theorem rqueryRule : Obligations.RqueryRule := by
  refine ⟨wordOf_encode .rquery, fun s => ⟨fun hst hrt hn => ?_, exec_of_reserved_arg0 .rquery s 1 _ rfl,
    fun hst hrt => exec_of_some .rquery s _ (rqueryStop_of_not_rtValid s hst hrt), fun hst hrt hn => ?_⟩⟩
  · have hstop : stopOf .rquery s = none := (rqueryStop_of_rtValid s hst hrt).trans (if_neg (Nat.not_lt.2 hn))
    rw [exec_of_none .rquery s hstop nofun, ← wordOfBool_rtLookup s.rt _ _ hn]
    exact congrArg _ (commit_setRes s 0 _)
  · exact exec_of_some .rquery s _ ((rqueryStop_of_rtValid s hst hrt).trans (if_pos hn))

/-! ### RENC (R145) and RDEC (R146) -/

/-- Settles O39: the staged index is the one `rtEncode_eq` gives, for every count. -/
theorem rencRule : Obligations.RencRule := by
  refine ⟨wordOf_encode .renc, fun s => ⟨fun hst => ?_, exec_of_reserved_arg0 .renc s 1 _ rfl⟩⟩
  rw [exec_of_none .renc s (reservedStop_arg0_of_lt s statusBits hst) nofun, ← rtEncode_eq]
  exact congrArg _ (commit_setRes s 0 _)

/-- Settles O40: the staged pair is the one `rtDecode_eq` gives. -/
theorem rdecRule : Obligations.RdecRule := by
  refine ⟨wordOf_encode .rdec, fun s => ⟨fun hi => ?_, exec_of_reserved_arg0 .rdec s 5 _ rfl⟩⟩
  rw [exec_of_none .rdec s (reservedStop_arg0_of_lt s indexBits hi) nofun, stageOf, rdecStage, rtDecode_eq]
  exact congrArg _ (commit_setRes_setRes s 0 1 _ _)

end Sys2Proof.Machine
end

