-- ==== Sys2Proof/Proofs/RuleText.lean ====
section
/-! PROOFS. Rule strings (41_rule_table.md R141, R142): each check of the text as its own lemma, in the order of R142, and
from them the format errors of RCOMP and the fault of the digit 9; then the table that a string of the grammar compiles to
(R147 (b), (c)). -/

namespace Sys2Proof.Machine

open Sys2Proof.Claims

/-! ### Positions of a text -/

theorem byteAt_eq_any (txt : List Byte) (j : Nat) (f : Byte → Bool) : byteAt txt j f = txt[j]?.any f := by
  rw [byteAt]
  cases txt[j]? <;> rfl

theorem byteAt_isDecimal (txt : List Byte) (j : Nat) : byteAt txt j isDecimal = txt[j]?.any digitByte :=
  byteAt_eq_any txt j isDecimal

theorem byteAt_nine_eq_false (txt : List Byte) (j : Nat) :
    byteAt txt j (· == 0x39) = false ↔ txt[j]? ≠ some 0x39 := by
  rw [byteAt_eq_any]
  cases txt[j]? <;> simp

theorem byteAt_isBirthLetter_eq_false (txt : List Byte) (j : Nat) :
    byteAt txt j isBirthLetter = false ↔ txt[j]? ≠ some 0x42 ∧ txt[j]? ≠ some 0x62 := by
  rw [byteAt_eq_any]
  cases txt[j]? <;> simp [isBirthLetter]

theorem byteAt_isSurvivalLetter_eq_false (txt : List Byte) (j : Nat) :
    byteAt txt j isSurvivalLetter = false ↔ txt[j]? ≠ some 0x53 ∧ txt[j]? ≠ some 0x73 := by
  rw [byteAt_eq_any]
  cases txt[j]? <;> simp [isSurvivalLetter]

theorem findIdx?_of_firstAt {txt : List Byte} {f : Byte → Bool} {j : Nat} (h : FirstAt txt f j) :
    txt.findIdx? f = some j := by
  obtain ⟨hj, hbefore⟩ := h
  obtain ⟨c, hc, hf⟩ := (Option.any_eq_true f _).1 hj
  obtain ⟨hlt, rfl⟩ := List.getElem?_eq_some_iff.1 hc
  refine List.findIdx?_eq_some_iff_getElem.2 ⟨hlt, hf, fun i hi => ?_⟩
  have hi' := hbefore i hi
  rw [List.getElem?_eq_getElem (Nat.lt_trans hi hlt), Option.any_some] at hi'
  exact Bool.eq_false_iff.1 hi'

/-- In a rising list `find?` answers the least member that satisfies the predicate. -/
theorem find?_eq_some_of_least {l : List Nat} (hl : l.Pairwise (· < ·)) {f : Nat → Bool} {j : Nat} (hmem : j ∈ l)
    (hj : f j = true) (hleast : ∀ i ∈ l, i < j → f i = false) : l.find? f = some j := by
  induction l with
  | nil => exact absurd hmem List.not_mem_nil
  | cons a l ih =>
    obtain ⟨ha, hl'⟩ := List.pairwise_cons.1 hl
    obtain ⟨hleast_a, hleast_l⟩ := List.forall_mem_cons.1 hleast
    obtain rfl | hmem_l := List.mem_cons.1 hmem
    · exact List.find?_cons_of_pos hj
    · rw [List.find?_cons_of_neg (Bool.eq_false_iff.1 (hleast_a (ha j hmem_l)))]
      exact ih hl' hmem_l hleast_l

/-- The positions of the two digit runs are the set D of R142. -/
theorem mem_digitPositions (txt : List Byte) (p j : Nat) : j ∈ digitPositions txt.length p ↔ InRuns txt p j := by
  simp only [digitPositions, List.mem_append, List.mem_range'_1, InRuns]
  omega

theorem pairwise_digitPositions (len p : Nat) : (digitPositions len p).Pairwise (· < ·) := by
  refine List.pairwise_append.2 ⟨List.pairwise_lt_range' 1, List.pairwise_lt_range' 1, fun i hi j hj => ?_⟩
  rw [List.mem_range'_1] at hi hj
  omega

/-! ### The checks of the text, in order (R142) -/

section Checks

variable {off p j : Nat} {txt : List Byte}

theorem ruleTextStop_of_notAscii (h : FirstAt txt (fun c => decide (0x80 ≤ c.toNat)) j) :
    ruleTextStop off txt = some (.error .ruleNotAscii (wordOfNat (off + j))) := by
  simp only [ruleTextStop, findIdx?_of_firstAt h]

theorem findIdx?_notAscii_eq_none (hascii : ∀ c ∈ txt, c.toNat < 0x80) :
    txt.findIdx? (fun c => decide (0x80 ≤ c.toNat)) = none :=
  List.findIdx?_eq_none_iff.2 fun c hc => decide_eq_false (Nat.not_le.2 (hascii c hc))

theorem ruleTextStop_of_no_separator (hascii : ∀ c ∈ txt, c.toNat < 0x80) (h : 0x2F ∉ txt) :
    ruleTextStop off txt = some (.error .ruleNoSeparator 0#32) := by
  have hnone : txt.findIdx? (· == slashByte) = none :=
    List.findIdx?_eq_none_iff.2 fun c hc => beq_false_of_ne (ne_of_mem_of_not_mem hc h)
  simp only [ruleTextStop, findIdx?_notAscii_eq_none hascii, hnone]
  rfl

theorem findIdx?_slash_of_firstAt (h : FirstAt txt (· == 0x2F) p) : txt.findIdx? (· == slashByte) = some p :=
  findIdx?_of_firstAt h

theorem ruleTextStop_of_bad_birth_letter (hascii : ∀ c ∈ txt, c.toNat < 0x80) (hsep : FirstAt txt (· == 0x2F) p)
    (h : p = 0 ∨ byteAt txt 0 isBirthLetter = false) :
    ruleTextStop off txt = some (.error .ruleBadPrefix 0#32) := by
  simp only [ruleTextStop, findIdx?_notAscii_eq_none hascii, findIdx?_slash_of_firstAt hsep]
  exact if_pos h

theorem ruleTextStop_of_bad_survival_letter (hascii : ∀ c ∈ txt, c.toNat < 0x80)
    (hsep : FirstAt txt (· == 0x2F) p) (hbirth : ¬ (p = 0 ∨ byteAt txt 0 isBirthLetter = false))
    (h : byteAt txt (p + 1) isSurvivalLetter = false) :
    ruleTextStop off txt = some (.error .ruleBadPrefix 1#32) := by
  simp only [ruleTextStop, findIdx?_notAscii_eq_none hascii, findIdx?_slash_of_firstAt hsep, if_neg hbirth]
  exact if_pos h

/-- A text that passes the checks before those of the digits: ASCII, a separator at `p`, and both letters, each in
the form in which `ruleTextStop` asks for it. -/
structure RuleForm (txt : List Byte) (p : Nat) : Prop where
  ascii : ∀ c ∈ txt, c.toNat < 0x80
  separator : FirstAt txt (· == 0x2F) p
  birth : ¬ (p = 0 ∨ byteAt txt 0 isBirthLetter = false)
  survival : ¬ byteAt txt (p + 1) isSurvivalLetter = false

theorem find?_notDecimal_eq_none (hdigits : ∀ i, InRuns txt p i → txt[i]?.any digitByte = true) :
    (digitPositions txt.length p).find? (fun i => !byteAt txt i isDecimal) = none := by
  refine List.find?_eq_none.2 fun i hi => ?_
  rw [byteAt_isDecimal, hdigits i ((mem_digitPositions txt p i).1 hi)]
  decide

theorem ruleTextStop_of_bad_digit (h : RuleForm txt p) (hj : InRuns txt p j) (hbad : txt[j]?.any digitByte = false)
    (hbefore : ∀ i, i < j → InRuns txt p i → txt[i]?.any digitByte = true) :
    ruleTextStop off txt = some (.error .ruleBadDigit (wordOfNat (off + j))) := by
  have hfind : (digitPositions txt.length p).find? (fun i => !byteAt txt i isDecimal) = some j := by
    refine find?_eq_some_of_least (pairwise_digitPositions ..) ((mem_digitPositions txt p j).2 hj) ?_ fun i hi hij => ?_
    · rw [byteAt_isDecimal, hbad, Bool.not_false]
    · rw [byteAt_isDecimal, hbefore i hij ((mem_digitPositions txt p i).1 hi), Bool.not_true]
  simp only [ruleTextStop, findIdx?_notAscii_eq_none h.ascii, findIdx?_slash_of_firstAt h.separator, if_neg h.birth,
    if_neg h.survival, hfind]

theorem ruleTextStop_of_nine (h : RuleForm txt p)
    (hdigits : ∀ i, InRuns txt p i → txt[i]?.any digitByte = true) (hj : InRuns txt p j) (hnine : txt[j]? = some 0x39)
    (hbefore : ∀ i, i < j → InRuns txt p i → txt[i]? ≠ some 0x39) :
    ruleTextStop off txt = some (.fault .ruleDigitRange (wordOfNat (off + j))) := by
  have hfind : (digitPositions txt.length p).find? (fun i => byteAt txt i (· == 0x39)) = some j := by
    refine find?_eq_some_of_least (pairwise_digitPositions ..) ((mem_digitPositions txt p j).2 hj) ?_ fun i hi hij => ?_
    · rw [byteAt_eq_any, hnine]
      rfl
    · exact (byteAt_nine_eq_false txt i).2 (hbefore i hij ((mem_digitPositions txt p i).1 hi))
  simp only [ruleTextStop, findIdx?_notAscii_eq_none h.ascii, findIdx?_slash_of_firstAt h.separator, if_neg h.birth,
    if_neg h.survival, find?_notDecimal_eq_none hdigits, hfind]

theorem ruleTextStop_eq_none (h : RuleForm txt p) (hdigits : ∀ i, InRuns txt p i → txt[i]?.any digitByte = true)
    (hnine : ∀ i, InRuns txt p i → txt[i]? ≠ some 0x39) : ruleTextStop off txt = none := by
  have hfind : (digitPositions txt.length p).find? (fun i => byteAt txt i (· == 0x39)) = none := by
    refine List.find?_eq_none.2 fun i hi => Bool.eq_false_iff.1 ?_
    exact (byteAt_nine_eq_false txt i).2 (hnine i ((mem_digitPositions txt p i).1 hi))
  simp only [ruleTextStop, findIdx?_notAscii_eq_none h.ascii, findIdx?_slash_of_firstAt h.separator, if_neg h.birth,
    if_neg h.survival, find?_notDecimal_eq_none hdigits, hfind]

end Checks

/-! ### RCOMP on a given text -/

theorem rcompStop_of_textIs {s : State} {txt : List Byte} (h : TextIs s txt) :
    stopOf .rcomp s = ruleTextStop (s.argNat 0) txt := by
  simp only [stopOf, rcompStop, textStop_of_textIs h, text_of_textIs h]

theorem exec_rcomp_of_ruleTextStop {s : State} {txt : List Byte} {e : Stop} (h : TextIs s txt)
    (hstop : ruleTextStop (s.argNat 0) txt = some e) : exec .rcomp s = .next (endStop s e) :=
  exec_of_some .rcomp s e ((rcompStop_of_textIs h).trans hstop)

theorem lt_length_of_inRuns {txt : List Byte} {p i : Nat} (hsep : FirstAt txt (· == 0x2F) p) (hi : InRuns txt p i) :
    i < txt.length := by
  obtain ⟨c, hc, -⟩ := (Option.any_eq_true _ _).1 hsep.1
  obtain ⟨hp, -⟩ := List.getElem?_eq_some_iff.1 hc
  obtain ⟨-, hlt⟩ | ⟨-, hlt⟩ := hi
  · exact Nat.lt_trans hlt hp
  · exact hlt

theorem not_bad_birth_letter {txt : List Byte} {p : Nat} (hpos : 1 ≤ p)
    (h : txt[0]? = some 0x42 ∨ txt[0]? = some 0x62) : ¬ (p = 0 ∨ byteAt txt 0 isBirthLetter = false) := by
  rw [byteAt_isBirthLetter_eq_false]
  rintro (rfl | ⟨hupper, hlower⟩)
  · exact absurd hpos (by decide)
  · exact h.elim hupper hlower

theorem not_bad_survival_letter {txt : List Byte} {j : Nat} (h : txt[j]? = some 0x53 ∨ txt[j]? = some 0x73) :
    ¬ byteAt txt j isSurvivalLetter = false := by
  rw [byteAt_isSurvivalLetter_eq_false]
  exact fun ⟨hupper, hlower⟩ => h.elim hupper hlower

/-- Settles O37: the checks of the text pass up to the first that fails, which gives the end of RCOMP. -/
theorem rcompRejects : Obligations.RcompRejects := by
  refine fun s txt htxt => ⟨fun j hj => ?_, fun hascii => ⟨fun hsep => ?_, fun p hsep => ⟨fun hbad => ?_,
    fun hpos hbirth => ⟨fun hbad => ?_, fun hsurvival j hj => ?_⟩⟩⟩⟩
  · exact exec_rcomp_of_ruleTextStop htxt (ruleTextStop_of_notAscii hj)
  · exact exec_rcomp_of_ruleTextStop htxt (ruleTextStop_of_no_separator hascii hsep)
  · have hbad' := hbad.imp_right (byteAt_isBirthLetter_eq_false txt 0).2
    exact exec_rcomp_of_ruleTextStop htxt (ruleTextStop_of_bad_birth_letter hascii hsep hbad')
  · have hbad' := (byteAt_isSurvivalLetter_eq_false txt (p + 1)).2 hbad
    exact exec_rcomp_of_ruleTextStop htxt
      (ruleTextStop_of_bad_survival_letter hascii hsep (not_bad_birth_letter hpos hbirth) hbad')
  · have hform : RuleForm txt p :=
      ⟨hascii, hsep, not_bad_birth_letter hpos hbirth, not_bad_survival_letter hsurvival⟩
    refine ⟨fun hnot hbefore => ?_, fun hdigits hnine hbefore => ?_⟩
    · exact exec_rcomp_of_ruleTextStop htxt (ruleTextStop_of_bad_digit hform hj hnot hbefore)
    · have hall : ∀ i, InRuns txt p i → txt[i]?.any digitByte = true := fun i hi =>
        hdigits i (lt_length_of_inRuns hsep hi) hi
      exact exec_rcomp_of_ruleTextStop htxt (ruleTextStop_of_nine hform hall hj hnine hbefore)

/-! ### The table of a rule string (R141, R147 (b), (c)) -/

theorem getLsbD_setEntries (st : Nat) (digits : List Byte) (t : BitVec 18) (k : Nat) (hk : k < 18) :
    (setEntries st digits t).getLsbD k = true ↔
      t.getLsbD k = true ∨ ∃ d ∈ digits, rtEncode st (d.toNat - 0x30) = k := by
  induction digits generalizing t with
  | nil => simp [setEntries]
  | cons d ds ih =>
    have hentry : ((1#18 <<< rtEncode st (d.toNat - 0x30)).getLsbD k = true) ↔ rtEncode st (d.toNat - 0x30) = k := by
      rw [← BitVec.twoPow_eq, BitVec.getLsbD_twoPow, Bool.and_eq_true, decide_eq_true_eq, decide_eq_true_eq]
      omega
    have hcons : setEntries st (d :: ds) t = setEntries st ds (t ||| (1#18 <<< rtEncode st (d.toNat - 0x30))) := rfl
    rw [hcons, ih, BitVec.getLsbD_or, Bool.or_eq_true, hentry, List.exists_mem_cons_iff, or_assoc]

/-- R140: among statuses and counts in range, the entry a digit names tells both apart. -/
theorem rtEncode_ruleDigit (d : Byte) (st st' n : Nat) (hd : RuleDigit d) (hst : st < 2) (hst' : st' < 2) (hn : n ≤ 8) :
    rtEncode st (d.toNat - 0x30) = st' + 2 * n ↔ st = st' ∧ BitVec.ofNat 8 (0x30 + n) = d := by
  obtain ⟨hlow, hhigh⟩ := hd
  rw [rtEncode_eq, ← BitVec.toNat_inj, BitVec.toNat_ofNat]
  omega

/-- A digit run sets the entries of its own status, those of its digits. -/
theorem getLsbD_setEntries_ruleDigits (st st' n : Nat) (digits : List Byte) (t : BitVec 18)
    (hdigits : ∀ d ∈ digits, RuleDigit d) (hst : st < 2) (hst' : st' < 2) (hn : n ≤ 8) :
    (setEntries st digits t).getLsbD (st' + 2 * n) = true ↔
      t.getLsbD (st' + 2 * n) = true ∨ st = st' ∧ BitVec.ofNat 8 (0x30 + n) ∈ digits := by
  have hentry : (∃ d ∈ digits, rtEncode st (d.toNat - 0x30) = st' + 2 * n) ↔
      st = st' ∧ BitVec.ofNat 8 (0x30 + n) ∈ digits := by
    constructor
    · rintro ⟨d, hd, henc⟩
      obtain ⟨heq, rfl⟩ := (rtEncode_ruleDigit d st st' n (hdigits d hd) hst hst' hn).1 henc
      exact ⟨heq, hd⟩
    · rintro ⟨heq, hd⟩
      exact ⟨_, hd, (rtEncode_ruleDigit _ st st' n (hdigits _ hd) hst hst' hn).2 ⟨heq, rfl⟩⟩
  rw [getLsbD_setEntries st digits t _ (by omega), hentry]

/-! ### The grammar (R141) -/

/-- A rule string: the birth letter `b`, its digits, the separator, the survival letter `c`, its digits. -/
def ruleString (b c : Byte) (births survivals : List Byte) : List Byte := b :: births ++ 0x2F :: c :: survivals

section Grammar

variable {b c : Byte} {births survivals : List Byte}
  (hb : b = 0x42 ∨ b = 0x62) (hc : c = 0x53 ∨ c = 0x73)
  (hbirths : ∀ d ∈ births, RuleDigit d) (hsurvivals : ∀ d ∈ survivals, RuleDigit d)

/-- The birth digits stand right after the birth letter. -/
theorem getElem?_ruleString_succ {k : Nat} (hk : k < births.length) :
    (ruleString b c births survivals)[k + 1]? = some births[k] := by
  rw [ruleString, List.cons_append, List.getElem?_cons_succ, List.getElem?_append_left hk, List.getElem?_eq_getElem hk]

include hb hbirths in
theorem firstAt_separator_ruleString : FirstAt (ruleString b c births survivals) (· == 0x2F) (births.length + 1) := by
  refine ⟨by simp [ruleString], fun i hi => ?_⟩
  cases i with
  | zero => obtain rfl | rfl := hb <;> rfl
  | succ i =>
    have hi' : i < births.length := by omega
    have hd : RuleDigit births[i] := hbirths _ (List.getElem_mem hi')
    have hne : births[i] ≠ 0x2F := by
      intro h
      rw [h] at hd
      exact absurd hd (by decide)
    rw [getElem?_ruleString_succ hi', Option.any_some]
    exact beq_false_of_ne hne

include hb hc hbirths hsurvivals in
theorem ascii_ruleString : ∀ x ∈ ruleString b c births survivals, x.toNat < 0x80 := by
  have hdigit : ∀ d : Byte, RuleDigit d → d.toNat < 0x80 := fun d hd => Nat.lt_of_le_of_lt hd.2 (by decide)
  have hletters : b.toNat < 0x80 ∧ c.toNat < 0x80 := by
    obtain rfl | rfl := hb <;> obtain rfl | rfl := hc <;> decide
  intro x hx
  simp only [ruleString, List.mem_append, List.mem_cons] at hx
  obtain (rfl | hx) | rfl | rfl | hx := hx
  · exact hletters.1
  · exact hdigit x (hbirths x hx)
  · decide
  · exact hletters.2
  · exact hdigit x (hsurvivals x hx)

/-- The bytes of the two digit runs are the digits of the rule. -/
theorem mem_of_inRuns_ruleString (i : Nat) (hi : InRuns (ruleString b c births survivals) (births.length + 1) i) :
    ∃ d ∈ births ++ survivals, (ruleString b c births survivals)[i]? = some d := by
  obtain ⟨hlow, hhigh⟩ | ⟨hlow, hhigh⟩ := hi
  · obtain ⟨k, rfl⟩ := Nat.exists_eq_add_of_le' hlow
    have hk : k < births.length := by omega
    exact ⟨births[k], List.mem_append_left _ (List.getElem_mem hk), getElem?_ruleString_succ hk⟩
  · obtain ⟨k, rfl⟩ := Nat.exists_eq_add_of_le hlow
    have hk : k < survivals.length := by
      simp only [ruleString, List.length_append, List.length_cons] at hhigh
      omega
    refine ⟨survivals[k], List.mem_append_right _ (List.getElem_mem hk), ?_⟩
    have hdrop : (ruleString b c births survivals).drop (births.length + 1 + 2) = survivals := by simp [ruleString]
    rw [← List.getElem?_drop, hdrop, List.getElem?_eq_getElem hk]

include hb hc hbirths hsurvivals in
theorem ruleForm_ruleString : RuleForm (ruleString b c births survivals) (births.length + 1) where
  ascii := ascii_ruleString hb hc hbirths hsurvivals
  separator := firstAt_separator_ruleString hb hbirths
  birth := not_bad_birth_letter (Nat.le_add_left ..) (by simpa [ruleString] using hb)
  survival := not_bad_survival_letter (by simpa [ruleString] using hc)

include hb hc hbirths hsurvivals in
/-- R142: a rule string passes every check. -/
theorem ruleTextStop_ruleString (off : Nat) : ruleTextStop off (ruleString b c births survivals) = none := by
  have hruns : ∀ i, InRuns (ruleString b c births survivals) (births.length + 1) i →
      ∃ d, (ruleString b c births survivals)[i]? = some d ∧ RuleDigit d := by
    intro i hi
    obtain ⟨d, hd, hget⟩ := mem_of_inRuns_ruleString i hi
    exact ⟨d, hget, (List.mem_append.1 hd).elim (hbirths d) (hsurvivals d)⟩
  refine ruleTextStop_eq_none (ruleForm_ruleString hb hc hbirths hsurvivals) (fun i hi => ?_) (fun i hi => ?_)
  · obtain ⟨d, hget, hlow, hhigh⟩ := hruns i hi
    rw [hget, Option.any_some, digitByte, Bool.and_eq_true, decide_eq_true_eq, decide_eq_true_eq]
    omega
  · obtain ⟨d, hget, hlow, hhigh⟩ := hruns i hi
    intro hnine
    obtain rfl := Option.some.inj (hget.symm.trans hnine)
    exact absurd hhigh (by decide)

include hb hbirths in
theorem compileRule_ruleString :
    compileRule (ruleString b c births survivals) = setEntries 1 survivals (setEntries 0 births 0) := by
  simp only [compileRule, findIdx?_slash_of_firstAt (firstAt_separator_ruleString hb hbirths)]
  simp [ruleString]

include hbirths hsurvivals in
/-- The entry of status `st` and count `n` is set exactly where the run of that status has the digit `n`. -/
theorem getLsbD_compiled_table (st n : Nat) (hst : st < 2) (hn : n ≤ 8) :
    (setEntries 1 survivals (setEntries 0 births 0)).getLsbD (st + 2 * n) = true ↔
      0 = st ∧ BitVec.ofNat 8 (0x30 + n) ∈ births ∨ 1 = st ∧ BitVec.ofNat 8 (0x30 + n) ∈ survivals := by
  rw [getLsbD_setEntries_ruleDigits 1 st n survivals _ hsurvivals (by decide) hst hn,
    getLsbD_setEntries_ruleDigits 0 st n births _ hbirths (by decide) hst hn]
  simp

end Grammar

/-- Settles O36: a rule string passes every check, and its table is that of its two digit runs. -/
theorem rcompCompiles : Obligations.RcompCompiles := by
  intro s b c births survivals hb hc hbirths hsurvivals htxt
  have htxt' : TextIs s (ruleString b c births survivals) := htxt
  have hstop : stopOf .rcomp s = none :=
    (rcompStop_of_textIs htxt').trans (ruleTextStop_ruleString hb hc hbirths hsurvivals _)
  refine ⟨setEntries 1 survivals (setEntries 0 births 0), fun n hn => ⟨?_, ?_⟩, ?_⟩
  · simpa using getLsbD_compiled_table hbirths hsurvivals 0 n (by decide) hn
  · simpa [Nat.add_comm 1] using getLsbD_compiled_table hbirths hsurvivals 1 n (by decide) hn
  · rw [exec_of_none .rcomp s hstop nofun, stageOf, rcompStage, text_of_textIs htxt',
      compileRule_ruleString hb hbirths]
    rfl

end Sys2Proof.Machine
end

