-- ==== Sys2Proof/Proofs/NeighborCode.lean ====
section
/-! PROOFS. The neighborhood code (42_neighborhood_codec.md R170, R171): bit `k` of a code is element `k`, so encode and
decode are inverses (R174); and the two commands that use them, NENC (R172) and NDEC (R173). -/

namespace Sys2Proof.Machine

open Sys2Proof.Claims

/-! ### The code -/

/-- `NbEncode` writes the elements as the bits of a number, element `k` at bit `k`. -/
theorem nbEncode_eq_natOfBits (b : Fin 8 → Bool) : nbEncode b = natOfBits (fun k => b (Fin.ofNat 8 k)) 8 := by
  simp only [natOfBits, Nat.zero_add]
  rfl

/-- R170: element `k` is bit `k` of the code, and the code has no bit beyond the eight. -/
theorem testBit_nbEncode (b : Fin 8 → Bool) (k : Nat) :
    (nbEncode b).testBit k = (decide (k < 8) && b (Fin.ofNat 8 k)) := by
  rw [nbEncode_eq_natOfBits, testBit_natOfBits]

theorem nbDecode_nbEncode (b : Fin 8 → Bool) : nbDecode (nbEncode b) = b := by
  funext k
  have hk : Fin.ofNat 8 k.val = k := Fin.ofNat_val_eq_self k
  rw [nbDecode, testBit_nbEncode, hk, decide_eq_true k.isLt, Bool.true_and]

theorem nbEncode_nbDecode (c : Nat) (hc : c < 256) : nbEncode (nbDecode c) = c := by
  refine Nat.eq_of_testBit_eq fun k => ?_
  rw [testBit_nbEncode]
  by_cases hk : k < 8
  · rw [decide_eq_true hk, Bool.true_and, nbDecode, Fin.val_ofNat, Nat.mod_eq_of_lt hk]
  · have hlt : c < 2 ^ k := Nat.lt_of_lt_of_le hc (Nat.pow_le_pow_right Nat.two_pos (Nat.le_of_not_lt hk))
    rw [decide_eq_false hk, Bool.false_and, Nat.testBit_lt_two_pow hlt]

/-- R173: the elements of NDEC, each shifted to its place, add up to the code of the sequence. -/
theorem sum_shiftLeft_eq_nbEncode (b : Fin 8 → Bool) : (dirs.map fun k => (b k).toNat <<< k.val).sum = nbEncode b := by
  simp [dirs, nbEncode, Nat.shiftLeft_eq, Nat.add_assoc]

/-- A register that holds a code is the word of what its code decodes to. -/
theorem wordOfNat_nbEncode_nbDecode (v : Word) (h : v.toNat < 256) : wordOfNat (nbEncode (nbDecode v.toNat)) = v := by
  rw [nbEncode_nbDecode _ h, wordOfNat, BitVec.ofNat_toNat, BitVec.setWidth_eq]

/-! ### NENC (R172) and NDEC (R173) -/

theorem nencStop_eq_none (s : State) (hlen : s.argNat 0 = 8) (hcode : s.argNat 1 < 256) : nencStop s = none :=
  (if_neg (not_not_intro hlen)).trans (if_pos hcode)

theorem nencStage_of_lt (s : State) (hcode : s.argNat 1 < 256) : nencStage s = s.setRes 0 s.arg[1] :=
  congrArg (s.setRes 0) (wordOfNat_nbEncode_nbDecode s.arg[1] hcode)

theorem ndecStage_of_lt (s : State) (hcode : s.argNat 0 < 256) :
    ndecStage s = (s.setRes 0 8#32).setRes 1 s.arg[0] := by
  rw [ndecStage, sum_shiftLeft_eq_nbEncode]
  exact congrArg ((s.setRes 0 8#32).setRes 1) (wordOfNat_nbEncode_nbDecode s.arg[0] hcode)

/-- Settles O42: the two failures are those of the operand check of NENC; where it passes, the staged code is ARG1. -/
theorem nencRule : Obligations.NencRule := by
  refine ⟨wordOf_encode .nenc, fun s => ⟨fun hlen hcode => ?_, reservedOperandBits.2 s⟩⟩
  rw [exec_of_none .nenc s (nencStop_eq_none s hlen hcode) nofun, stageOf, nencStage_of_lt s hcode]
  exact congrArg _ (commit_setRes s 0 _)

/-- Settles O43: the staged elements, packed, are the code in ARG0. -/
theorem ndecRule : Obligations.NdecRule := by
  refine ⟨wordOf_encode .ndec, fun s => ⟨fun hcode => ?_, exec_of_reserved_arg0 .ndec s 8 _ rfl⟩⟩
  rw [exec_of_none .ndec s (reservedStop_arg0_of_lt s codeBits hcode) nofun, stageOf, ndecStage_of_lt s hcode]
  exact congrArg _ (commit_setRes_setRes s 0 1 _ _)

/-- Settles O44: NDEC leaves the length 8 and the code in RES0 and RES1, operands on which NENC answers the code. -/
theorem codecRoundTrip : Obligations.CodecRoundTrip := by
  refine ⟨nbEncode_nbDecode, nbDecode_nbEncode, fun s hcode => ?_⟩
  refine ⟨_, _, (ndecRule.2 s).1 hcode, (nencRule.2 _).1 ?length ?code, ?result⟩
  case length => simp [State.argNat]
  case code => simpa [State.argNat] using hcode
  case result => simp

end Sys2Proof.Machine
end

