-- ==== Sys2Proof/Proofs/FixedRule.lean ====
section
/-! PROOFS. The Conway rule in its three forms (43_fixed_rule_lut.md R180, R181, R184): the table, the logic and the rule
table of B3/S23 each answer by the status and the number of set bits of the code; and the two commands that use the first
two, LLOOK (R182) and LLOGIC (R183). -/

namespace Sys2Proof.Machine

open Sys2Proof.Claims

/-! ### Counting over the eight directions -/

theorem sum_map_dirs (f : Fin 8 → Nat) : (dirs.map f).sum = ∑ k, f k := by
  simp [dirs, Fin.sum_univ_eight, Nat.add_assoc]

theorem sum_map_dirs_toNat (b : Fin 8 → Bool) :
    (dirs.map fun k => (b k).toNat).sum = (Finset.univ.filter fun k => b k = true).card := by
  simp only [sum_map_dirs, Finset.card_filter, Bool.toNat, Bool.cond_eq_ite]

/-- R181: `popcount` of a register is the number of set bits of its low byte. -/
theorem popcount_toNat (v : Word) :
    popcount v.toNat = (Finset.univ.filter fun k : Fin 8 => v.getLsbD k.val = true).card :=
  sum_map_dirs_toNat fun k => v.getLsbD k.val

theorem popcount_le (c : Nat) : popcount c ≤ 8 :=
  (sum_map_dirs_toNat fun k => c.testBit k.val).trans_le (Finset.card_le_univ _)

theorem popcount_nbEncode (b : Fin 8 → Bool) : popcount (nbEncode b) = ∑ k, (b k).toNat := by
  have hbits : ∀ k : Fin 8, (nbEncode b).testBit k.val = b k := congrFun (nbDecode_nbEncode b)
  simp only [popcount, hbits, sum_map_dirs]

theorem nbEncode_lt (b : Fin 8 → Bool) : nbEncode b < 256 := by
  rw [nbEncode_eq_natOfBits]
  exact natOfBits_lt _ 8

/-- R184 (c): the count does not depend on the order of the code's bits. -/
theorem popcount_nbEncode_perm (b : Fin 8 → Bool) (σ : Equiv.Perm (Fin 8)) :
    popcount (nbEncode (b ∘ σ)) = popcount (nbEncode b) := by
  rw [popcount_nbEncode, popcount_nbEncode]
  exact Equiv.sum_comp σ fun k => (b k).toNat

/-! ### The three forms of the rule -/

/-- R181: birth on 3, survival on 2 or 3. -/
theorem conwayLogic_eq_true_iff (st c : Nat) (hst : st < 2) :
    conwayLogic st c = true ↔ popcount c = 3 ∨ (st = 1 ∧ popcount c = 2) := by
  obtain rfl | rfl : st = 0 ∨ st = 1 := by omega
  · simp [conwayLogic]
  · simp [conwayLogic, or_comm]

/-- R184 (a): the sixteen printed words of R180 are the table of the logic. -/
theorem lut_lutIndex_eq_conwayLogic : ∀ st < 2, ∀ c < 256, lut (lutIndex st c) = conwayLogic st c := by
  decide +kernel

/-- R180: the table answers by the status and the count of the code alone. -/
theorem lut_lutIndex_eq_true_iff (st c : Nat) (hst : st < 2) (hc : c < 256) :
    lut (lutIndex st c) = true ↔ popcount c = 3 ∨ (st = 1 ∧ popcount c = 2) := by
  rw [lut_lutIndex_eq_conwayLogic st hst c hc, conwayLogic_eq_true_iff st c hst]

/-- The rule table whose set entries are 5, 6 and 7 is the Conway rule. -/
theorem rtLookup_conway_eq_true_iff : ∀ st < 2, ∀ n ≤ 8,
    (rtLookup 0x000E0#18 st n = true ↔ n = 3 ∨ (st = 1 ∧ n = 2)) := by
  decide

/-- R142: the rule string B3/S23 compiles to the entries 5, 6 and 7, whatever the state. -/
theorem exec_rcomp_conway {s : State} (h : TextIs s [0x42, 0x33, 0x2F, 0x53, 0x32, 0x33]) :
    exec .rcomp s =
      .next { s with rt := 0x000E0#18, status := { s.status with rtValid := true, busy := false } } := by
  have hstop : stopOf .rcomp s = none :=
    (rcompStop_of_textIs h).trans (ruleTextStop_ruleString (b := 0x42) (c := 0x53) (births := [0x33])
      (survivals := [0x32, 0x33]) (by decide) (by decide) (by decide) (by decide) _)
  have htable : compileRule [0x42, 0x33, 0x2F, 0x53, 0x32, 0x33] = 0x000E0#18 := by decide
  rw [exec_of_none .rcomp s hstop nofun, stageOf, rcompStage, text_of_textIs h, htable]
  rfl

/-- Settles O47: each of the three forms answers by the status and the count, and the count of a code is the same in every
order of its bits. -/
theorem threeRuleFormsAgree : Obligations.ThreeRuleFormsAgree := by
  refine ⟨fun st c hst hc => lut_lutIndex_eq_conwayLogic st hst c hc, fun s t htxt hexec st c hst hc => ?_,
    fun st b σ hst => ?_⟩
  · obtain rfl := Host.Outcome.next.inj ((exec_rcomp_conway htxt).symm.trans hexec)
    rw [Bool.eq_iff_iff, lut_lutIndex_eq_true_iff st c hst hc]
    exact rtLookup_conway_eq_true_iff st hst _ (popcount_le c)
  · rw [Bool.eq_iff_iff, lut_lutIndex_eq_true_iff st _ hst (nbEncode_lt _),
      lut_lutIndex_eq_true_iff st _ hst (nbEncode_lt _), popcount_nbEncode_perm]

/-! ### LLOOK (R182) and LLOGIC (R183) -/

/-- R100: the Boolean result of the logic as a register value. -/
theorem wordOfBool_conwayLogic (st : Nat) (v : Word) (hst : st < 2) :
    wordOfBool (conwayLogic st v.toNat) = conwayResult st v := by
  rw [conwayResult, ← popcount_toNat]
  simp only [← conwayLogic_eq_true_iff st v.toNat hst]
  cases conwayLogic st v.toNat <;> rfl

theorem reservedStop_statusCode_of_lt (s : State) (hst : s.argNat 0 < 2) (hcode : s.argNat 1 < 256) :
    reservedStop s statusCodeFields = none :=
  (if_pos hst).trans (if_pos hcode)

/-- R98: a command on a status and a code faults on the code where only the status fits. -/
theorem exec_of_reserved_code (i : Instr) (s : State) (hfields : operandFields i = [(0, 1), (1, 8)])
    (hst : s.argNat 0 < 2) (hcode : 256 ≤ s.argNat 1) : exec i s = .next (faulted s .illegalOperand 1#32) :=
  reservedOperandBits.1 i s [(0, 1)] [] 1 8 hfields (by simpa using hst) hcode

theorem llogicStage_of_lt (s : State) (hst : s.argNat 0 < 2) :
    llogicStage s = s.setRes 0 (conwayResult (s.argNat 0) s.arg[1]) :=
  congrArg (s.setRes 0) (wordOfBool_conwayLogic _ s.arg[1] hst)

theorem llookStage_of_lt (s : State) (hst : s.argNat 0 < 2) (hcode : s.argNat 1 < 256) :
    llookStage s = s.setRes 0 (conwayResult (s.argNat 0) s.arg[1]) := by
  rw [llookStage, lut_lutIndex_eq_conwayLogic _ hst _ hcode]
  exact llogicStage_of_lt s hst

/-- Settles O45: the operand checks in ARG order; the staged table entry is the result of the logic. -/
theorem llookRule : Obligations.LlookRule := by
  refine ⟨wordOf_encode .llook, fun s => ⟨fun hst hcode => ?_, exec_of_reserved_arg0 .llook s 1 _ rfl,
    exec_of_reserved_code .llook s rfl⟩⟩
  rw [exec_of_none .llook s (reservedStop_statusCode_of_lt s hst hcode) nofun, stageOf, llookStage_of_lt s hst hcode]
  exact congrArg _ (commit_setRes s 0 _)

/-- Settles O46: the operand checks in ARG order, and the staged result of the logic. -/
theorem llogicRule : Obligations.LlogicRule := by
  refine ⟨wordOf_encode .llogic, fun s => ⟨fun hst hcode => ?_, exec_of_reserved_arg0 .llogic s 1 _ rfl,
    exec_of_reserved_code .llogic s rfl⟩⟩
  rw [exec_of_none .llogic s (reservedStop_statusCode_of_lt s hst hcode) nofun, stageOf, llogicStage_of_lt s hst]
  exact congrArg _ (commit_setRes s 0 _)

end Sys2Proof.Machine
end

