-- ==== Sys2Proof/Proofs/NextState.lean ====
section
/-! PROOFS. The next state of a cell (44_update_engine.md R200): both modes answer by the cell's status and the number of
its live neighbour positions, so cells that look alike there have the same next state. -/

namespace Sys2Proof.Machine

open Sys2Proof.Claims

/-! ### The count of live neighbour positions -/

theorem aliveCount_eq_liveNeighbors (B : Memory Bool) (W H i : Nat) : aliveCount B W H i = liveNeighbors B W H i := by
  simp only [aliveCount, sum_map_dirs_toNat, Memory.alive_eq_true, liveNeighbors]

/-- The code that LUT mode looks up has one set bit for each live position. -/
theorem popcount_nbCode (B : Memory Bool) (W H i : Nat) : popcount (nbCode B W H i) = liveNeighbors B W H i := by
  rw [nbCode, popcount_nbEncode, ← sum_map_dirs, ← aliveCount_eq_liveNeighbors, aliveCount]

theorem nbCode_lt (B : Memory Bool) (W H i : Nat) : nbCode B W H i < 256 := nbEncode_lt _

theorem liveNeighbors_le (B : Memory Bool) (W H i : Nat) : liveNeighbors B W H i ≤ 8 := Finset.card_le_univ _

/-! ### The two modes -/

theorem nextCell_rt (rt : BitVec 18) (B : Memory Bool) (W H i : Nat) :
    nextCell .rt rt B W H i = rtLookup rt (B.alive i).toNat (liveNeighbors B W H i) := by
  rw [nextCell, aliveCount_eq_liveNeighbors]

/-- R180: the fixed table is birth on 3 and survival on 2 or 3. -/
theorem nextCell_lut_eq_true_iff (rt : BitVec 18) (B : Memory Bool) (W H i : Nat) :
    nextCell .lut rt B W H i = true ↔
      liveNeighbors B W H i = 3 ∨ ((B.alive i).toNat = 1 ∧ liveNeighbors B W H i = 2) := by
  rw [nextCell, lut_lutIndex_eq_true_iff _ _ (Bool.toNat_lt _) (nbCode_lt B W H i), popcount_nbCode]

/-- R208: with the rule table of B3/S23 the two modes recompute alike. -/
theorem nextCell_rt_conway (rt : BitVec 18) (B : Memory Bool) (W H i : Nat) :
    nextCell .rt 0x000E0#18 B W H i = nextCell .lut rt B W H i := by
  rw [Bool.eq_iff_iff, nextCell_lut_eq_true_iff, nextCell_rt]
  exact rtLookup_conway_eq_true_iff _ (Bool.toNat_lt _) _ (liveNeighbors_le B W H i)

/-- Settles O48: at most 8 positions are live, so the four-bit mask of the index does nothing; in LUT mode the code has
as many set bits as there are live positions. -/
theorem nextStateRule : Obligations.NextStateRule := by
  refine fun rt B W H i => ⟨?_, ?_⟩
  · have hle := liveNeighbors_le B W H i
    rw [nextCell_rt, rtLookup, rtEncode_eq, Nat.mod_eq_of_lt (by omega)]
  · rw [nextCell_lut_eq_true_iff, Bool.toNat_eq_one, Memory.alive_eq_true]

/-! ### Cells that look alike -/

/-- The next state of a cell depends on the cell and its neighbours alone. -/
theorem nextCell_congr (mode : UpdMode) (rt : BitVec 18) (B B' : Memory Bool) (W H i : Nat)
    (hcell : B.read i = B'.read i) (hnbr : ∀ k, B.read (nbrIdx W H i k) = B'.read (nbrIdx W H i k)) :
    nextCell mode rt B W H i = nextCell mode rt B' W H i := by
  cases mode <;> simp only [nextCell, aliveCount, nbCode, Memory.alive, hcell, hnbr]

end Sys2Proof.Machine
end

