-- ==== Sys2Proof/Proofs/UpdateChecks.lean ====
section
/-! PROOFS. The checks of UPD (44_update_engine.md R201): the failure of each in its order, and that none fails where
the statements say that UPD is ready. -/

namespace Sys2Proof.Machine

open Sys2Proof.Claims

/-! ### Information words (60_exceptions.md R260) -/

theorem wordOfNat_code (b : CellBank) : wordOfNat b.code = bankNumber b := by
  rcases b with (_ | _) | _ <;> rfl

/-- The bank code stands in bits 31:28, the index below it. -/
theorem uninitInfo_code (b : CellBank) (i : Nat) :
    uninitInfo b.code i = (bankNumber b <<< 28) ||| BitVec.ofNat 32 i := by
  rcases b with (_ | _) | _ <;> exact BitVec.ofNat_or

/-! ### The rule check -/

theorem updStop_of_no_rule (mode : UpdMode) (sel : BufSel) (s : State) (hgrid : gridOperandStop s gridFields = none)
    (hmode : mode = .rt) (hrt : s.status.rtValid = false) : updStop mode sel s = some (.fault .noRule 0#32) := by
  rw [updStop, hgrid]
  exact if_pos ⟨hmode, hrt⟩

/-- After the grid check and the rule check come the length checks, and after them the written checks. -/
theorem updStop_of_rule (mode : UpdMode) (sel : BufSel) (s : State) (hgrid : gridOperandStop s gridFields = none)
    (hrule : mode = .rt → s.status.rtValid = true) :
    updStop mode sel s = (updLengthStop sel s).or (updWrittenStop sel s) := by
  have hno : ¬ (mode = .rt ∧ s.status.rtValid = false) := fun ⟨hmode, hrt⟩ => by simp [hrule hmode] at hrt
  simp only [updStop, hgrid, if_neg hno]
  cases updLengthStop sel s <;> rfl

/-! ### The length checks -/

/-- The first bank whose LEN exceeds CELL_CAP. -/
theorem updLengthStop_of_bufCapacity (sel : BufSel) (s : State) (before after : List CellBank) (b : CellBank)
    (hbanks : updBanks sel = before ++ b :: after) (hbefore : ∀ c ∈ before, s.len c ≤ s.params.cellCap)
    (hb : s.params.cellCap < s.len b) :
    updLengthStop sel s = some (.fault .bufCapacity (bankNumber b)) := by
  have hfind : (updBanks sel).find? (fun c => decide (s.params.cellCap < s.len c)) = some b :=
    List.find?_eq_some_iff_append.2 ⟨by simpa using hb, before, after, hbanks, by simpa using hbefore⟩
  simp only [updLengthStop, hfind, wordOfNat_code]

/-- Where every LEN fits CELL_CAP, the first bank whose LEN is not W·H. -/
theorem updLengthStop_of_lengthMismatch (sel : BufSel) (s : State) (before after : List CellBank) (b : CellBank)
    (hcap : ∀ c, s.len c ≤ s.params.cellCap) (hbanks : updBanks sel = before ++ b :: after)
    (hbefore : ∀ c ∈ before, s.len c = s.argNat 0 * s.argNat 1) (hb : s.len b ≠ s.argNat 0 * s.argNat 1) :
    updLengthStop sel s = some (.fault .lengthMismatch (bankNumber b)) := by
  have hfits : (updBanks sel).find? (fun c => decide (s.params.cellCap < s.len c)) = none := by
    simpa using fun c _ => hcap c
  have hfind : (updBanks sel).find? (fun c => decide (s.len c ≠ s.argNat 0 * s.argNat 1)) = some b :=
    List.find?_eq_some_iff_append.2 ⟨by simpa using hb, before, after, hbanks, by simpa using hbefore⟩
  simp only [updLengthStop, hfits, hfind, wordOfNat_code]

/-! ### The written checks -/

theorem firstUnwritten_eq_none_of_written {m : Memory Bool} {n : Nat} (h : Written m 0 n) :
    m.firstUnwritten 0 n = none :=
  (m.firstUnwritten_eq_none 0 n).2 fun i _ hi => by simpa using h i (by omega)

theorem firstUnwritten_eq_some_of_written {m : Memory Bool} {n i : Nat} (hi : i < n) (hread : m.read i = none)
    (hlow : Written m 0 i) : m.firstUnwritten 0 n = some i :=
  m.firstUnwritten_eq_some_of_lowest 0 n i (Nat.zero_le i) (by omega) hread fun j _ hj => by simpa using hlow j hj

theorem updWrittenStop_of_world (sel : BufSel) (s : State) (i : Nat) (hi : i < s.argNat 0 * s.argNat 1)
    (hread : (s.buf sel).read i = none) (hlow : Written (s.buf sel) 0 i) :
    updWrittenStop sel s =
      some (.fault .uninitRead ((bankNumber (.buf sel) <<< 28) ||| BitVec.ofNat 32 i)) := by
  simp only [updWrittenStop, firstUnwritten_eq_some_of_written hi hread hlow, uninitInfo_code]

theorem updWrittenStop_of_chg (sel : BufSel) (s : State) (i : Nat)
    (hworld : Written (s.buf sel) 0 (s.argNat 0 * s.argNat 1)) (hi : i < s.argNat 0 * s.argNat 1)
    (hread : s.chg.read i = none) (hlow : Written s.chg 0 i) :
    updWrittenStop sel s = some (.fault .uninitRead ((bankNumber .chg <<< 28) ||| BitVec.ofNat 32 i)) := by
  simp only [updWrittenStop, firstUnwritten_eq_none_of_written hworld,
    firstUnwritten_eq_some_of_written hi hread hlow, uninitInfo_code]

theorem updWrittenStop_of_written (sel : BufSel) (s : State)
    (hworld : Written (s.buf sel) 0 (s.argNat 0 * s.argNat 1)) (hchg : Written s.chg 0 (s.argNat 0 * s.argNat 1)) :
    updWrittenStop sel s = none := by
  simp only [updWrittenStop, firstUnwritten_eq_none_of_written hworld, firstUnwritten_eq_none_of_written hchg]

/-! ### The faults and the ready state -/

theorem exec_upd_of_fault {mode : UpdMode} {sel : BufSel} {s : State} {c : FaultCause} {info : Word}
    (h : updStop mode sel s = some (.fault c info)) : exec (.upd mode sel) s = .next (faulted s c info) :=
  exec_of_some (.upd mode sel) s (.fault c info) h

/-- Settles O53: each fault is that of its own check, and the checks before it in R201 pass. -/
theorem updFaults : Obligations.UpdFaults := by
  intro mode sel s hfit hW hH
  have hgrid : gridOperandStop s gridFields = none := (gridOperandStop_eq_none s gridFields).2 ⟨hfit, hW, hH⟩
  refine ⟨fun hmode hrt => exec_upd_of_fault (updStop_of_no_rule mode sel s hgrid hmode hrt), fun hrule => ?_⟩
  have hstop := updStop_of_rule mode sel s hgrid hrule
  refine ⟨fun before b after hbanks hbefore hb => exec_upd_of_fault ?_,
    fun hcap => ⟨fun before b after hbanks hbefore hb => exec_upd_of_fault ?_, fun hlen => ?_⟩⟩
  · rw [hstop, updLengthStop_of_bufCapacity sel s before after b hbanks hbefore hb, Option.some_or]
  · rw [hstop, updLengthStop_of_lengthMismatch sel s before after b hcap hbanks hbefore hb, Option.some_or]
  · have hlength := (updLengthStop_eq_none sel s).2 fun b _ => ⟨hcap b, hlen b⟩
    rw [hlength, Option.none_or] at hstop
    refine ⟨fun i hi hread hlow => exec_upd_of_fault ?_, fun i hworld hi hread hlow => exec_upd_of_fault ?_⟩
    · rw [hstop, updWrittenStop_of_world sel s i hi hread hlow]
    · rw [hstop, updWrittenStop_of_chg sel s i hworld hi hread hlow]
      rfl

theorem updStop_of_ready {mode : UpdMode} {sel : BufSel} {s : State} (h : UpdReady mode sel s) :
    updStop mode sel s = none := by
  obtain ⟨hW16, hH16, hW, hH, hrule, hcap, hlenWorld, hlenTarget, hlenChg, hworld, hchg⟩ := h
  have hgrid : gridOperandStop s gridFields = none :=
    (gridOperandStop_eq_none s gridFields).2 ⟨by simpa [gridFields, dimBits] using ⟨hW16, hH16⟩, hW, hH⟩
  have hlen : ∀ b ∈ updBanks sel, s.len b = s.argNat 0 * s.argNat 1 := by
    simpa [updBanks] using ⟨hlenWorld, hlenTarget, hlenChg⟩
  have hlength := (updLengthStop_eq_none sel s).2 fun b hb => ⟨hlen b hb ▸ hcap, hlen b hb⟩
  rw [updStop_of_rule mode sel s hgrid hrule, hlength, Option.none_or, updWrittenStop_of_written sel s hworld hchg]

theorem exec_upd_of_ready {mode : UpdMode} {sel : BufSel} {s : State} (h : UpdReady mode sel s) :
    exec (.upd mode sel) s = .next (commit (updStage mode sel s)) :=
  exec_of_none _ s (updStop_of_ready h) nofun

end Sys2Proof.Machine
end

