-- ==== Sys2Proof/Proofs/UpdatePasses.lean ====
section
/-! PROOFS. The two passes of UPD (44_update_engine.md R201 to R205): the cells they visit are the dirty cells and the
boundary cells, each once, and the target after them. From this closed form: incremental update equals full
recomputation (R208), and the two extremes of CHG (R209, R210). -/

namespace Sys2Proof.Machine

open Sys2Proof.Claims

/-! ### Each cell once (R203) -/

theorem pairwise_insertCand (j : Nat) (c : List Nat) (h : c.Pairwise (· < ·)) :
    (insertCand j c).Pairwise (· < ·) := by
  induction c with
  | nil => exact List.pairwise_singleton _ _
  | cons a c ih =>
    obtain ⟨ha, hc⟩ := List.pairwise_cons.1 h
    unfold insertCand
    split
    · next hja =>
      refine List.pairwise_cons.2 ⟨fun b hb => ?_, h⟩
      obtain rfl | hb := List.mem_cons.1 hb
      · exact hja
      · exact Nat.lt_trans hja (ha b hb)
    · split
      · exact h
      · next hlt hne =>
        refine List.pairwise_cons.2 ⟨fun b hb => ?_, ih hc⟩
        obtain rfl | hb := (mem_insertCand b j c).1 hb
        · omega
        · exact ha b hb

theorem pairwise_visitNeighbors (chg : Memory Bool) (W H : Nat) (cand : List Nat) (i : Nat)
    (h : cand.Pairwise (· < ·)) : (visitNeighbors chg W H cand i).Pairwise (· < ·) := by
  refine List.foldlRecOn _ _ h fun c hc k _ => ?_
  split
  · exact hc
  · exact pairwise_insertCand _ c hc

theorem nodup_updCand (chg : Memory Bool) (W H : Nat) (dirty : List Nat) : (updCand chg W H dirty).Nodup := by
  have hsorted : (updCand chg W H dirty).Pairwise (· < ·) :=
    List.foldlRecOn _ _ List.Pairwise.nil fun c hc i _ => pairwise_visitNeighbors chg W H c i hc
  exact hsorted.imp Nat.ne_of_lt

theorem nodup_updDirty (chg : Memory Bool) (n : Nat) : (updDirty chg n).Nodup := List.nodup_range.filter _

/-- A list without repeats of the numbers below `n` that satisfy `p` is as long as there are such numbers. -/
theorem length_eq_card_filter (l : List Nat) (n : Nat) (p : Nat → Prop) [DecidablePred p] (hl : l.Nodup)
    (h : ∀ i, i ∈ l ↔ i < n ∧ p i) : l.length = ((Finset.range n).filter p).card := by
  have hset : l.toFinset = (Finset.range n).filter p := by ext i; simp [h]
  rw [← hset, List.toFinset_card_of_nodup hl]

/-! ### The cells of the two passes (R205) -/

/-- A written cell that is not alive is dead. -/
theorem Memory.read_eq_some_false {m : Memory Bool} {i : Nat} (hwritten : (m.read i).isSome = true)
    (h : m.alive i = false) : m.read i = some false := by
  obtain ⟨v, hv⟩ := Option.isSome_iff_exists.1 hwritten
  cases v with
  | false => exact hv
  | true => simp [Memory.alive, hv] at h

/-- R205: CAND is the set of boundary cells. A cell has a dirty neighbour exactly where it is a neighbour of a dirty
cell, because direction k + 4 leads back. -/
theorem mem_updCand_iff_boundary {mode : UpdMode} {sel : BufSel} {s : State} (h : UpdReady mode sel s) (j : Nat) :
    j ∈ updCand s.chg (s.argNat 0) (s.argNat 1) (updDirty s.chg (s.argNat 0 * s.argNat 1)) ↔
      j < s.argNat 0 * s.argNat 1 ∧ Boundary s (s.argNat 0) (s.argNat 1) j := by
  obtain ⟨-, -, hW, hH, -, -, -, -, -, -, hchg⟩ := h
  rw [mem_updCand]
  constructor
  · rintro ⟨i, hi, k, hk, rfl⟩
    obtain ⟨hiN, hdirty⟩ := (mem_updDirty ..).1 hi
    have hlt := nbrIdx_lt _ _ i k hW hH
    have hwritten := hchg _ hlt
    rw [Nat.zero_add] at hwritten
    refine ⟨hlt, Memory.read_eq_some_false hwritten hk, k + 4, ?_⟩
    rwa [neighborSymmetry _ _ i k hW hH hiN]
  · rintro ⟨hj, hclean, k, hdirty⟩
    have hback : nbrIdx (s.argNat 0) (s.argNat 1) (nbrIdx (s.argNat 0) (s.argNat 1) j k) (k + 4) = j :=
      neighborSymmetry _ _ j k hW hH hj
    refine ⟨_, (mem_updDirty ..).2 ⟨nbrIdx_lt _ _ j k hW hH, hdirty⟩, k + 4, ?_, hback.symm⟩
    rw [hback, Memory.alive, hclean]
    rfl

theorem length_updDirty (s : State) (n : Nat) :
    (updDirty s.chg n).length = ((Finset.range n).filter fun i => Dirty s i).card :=
  length_eq_card_filter _ n _ (nodup_updDirty s.chg n) (mem_updDirty s.chg n)

theorem length_updCand {mode : UpdMode} {sel : BufSel} {s : State} (h : UpdReady mode sel s) :
    (updCand s.chg (s.argNat 0) (s.argNat 1) (updDirty s.chg (s.argNat 0 * s.argNat 1))).length =
      ((Finset.range (s.argNat 0 * s.argNat 1)).filter fun i => Boundary s (s.argNat 0) (s.argNat 1) i).card :=
  length_eq_card_filter _ _ _ (nodup_updCand ..) (mem_updCand_iff_boundary h)

/-! ### The target after the passes -/

theorem read_writeMany_passWrites (mode : UpdMode) (rt : BitVec 18) (B m : Memory Bool) (W H : Nat) (is : List Nat)
    (i : Nat) : (m.writeMany (passWrites mode rt B W H is)).read i =
      if i ∈ is then some (nextCell mode rt B W H i) else m.read i := by
  split
  · next hi =>
    refine Memory.read_writeMany_of m _ (nextCell mode rt B W H) ?_ i ⟨_, List.mem_map_of_mem hi, rfl⟩
    simp [passWrites]
  · next hi =>
    refine Memory.read_writeMany_other m _ i fun c hc => ?_
    obtain ⟨j, hj, rfl⟩ := List.mem_map.1 hc
    exact fun hji => hi (hji ▸ hj)

/-- The target of a ready UPD: its dirty and boundary cells hold their next state, every other cell is as before. -/
theorem read_updTarget {mode : UpdMode} {sel : BufSel} {s : State} (h : UpdReady mode sel s) (target : Memory Bool)
    (i : Nat) :
    (updTarget mode s.rt (s.buf sel) s.chg target (s.argNat 0) (s.argNat 1)).read i =
      if i < s.argNat 0 * s.argNat 1 ∧ (Dirty s i ∨ Boundary s (s.argNat 0) (s.argNat 1) i) then
        some (nextCell mode s.rt (s.buf sel) (s.argNat 0) (s.argNat 1) i)
      else target.read i := by
  rw [updTarget, read_writeMany_passWrites, read_writeMany_passWrites, ← ite_or]
  refine if_congr ?_ rfl rfl
  rw [mem_updCand_iff_boundary h, mem_updDirty, ← and_or_left, or_comm]

@[simp] theorem updStage_buf_other (mode : UpdMode) (sel : BufSel) (s : State) :
    (updStage mode sel s).buf sel.other =
      updTarget mode s.rt (s.buf sel) s.chg (s.buf sel.other) (s.argNat 0) (s.argNat 1) := by
  simp [updStage]

theorem updStage_res_zero (mode : UpdMode) (sel : BufSel) (s : State) :
    (updStage mode sel s).res[0] = wordOfNat (updDirty s.chg (s.argNat 0 * s.argNat 1)).length := by
  simp [updStage]

theorem updStage_res_one (mode : UpdMode) (sel : BufSel) (s : State) :
    (updStage mode sel s).res[1] =
      wordOfNat (updCand s.chg (s.argNat 0) (s.argNat 1) (updDirty s.chg (s.argNat 0 * s.argNat 1))).length := by
  simp [updStage]

theorem commit_updStage (mode : UpdMode) (sel : BufSel) (s : State) :
    commit (updStage mode sel s) =
      { s.setBuf sel.other (updTarget mode s.rt (s.buf sel) s.chg (s.buf sel.other) (s.argNat 0) (s.argNat 1)) with
        res := (s.res.set 0 (wordOfNat (updDirty s.chg (s.argNat 0 * s.argNat 1)).length)).set 1
          (wordOfNat
            (updCand s.chg (s.argNat 0) (s.argNat 1) (updDirty s.chg (s.argNat 0 * s.argNat 1))).length)
        status := doneStatus s.status } := by
  rw [updStage, commit_setRes_setRes, State.setBuf_res, State.setBuf_status]
  rfl

/-- Settles O49: the two passes write the dirty and the boundary cells, each once. -/
theorem updClosedForm : Obligations.UpdClosedForm := by
  intro mode sel s h
  refine ⟨_, read_updTarget h (s.buf sel.other), ?_⟩
  rw [exec_upd_of_ready h, commit_updStage, length_updCand h, length_updDirty]
  rfl

/-! ### Incremental and full recomputation (R208 to R210) -/

/-- R208: where CHG marks the cells that differ, a cell that is not dirty is the same in both generations. -/
theorem read_eq_of_clean {sel : BufSel} {s : State} {P : Memory Bool}
    (hmarks : ∀ i, i < s.argNat 0 * s.argNat 1 → s.chg.read i = some (decide (P.read i ≠ (s.buf sel).read i)))
    {i : Nat} (hi : i < s.argNat 0 * s.argNat 1) (hclean : ¬ Dirty s i) : P.read i = (s.buf sel).read i := by
  by_contra hne
  exact hclean (by rw [Dirty, hmarks i hi, decide_eq_true hne])

/-- Settles O50: a cell that is not recomputed, and its neighbours, are the same in both generations, so the state that
the previous recomputation gave it stands. -/
theorem incrementalEqualsFull : Obligations.IncrementalEqualsFull := by
  refine ⟨fun mode sel s t P h hgen hexec i hi => ?_, nextCell_rt_conway⟩
  obtain rfl := Host.Outcome.next.inj ((exec_upd_of_ready h).symm.trans hexec)
  rw [buf_commit, updStage_buf_other, read_updTarget h]
  split
  · rfl
  · next hkept =>
    obtain ⟨-, -, hW, hH, -⟩ := h
    have hmarks : ∀ j, j < s.argNat 0 * s.argNat 1 →
        s.chg.read j = some (decide (P.read j ≠ (s.buf sel).read j)) := fun j hj => by
      obtain ⟨-, -, -, hmark⟩ := hgen j hj
      exact hmark
    have hclean : ¬ Dirty s i := fun hdirty => hkept ⟨hi, .inl hdirty⟩
    have hcell := read_eq_of_clean hmarks hi hclean
    have hnbr : ∀ k, P.read (nbrIdx (s.argNat 0) (s.argNat 1) i k) =
        (s.buf sel).read (nbrIdx (s.argNat 0) (s.argNat 1) i k) := fun k =>
      read_eq_of_clean hmarks (nbrIdx_lt _ _ i k hW hH) fun hdirty =>
        hkept ⟨hi, .inr ⟨by simpa [hcell] using hmarks i hi, k, hdirty⟩⟩
    obtain ⟨-, hworld, htarget, -⟩ := hgen i hi
    rw [htarget, hcell, hworld, nextCell_congr mode s.rt P (s.buf sel) _ _ i hcell hnbr]

theorem updDirty_eq_range (chg : Memory Bool) (n : Nat) (h : ∀ i, i < n → chg.read i = some true) :
    updDirty chg n = List.range n :=
  List.filter_eq_self.2 fun i hi => (Memory.alive_eq_true chg i).2 (h i (List.mem_range.1 hi))

/-- Settles O51: every cell is dirty, so every cell is recomputed and none is a boundary cell. -/
theorem allDirtyRecomputesAll : Obligations.AllDirtyRecomputesAll := by
  intro mode sel s h hall
  have hcand : updCand s.chg (s.argNat 0) (s.argNat 1) (updDirty s.chg (s.argNat 0 * s.argNat 1)) = [] := by
    refine List.eq_nil_iff_forall_not_mem.2 fun j hj => ?_
    obtain ⟨hlt, hclean, -⟩ := (mem_updCand_iff_boundary h j).1 hj
    simp [hall j hlt] at hclean
  refine ⟨_, exec_upd_of_ready h, ?_, ?_, fun i hi => ?_⟩
  · rw [commit_res, updStage_res_zero, updDirty_eq_range _ _ hall, List.length_range]
    rfl
  · rw [commit_res, updStage_res_one, hcand]
    rfl
  · rw [buf_commit, updStage_buf_other, read_updTarget h, if_pos ⟨hi, .inl (hall i hi)⟩]

theorem State.setBuf_buf_self (s : State) (sel : BufSel) : s.setBuf sel (s.buf sel) = s := by
  cases sel <;> rfl

theorem updDirty_eq_nil (chg : Memory Bool) (n : Nat) (h : ∀ i, i < n → chg.read i = some false) :
    updDirty chg n = [] := by
  refine List.eq_nil_iff_forall_not_mem.2 fun i hi => ?_
  obtain ⟨hlt, hdirty⟩ := (mem_updDirty chg n i).1 hi
  simp [h i hlt] at hdirty

/-- Settles O52: without a dirty cell both passes are empty. -/
theorem nothingDirtyChangesNothing : Obligations.NothingDirtyChangesNothing := by
  intro mode sel s h hnone
  have hdirty := updDirty_eq_nil s.chg _ hnone
  have htarget : updTarget mode s.rt (s.buf sel) s.chg (s.buf sel.other) (s.argNat 0) (s.argNat 1) =
      s.buf sel.other := by
    rw [updTarget, hdirty]
    rfl
  rw [exec_upd_of_ready h, commit_updStage, htarget, State.setBuf_buf_self, hdirty]
  rfl

end Sys2Proof.Machine
end

