-- ==== Sys2Proof/Proofs/PatternText.lean ====
section
/-! PROOFS. Pattern text (45_pattern.md R230): text made of segments without LF splits into one line per segment, and
which lines are kept. -/

namespace Sys2Proof.Machine

/-- The lines of a list of segments without LF, the first of which stands at offset `pos` (R230). -/
def segmentLines (pos : Nat) : List (List Byte) → List Line
  | [] => []
  | g :: segs => { start := pos, bytes := dropCr g } :: segmentLines (pos + (g.length + 1)) segs

/-- Reading a segment without LF adds its bytes to the segment being read and ends no line. -/
theorem splitLines_append (start pos : Nat) (seg g txt : List Byte) (hg : (0x0A : Byte) ∉ g) :
    splitLines start pos seg (g ++ txt) = splitLines start (pos + g.length) (g.reverse ++ seg) txt := by
  induction g generalizing pos seg with
  | nil => rfl
  | cons c g ih =>
    obtain ⟨hc, hrest⟩ := List.ne_and_not_mem_of_not_mem_cons hg
    rw [List.cons_append, splitLines, if_neg hc.symm, ih _ _ hrest, Nat.add_right_comm, List.reverse_cons,
      List.append_assoc, List.singleton_append]
    rfl

/-- R230: splitting segments joined by LF gives the lines of the segments. -/
theorem splitLines_intercalate (pos : Nat) (segs : List (List Byte)) (hne : segs ≠ [])
    (hsegs : ∀ g ∈ segs, (0x0A : Byte) ∉ g) :
    splitLines pos pos [] (List.intercalate [0x0A] segs) = segmentLines pos segs := by
  induction segs generalizing pos with
  | nil => exact absurd rfl hne
  | cons g segs ih =>
    obtain ⟨hg, hrest⟩ := List.forall_mem_cons.1 hsegs
    cases segs with
    | nil =>
      have hlast := splitLines_append pos pos [] g [] hg
      simpa [splitLines, segmentLines] using hlast
    | cons g' segs =>
      rw [List.intercalate_cons_cons, List.append_assoc, splitLines_append _ _ _ _ _ hg, List.singleton_append,
        splitLines, if_pos rfl, Nat.add_assoc, ih _ (List.cons_ne_nil _ _) hrest, List.append_nil,
        List.reverse_reverse, ← segmentLines]

theorem map_bytes_segmentLines (pos : Nat) (segs : List (List Byte)) :
    (segmentLines pos segs).map (fun l => l.bytes) = segs.map dropCr := by
  induction segs generalizing pos with
  | nil => rfl
  | cons g segs ih => rw [segmentLines, List.map_cons, ih, List.map_cons]

/-- Line `j` starts after the `j` segments before it, each with its LF. -/
theorem start_segmentLines (pos : Nat) (segs : List (List Byte)) (j : Nat) (hj : j < segs.length) :
    (segmentLines pos segs)[j]?.map (fun l => l.start) =
      some (pos + ((segs.take j).map fun g => g.length + 1).sum) := by
  induction segs generalizing pos j with
  | nil => exact absurd hj (Nat.not_lt_zero j)
  | cons g segs ih =>
    cases j with
    | zero => rfl
    | succ j =>
      rw [segmentLines, List.getElem?_cons_succ, ih _ j (Nat.lt_of_succ_lt_succ hj), List.take_succ_cons,
        List.map_cons, List.sum_cons, Nat.add_assoc]

theorem isKept_eq_decide (marker : Byte) (l : Line) :
    isKept marker l = decide (0 < l.bytes.length ∧ l.bytes[0]? ≠ some marker) := by
  unfold isKept
  cases l.bytes with
  | nil => rfl
  | cons c cs => simp [bne, beq_eq_decide]

/-- Settles O54: the lines of joined segments are those of `segmentLines`, and `isKept` is the condition of R230. -/
theorem textSplitsIntoLines : Obligations.TextSplitsIntoLines := by
  refine ⟨fun segs hne hsegs => ?_, fun marker txt => List.filter_congr fun l _ => isKept_eq_decide marker l⟩
  rw [textLines, splitLines_intercalate 0 segs hne hsegs]
  refine ⟨map_bytes_segmentLines 0 segs, fun j hj => ?_⟩
  rw [start_segmentLines 0 segs j hj, Nat.zero_add]

end Sys2Proof.Machine
end

