-- ==== Sys2Proof/Proofs/PatternParse.lean ====
section
/-! PROOFS. PPARSE once its text is read (45_pattern.md R231, R232): the failure of each of its checks, in order, and
what PAT holds after its writes. -/

namespace Sys2Proof.Machine

open Sys2Proof.Claims

/-! ### The checks, in order -/

section Checks

variable {p : Params} {off : Nat} {txt : List Byte}

theorem patternTextStop_of_no_line (h : keptLines p.commentMarker txt = []) :
    patternTextStop p off txt = some (.error .patEmpty 0#32) := by
  simp only [patternTextStop, h]
  rfl

/-- The first kept line of another length than the first kept line. -/
theorem patternTextStop_of_row_length (l : Line) (before : List Line) (m : Line) (after : List Line)
    (h : keptLines p.commentMarker txt = l :: before ++ m :: after)
    (hbefore : ∀ b ∈ before, b.bytes.length = l.bytes.length) (hm : m.bytes.length ≠ l.bytes.length) :
    patternTextStop p off txt = some (.error .patRowLength (BitVec.ofNat 32 (off + m.start))) := by
  have hfind : (l :: (before ++ m :: after)).find? (fun k => decide (k.bytes.length ≠ l.bytes.length)) = some m :=
    List.find?_eq_some_iff_append.2 ⟨by simpa using hm, l :: before, after, rfl, by simpa using hbefore⟩
  rw [List.cons_append] at h
  simp only [patternTextStop, h, hfind]
  rfl

theorem patternTextStop_of_capacity (l : Line) (rest : List Line) (h : keptLines p.commentMarker txt = l :: rest)
    (hrows : ∀ m ∈ rest, m.bytes.length = l.bytes.length) (hcap : p.patCap < l.bytes.length * (rest.length + 1)) :
    patternTextStop p off txt = some (.fault .patCapacity 0#32) := by
  have hfind : (l :: rest).find? (fun k => decide (k.bytes.length ≠ l.bytes.length)) = none := by
    simpa using hrows
  simp only [patternTextStop, h, hfind]
  exact if_pos hcap

end Checks

theorem pparseStop_of_textIs {s : State} {txt : List Byte} (h : TextIs s txt) :
    pparseStop s = patternTextStop s.params (s.argNat 0) txt := by
  simp only [pparseStop, textStop_of_textIs h, text_of_textIs h]

theorem exec_pparse_of_patternTextStop {s : State} {txt : List Byte} {e : Stop} (h : TextIs s txt)
    (hstop : patternTextStop s.params (s.argNat 0) txt = some e) : exec .pparse s = .next (endStop s e) :=
  exec_of_some .pparse s e ((pparseStop_of_textIs h).trans hstop)

/-- Settles O56: each failure is that of its own check, and the checks before it in R231 pass. -/
theorem pparseRejects : Obligations.PparseRejects := fun _ _ h =>
  ⟨fun hkept => exec_pparse_of_patternTextStop h (patternTextStop_of_no_line hkept),
    fun l before m after hkept hbefore hm =>
      exec_pparse_of_patternTextStop h (patternTextStop_of_row_length l before m after hkept hbefore hm),
    fun l rest hkept hrows hcap =>
      exec_pparse_of_patternTextStop h (patternTextStop_of_capacity l rest hkept hrows hcap)⟩

/-! ### The pattern bits -/

/-- Writing the values of a list from cell `i` on: cell `i + k` holds value `k`, a cell past them is as before. -/
theorem Memory.read_writeMany_numberFrom {α : Type} (m : Memory α) (i : Nat) (vs : List α) (k : Nat) :
    (m.writeMany (numberFrom i vs)).read (i + k) = vs[k]?.or (m.read (i + k)) := by
  induction vs generalizing m i k with
  | nil => rfl
  | cons v vs ih =>
    rw [numberFrom, Memory.writeMany_cons]
    cases k with
    | zero =>
      have hlater : ∀ c ∈ numberFrom (i + 1) vs, c.1 ≠ i := fun c hc => by
        have hmem := List.mem_map_of_mem (f := Prod.fst) hc
        rw [map_fst_numberFrom, List.mem_range'_1] at hmem
        omega
      rw [Nat.add_zero i, Memory.read_writeMany_other _ _ _ hlater, Memory.read_write_same]
      rfl
    | succ k =>
      rw [show i + (k + 1) = i + 1 + k by omega, ih, Memory.read_write_other _ _ _ _ (by omega)]
      rfl

/-- Where every row has `n` cells, bit `r * n + c` is that of byte `c` of row `r` (R231). -/
theorem getElem?_patBits (marker : Byte) (kept : List Line) (n r c : Nat) (h : ∀ l ∈ kept, l.bytes.length = n)
    (hc : c < n) :
    (patBits marker kept)[r * n + c]? = (kept[r]?.bind fun l => l.bytes[c]?).map fun b => b == marker := by
  induction kept generalizing r with
  | nil => rfl
  | cons l kept ih =>
    obtain ⟨hl, hkept⟩ := List.forall_mem_cons.1 h
    have hlen : (l.bytes.map fun b => b == marker).length = n := by rw [List.length_map, hl]
    have hcons : patBits marker (l :: kept) = (l.bytes.map fun b => b == marker) ++ patBits marker kept :=
      List.flatMap_cons
    rw [hcons]
    cases r with
    | zero =>
      rw [Nat.zero_mul, Nat.zero_add, List.getElem?_append_left (hlen.symm ▸ hc), List.getElem?_map]
      rfl
    | succ r =>
      have hindex : (r + 1) * n + c = n + (r * n + c) := by ring
      rw [hindex, List.getElem?_append_right (by omega), hlen, Nat.add_sub_cancel_left, ih r hkept]
      rfl

theorem commit_pparseStage {s : State} {txt : List Byte} {l : Line} {rest : List Line} (h : TextIs s txt)
    (hkept : keptLines s.params.commentMarker txt = l :: rest) :
    commit (pparseStage s) = { s with
      pat := s.pat.writeMany (numberFrom 0 (patBits s.params.aliveMarker (l :: rest)))
      patW := BitVec.ofNat 32 l.bytes.length
      patH := BitVec.ofNat 32 (rest.length + 1)
      res := (s.res.set 0 (BitVec.ofNat 32 l.bytes.length)).set 1 (BitVec.ofNat 32 (rest.length + 1))
      status := { s.status with patValid := true, busy := false } } := by
  rw [pparseStage, text_of_textIs h, hkept]
  rfl

/-- Settles O55: the rows have one length, so the numbered bits are the pattern in row-major order. -/
theorem pparseParses : Obligations.PparseParses := by
  intro s txt l rest h hkept hrest hcap
  have hrows : ∀ m ∈ l :: rest, m.bytes.length = l.bytes.length := List.forall_mem_cons.2 ⟨rfl, hrest⟩
  have hstop : stopOf .pparse s = none :=
    (pparseStop_of_textIs h).trans ((patternTextStop_eq_none ..).2 ⟨l, rest, hkept, hrows, hcap⟩)
  have hbits := length_patBits s.params.aliveMarker (l :: rest) l.bytes.length hrows
  have hread := s.pat.read_writeMany_numberFrom 0 (patBits s.params.aliveMarker (l :: rest))
  simp only [Nat.zero_add] at hread
  refine ⟨_, fun r c hr hc => ?_, fun i hi => ?_,
    (exec_of_none .pparse s hstop nofun).trans (congrArg _ (commit_pparseStage h hkept))⟩
  · have hlt : r * l.bytes.length + c < (patBits s.params.aliveMarker (l :: rest)).length :=
      hbits ▸ lin_lt l.bytes.length (rest.length + 1) (c, r) hc hr
    rw [hread, List.getElem?_eq_getElem hlt, Option.some_or, ← List.getElem?_eq_getElem hlt,
      getElem?_patBits _ _ _ _ _ hrows hc]
  · rw [hread, List.getElem?_eq_none (hbits ▸ hi), Option.none_or]

end Sys2Proof.Machine
end

