-- ==== Sys2Proof/Proofs/PatternPlace.lean ====
section
/-! PROOFS. PPLACE (45_pattern.md R233 to R235): the failures of its checks, and the rectangle it writes. A destination
cell is the cell of the grid at column px + c and row py + r, so its column and row give back c and r. -/

namespace Sys2Proof.Machine

open Sys2Proof.Claims

/-! ### The checks, in order -/

/-- The checks of PPLACE after the grid check (R234). -/
theorem pplaceStop_of_grid (sel : BufSel) (s : State) (hfit : FieldsFit (.pplace sel) s) (hW : 1 ≤ s.argNat 0)
    (hH : 1 ≤ s.argNat 1) :
    pplaceStop sel s =
      if s.status.patValid = false then some (.fault .noPattern 0#32)
      else if s.params.cellCap < s.len (.buf sel) then some (.fault .bufCapacity (bankNumber (.buf sel)))
      else if s.len (.buf sel) < s.argNat 0 * s.argNat 1 then some (.fault .placeBounds 0#32)
      else if s.argNat 0 < s.argNat 2 + s.patW.toNat then some (.fault .placeBounds 1#32)
      else if s.argNat 1 < s.argNat 3 + s.patH.toNat then some (.fault .placeBounds 2#32)
      else none := by
  have hgrid : gridOperandStop s gridPosFields = none := (gridOperandStop_eq_none s gridPosFields).2 ⟨hfit, hW, hH⟩
  rw [pplaceStop, hgrid, ← wordOfNat_code]
  rfl

/-- Settles O58: each fault is that of its own check, and the checks before it in R234 pass. -/
theorem pplaceFaults : Obligations.PplaceFaults := by
  intro sel s hfit hW hH
  have hstop : stopOf (.pplace sel) s = _ := pplaceStop_of_grid sel s hfit hW hH
  refine ⟨fun hnone => exec_of_some _ s _ (hstop.trans (if_pos hnone)), fun hvalid => ?_⟩
  rw [if_neg (by simp [hvalid])] at hstop
  refine ⟨fun hcap => exec_of_some _ s _ (hstop.trans (if_pos hcap)), fun hcap => ?_⟩
  rw [if_neg (Nat.not_lt.2 hcap)] at hstop
  refine ⟨fun hlen => exec_of_some _ s _ (hstop.trans (if_pos hlen)), fun hlen => ?_⟩
  rw [if_neg (Nat.not_lt.2 hlen)] at hstop
  refine ⟨fun hx => exec_of_some _ s _ (hstop.trans (if_pos hx)), fun hx hy => ?_⟩
  rw [if_neg (Nat.not_lt.2 hx)] at hstop
  exact exec_of_some _ s _ (hstop.trans (if_pos hy))

/-! ### The rectangle -/

theorem mem_placeWrites (pat : Memory Bool) (pw ph W px py : Nat) (w : Nat × Bool) :
    w ∈ placeWrites pat pw ph W px py ↔
      ∃ r c, r < ph ∧ c < pw ∧ (placeIndex W px py r c, pat.alive (r * pw + c)) = w := by
  simp only [placeWrites, List.mem_flatMap, List.mem_map, List.mem_range]
  exact ⟨fun ⟨r, hr, c, hc, hw⟩ => ⟨r, c, hr, hc, hw⟩, fun ⟨r, c, hr, hc, hw⟩ => ⟨r, hr, c, hc, hw⟩⟩

/-- The value PPLACE gives the grid cell `j` of its rectangle: the pattern cell at the column and row of `j` less the
position. -/
def placedCell (pat : Memory Bool) (pw W px py j : Nat) : Bool := pat.alive ((j / W - py) * pw + (j % W - px))

theorem placedCell_placeIndex (pat : Memory Bool) (pw W px py r c : Nat) (hx : px + c < W) :
    placedCell pat pw W px py (placeIndex W px py r c) = pat.alive (r * pw + c) := by
  have hlin : placeIndex W px py r c = lin W (px + c, py + r) := rfl
  rw [placedCell, hlin, lin_div W _ _ hx, lin_mod W _ _ hx, Nat.add_sub_cancel_left, Nat.add_sub_cancel_left]

/-- A cell of the rectangle holds its pattern cell: no two pattern cells have one destination. -/
theorem read_writeMany_placeWrites (m pat : Memory Bool) {pw ph W px py r c : Nat} (hx : px + pw ≤ W) (hr : r < ph)
    (hc : c < pw) :
    (m.writeMany (placeWrites pat pw ph W px py)).read (placeIndex W px py r c) = some (pat.alive (r * pw + c)) := by
  have hvalue : ∀ w ∈ placeWrites pat pw ph W px py, w.2 = placedCell pat pw W px py w.1 := fun w hw => by
    obtain ⟨r', c', -, hc', rfl⟩ := (mem_placeWrites ..).1 hw
    exact (placedCell_placeIndex pat pw W px py r' c' (by omega)).symm
  have hmem := (mem_placeWrites pat pw ph W px py _).2 ⟨r, c, hr, hc, rfl⟩
  rw [Memory.read_writeMany_of m _ _ hvalue _ ⟨_, hmem, rfl⟩, placedCell_placeIndex _ _ _ _ _ _ _ (by omega)]

theorem read_writeMany_placeWrites_other (m pat : Memory Bool) {pw ph W px py j : Nat}
    (hj : ∀ r c, r < ph → c < pw → j ≠ placeIndex W px py r c) :
    (m.writeMany (placeWrites pat pw ph W px py)).read j = m.read j := by
  refine Memory.read_writeMany_other m _ j fun w hw => ?_
  obtain ⟨r, c, hr, hc, rfl⟩ := (mem_placeWrites ..).1 hw
  exact (hj r c hr hc).symm

/-- R235: placing a pattern twice gives every cell the value that placing it once gives. -/
theorem read_placeWrites_twice (m pat : Memory Bool) {pw ph W px py : Nat} (hx : px + pw ≤ W) (j : Nat) :
    ((m.writeMany (placeWrites pat pw ph W px py)).writeMany (placeWrites pat pw ph W px py)).read j =
      (m.writeMany (placeWrites pat pw ph W px py)).read j := by
  by_cases hj : ∀ r c, r < ph → c < pw → j ≠ placeIndex W px py r c
  · exact read_writeMany_placeWrites_other _ pat hj
  · push Not at hj
    obtain ⟨r, c, hr, hc, rfl⟩ := hj
    rw [read_writeMany_placeWrites _ pat hx hr hc, read_writeMany_placeWrites _ pat hx hr hc]

/-! ### Success (R235) -/

theorem Memory.some_alive_of_written {m : Memory Bool} {i : Nat} (h : (m.read i).isSome = true) :
    some (m.alive i) = m.read i := by
  obtain ⟨v, hv⟩ := Option.isSome_iff_exists.1 h
  cases v <;> simp [Memory.alive, hv]

/-- Under the invariant every cell of the pattern is written (R40). -/
theorem State.Inv.some_alive_pat {s : State} (h : s.Inv) (hvalid : s.status.patValid = true) {r c : Nat}
    (hr : r < s.patH.toNat) (hc : c < s.patW.toNat) :
    some (s.pat.alive (r * s.patW.toNat + c)) = s.pat.read (r * s.patW.toNat + c) := by
  obtain ⟨-, -, -, hwritten⟩ := h.tables.pat hvalid
  exact Memory.some_alive_of_written (hwritten _ (lin_lt s.patW.toNat s.patH.toNat (c, r) hc hr))

theorem exec_pplace_of_ready {sel : BufSel} {s : State} (h : s.Inv) (hready : PplaceReady sel s) :
    exec (.pplace sel) s = .next (commit (pplaceStage sel s)) := by
  have hstop : pplaceStop sel s = none := (pplaceStop_eq_none sel s).2 hready
  exact exec_of_none (.pplace sel) s hstop fun _ _ => h.firstUnwritten_pat sel hstop

theorem commit_pplaceStage (sel : BufSel) (s : State) :
    commit (pplaceStage sel s) =
      { s.setBuf sel ((s.buf sel).writeMany
          (placeWrites s.pat s.patW.toNat s.patH.toNat (s.argNat 0) (s.argNat 2) (s.argNat 3))) with
        status := doneStatus s.status } := by
  rw [commit, pplaceStage_status]
  rfl

/-- PPLACE leaves everything its checks read as it was, so the same PPLACE is ready again. -/
theorem pplaceReady_commit_pplaceStage {sel : BufSel} {s : State} (h : PplaceReady sel s) :
    PplaceReady sel (commit (pplaceStage sel s)) := by
  cases sel <;> exact h

theorem buf_commit_pplaceStage (sel : BufSel) (s : State) :
    (commit (pplaceStage sel s)).buf sel = (s.buf sel).writeMany
      (placeWrites s.pat s.patW.toNat s.patH.toNat (s.argNat 0) (s.argNat 2) (s.argNat 3)) := by
  rw [buf_commit, pplaceStage, State.setBuf_buf]

/-- Settles O57: the staged writes fill the rectangle; a second PPLACE finds its checks passing and writes the same. -/
theorem pplaceCopiesPattern : Obligations.PplaceCopiesPattern := by
  intro sel s hinv hready
  have hagain := exec_pplace_of_ready (hinv.pplaceStage sel ((pplaceStop_eq_none sel s).2 hready)).commit
    (pplaceReady_commit_pplaceStage hready)
  obtain ⟨-, -, -, hvalid, -, -, hx, -⟩ := id hready
  rw [commit_pplaceStage sel s] at hagain
  refine ⟨_, fun r c hr hc => ?_, fun j hj => ?_,
    (exec_pplace_of_ready hinv hready).trans (congrArg _ (commit_pplaceStage sel s)), _, hagain, fun j => ?_⟩
  · rw [← hinv.some_alive_pat hvalid hr hc, Nat.add_assoc]
    exact read_writeMany_placeWrites _ s.pat hx hr hc
  · refine read_writeMany_placeWrites_other _ s.pat fun r c hr hc => ?_
    rw [placeIndex, ← Nat.add_assoc]
    exact hj r c hr hc
  · rw [buf_commit_pplaceStage]
    cases sel <;> exact read_placeWrites_twice _ s.pat hx j

end Sys2Proof.Machine
end

