-- ==== Sys2Proof/Proofs/PatternCenter.lean ====
section
/-! PROOFS. PCENTER (45_pattern.md R236): the failures of its checks and the offset it answers; and that PPLACE at this
offset fits the grid (R237). -/

namespace Sys2Proof.Machine

open Sys2Proof.Claims

/-! ### PCENTER -/

/-- The checks of PCENTER after the grid check (R236). -/
theorem pcenterStop_of_grid (s : State) (hfit : FieldsFit .pcenter s) (hW : 1 ≤ s.argNat 0) (hH : 1 ≤ s.argNat 1) :
    pcenterStop s =
      if s.status.patValid = false then some (.fault .noPattern 0#32)
      else if s.argNat 0 < s.patW.toNat then some (.fault .centerBounds 1#32)
      else if s.argNat 1 < s.patH.toNat then some (.fault .centerBounds 2#32)
      else none := by
  have hgrid : gridOperandStop s gridFields = none := (gridOperandStop_eq_none s gridFields).2 ⟨hfit, hW, hH⟩
  rw [pcenterStop, hgrid]
  rfl

/-- The checks of PCENTER all pass (R236). -/
abbrev PcenterReady (s : State) : Prop :=
  FieldsFit .pcenter s ∧ 1 ≤ s.argNat 0 ∧ 1 ≤ s.argNat 1 ∧ s.status.patValid = true ∧
    s.patW.toNat ≤ s.argNat 0 ∧ s.patH.toNat ≤ s.argNat 1

theorem exec_pcenter_of_ready {s : State} (h : PcenterReady s) :
    exec .pcenter s = .next (commit (pcenterStage s)) := by
  obtain ⟨hfit, hW, hH, hvalid, hx, hy⟩ := h
  have hstop : stopOf .pcenter s = _ := pcenterStop_of_grid s hfit hW hH
  rw [if_neg (by simp [hvalid]), if_neg (Nat.not_lt.2 hx), if_neg (Nat.not_lt.2 hy)] at hstop
  exact exec_of_none .pcenter s hstop nofun

/-- Settles O59: each fault is that of its own check, in the order of R236, and past them the staged offset stands. -/
theorem pcenterRule : Obligations.PcenterRule := by
  refine ⟨wordOf_encode .pcenter, fun s => ⟨exec_of_reserved_arg0 .pcenter s 16 _ rfl, fun hW hH => ?_,
    zeroDimensionFaults .pcenter s rfl, fun hfit hW hH => ?_⟩⟩
  · exact reservedOperandBits.1 .pcenter s [(0, 16)] [] 1 16 rfl (List.forall_mem_singleton.2 hW) hH
  · have hstop : stopOf .pcenter s = _ := pcenterStop_of_grid s hfit hW hH
    refine ⟨fun hvalid hx hy => ?_, fun hnone => ?_, fun hvalid hx => ?_, fun hvalid hx hy => ?_⟩
    · exact (exec_pcenter_of_ready ⟨hfit, hW, hH, hvalid, hx, hy⟩).trans
        (congrArg _ (commit_setRes_setRes s 0 1 _ _))
    · exact exec_of_some .pcenter s _ (hstop.trans (if_pos hnone))
    · rw [if_neg (by simp [hvalid]), if_pos hx] at hstop
      exact exec_of_some .pcenter s _ hstop
    · rw [if_neg (by simp [hvalid]), if_neg (Nat.not_lt.2 hx), if_pos hy] at hstop
      exact exec_of_some .pcenter s _ hstop

/-! ### A PCENTER that succeeds -/

/-- A PCENTER that does not fault has passed its checks, since each of them faults (R236). -/
theorem pcenterReady_of_exec {s t : State} (h : exec .pcenter s = .next t) (hfault : t.status.fault = false) :
    PcenterReady s := by
  have hnot : ∀ c info, exec .pcenter s ≠ .next (faulted s c info) := fun c info hc => by
    obtain rfl := Host.Outcome.next.inj (h.symm.trans hc)
    exact nomatch hfault
  obtain ⟨hfield0, hfield1, hzero, hchecks⟩ := pcenterRule.2 s
  have hW16 : s.argNat 0 < 65536 := Nat.not_le.1 fun hle => hnot _ _ (hfield0 hle)
  have hH16 : s.argNat 1 < 65536 := Nat.not_le.1 fun hle => hnot _ _ (hfield1 hW16 hle)
  have hfit : FieldsFit .pcenter s := List.forall_mem_cons.2 ⟨hW16, List.forall_mem_singleton.2 hH16⟩
  have hW : 1 ≤ s.argNat 0 := Nat.one_le_iff_ne_zero.2 fun h0 => hnot _ _ (hzero hfit (.inl h0))
  have hH : 1 ≤ s.argNat 1 := Nat.one_le_iff_ne_zero.2 fun h1 => hnot _ _ (hzero hfit (.inr h1))
  obtain ⟨-, hnoPattern, hwide, hhigh⟩ := hchecks hfit hW hH
  have hvalid : s.status.patValid = true := Bool.eq_true_of_not_eq_false fun hv => hnot _ _ (hnoPattern hv)
  have hx : s.patW.toNat ≤ s.argNat 0 := Nat.not_lt.1 fun hlt => hnot _ _ (hwide hvalid hlt)
  exact ⟨hfit, hW, hH, hvalid, hx, Nat.not_lt.1 fun hlt => hnot _ _ (hhigh hvalid hx hlt)⟩

/-- The slack of a 16-bit dimension, halved, fits a register. -/
theorem toNat_wordOfNat_half_slack (W n : Nat) (hW : W < 65536) :
    (wordOfNat ((W - n) / 2)).toNat = (W - n) / 2 :=
  toNat_wordOfNat _ (by omega)

/-- R237: the halved slack of a dimension and the footprint together do not exceed it. -/
theorem pcenter_offset_fits {s : State} (h : PcenterReady s) :
    (commit (pcenterStage s)).res[0].toNat + s.patW.toNat ≤ s.argNat 0 ∧
      (commit (pcenterStage s)).res[1].toNat + s.patH.toNat ≤ s.argNat 1 := by
  obtain ⟨hfit, -, -, -, hx, hy⟩ := h
  have hW : s.argNat 0 < 65536 := hfit (0, 16) (by decide)
  have hH : s.argNat 1 < 65536 := hfit (1, 16) (by decide)
  have hres0 : (commit (pcenterStage s)).res[0].toNat = (s.argNat 0 - s.patW.toNat) / 2 := by
    simp [pcenterStage, toNat_wordOfNat_half_slack _ _ hW]
  have hres1 : (commit (pcenterStage s)).res[1].toNat = (s.argNat 1 - s.patH.toNat) / 2 := by
    simp [pcenterStage, toNat_wordOfNat_half_slack _ _ hH]
  omega

/-! ### PPLACE at the centered offset (R237) -/

/-- The state in which the host has written RES0 and RES1 to the position operands of PPLACE, ARG2 and ARG3. -/
def State.positionFromRes (t : State) : State := { t with arg := (t.arg.set 2 t.res[0]).set 3 t.res[1] }

@[simp] theorem State.positionFromRes_argNat_zero (t : State) : t.positionFromRes.argNat 0 = t.argNat 0 := by
  simp [State.positionFromRes, State.argNat]

@[simp] theorem State.positionFromRes_argNat_one (t : State) : t.positionFromRes.argNat 1 = t.argNat 1 := by
  simp [State.positionFromRes, State.argNat]

@[simp] theorem State.positionFromRes_argNat_two (t : State) : t.positionFromRes.argNat 2 = t.res[0].toNat := by
  simp [State.positionFromRes, State.argNat]

@[simp] theorem State.positionFromRes_argNat_three (t : State) : t.positionFromRes.argNat 3 = t.res[1].toNat := by
  simp [State.positionFromRes, State.argNat]

/-- The operands of PPLACE fit, and the pattern fits the grid at its position (R233): the checks of the buffer's length
are left. -/
abbrev PlaceFits (sel : BufSel) (s : State) : Prop :=
  FieldsFit (.pplace sel) s ∧ 1 ≤ s.argNat 0 ∧ 1 ≤ s.argNat 1 ∧ s.status.patValid = true ∧
    s.argNat 2 + s.patW.toNat ≤ s.argNat 0 ∧ s.argNat 3 + s.patH.toNat ≤ s.argNat 1

theorem placeFits_positionFromRes (sel : BufSel) {t : State} (h : PcenterReady t)
    (hx : t.res[0].toNat + t.patW.toNat ≤ t.argNat 0) (hy : t.res[1].toNat + t.patH.toNat ≤ t.argNat 1) :
    PlaceFits sel t.positionFromRes := by
  obtain ⟨hfit, hW, hH, hvalid, -, -⟩ := h
  have hW16 : t.argNat 0 < 65536 := hfit (0, 16) (by decide)
  have hH16 : t.argNat 1 < 65536 := hfit (1, 16) (by decide)
  simp only [PlaceFits, FieldsFit, operandFields, List.forall_mem_cons, State.positionFromRes_argNat_zero,
    State.positionFromRes_argNat_one, State.positionFromRes_argNat_two, State.positionFromRes_argNat_three]
  exact ⟨⟨hW16, hH16, by omega, by omega, nofun⟩, hW, hH, hvalid, hx, hy⟩

/-- A command that ends in a fault while FAULT was clear has a check that fails with that fault. -/
theorem stopOf_of_exec_eq_faulted {i : Instr} {s : State} {c : FaultCause} {info : Word}
    (hfault : s.status.fault = false) (h : exec i s = .next (faulted s c info)) :
    stopOf i s = some (.fault c info) := by
  obtain ⟨e, hstop, hend⟩ | ⟨-, hend⟩ := exec_next i s _ h
  · have hflag : (endStop s e).status.fault = true := by rw [← hend]; rfl
    obtain ⟨c', info', rfl, hentry⟩ | ⟨c', info', rfl, hentry⟩ := endStop_cases s e
    · rw [hentry] at hflag
      exact absurd (hfault.symm.trans hflag) Bool.false_ne_true
    · rw [hentry] at hend
      have hcause : Cause.fault c = Cause.fault c' := congrArg (fun t => t.status.cause) hend
      have hinfo : info = info' := congrArg State.finfo hend
      rw [hstop, Cause.fault.inj hcause, hinfo]
  · obtain ⟨-, hkept, -⟩ := stageOf_status_err_fault_cause i s
    have hflag : (stageOf i s).status.fault = true := (congrArg (fun t => t.status.fault) hend).symm
    exact absurd ((hkept.trans hfault).symm.trans hflag) Bool.false_ne_true

/-- Where the pattern fits the grid, PPLACE does not end in PLACE_BOUNDS with another information word than 0. -/
theorem exec_pplace_ne_placeBounds {sel : BufSel} {s : State} {info : Word} (h : PlaceFits sel s)
    (hfault : s.status.fault = false) (hinfo : info ≠ 0#32) :
    exec (.pplace sel) s ≠ .next (faulted s .placeBounds info) := by
  intro hexec
  obtain ⟨hfit, hW, hH, hvalid, hx, hy⟩ := h
  have hstop : pplaceStop sel s = some (.fault .placeBounds info) := stopOf_of_exec_eq_faulted hfault hexec
  rw [pplaceStop_of_grid sel s hfit hW hH, if_neg (by simp [hvalid]), if_neg (Nat.not_lt.2 hx),
    if_neg (Nat.not_lt.2 hy)] at hstop
  split_ifs at hstop
  · simp at hstop
  · simp [hinfo.symm] at hstop

/-- Settles O60: the offset fits, so of the checks of PPLACE only those of the buffer's length can fail. -/
theorem centerThenPlaceFits : Obligations.CenterThenPlaceFits := by
  intro sel s t u _ hexec hfault hu
  have hready := pcenterReady_of_exec hexec hfault
  obtain rfl := Host.Outcome.next.inj ((exec_pcenter_of_ready hready).symm.trans hexec)
  obtain ⟨hx, hy⟩ := pcenter_offset_fits hready
  have hplace : PlaceFits sel u :=
    hu ▸ placeFits_positionFromRes sel (t := commit (pcenterStage s)) hready hx hy
  have hfault' : u.status.fault = false := hu ▸ hfault
  refine ⟨⟨hx, hy⟩, exec_pplace_ne_placeBounds hplace hfault' (by decide),
    exec_pplace_ne_placeBounds hplace hfault' (by decide), fun hcap hlen => ?_⟩
  obtain ⟨hfit, hW, hH, hvalid, -, -⟩ := hplace
  obtain ⟨-, hchecks⟩ := pplaceFaults sel u hfit hW hH
  obtain ⟨-, hbounds⟩ := hchecks hvalid
  exact (hbounds hcap).1 hlen

end Sys2Proof.Machine
end

