-- ==== Sys2Proof/Proofs/FaultSticks.lean ====
section
/-! PROOFS. The halted block (10_state.md R29, R43; 60_exceptions.md R266): of the host's accesses only the CTRL write that
resets changes STATUS, FINFO or CMD while FAULT = 1 and BUSY = 0. -/

namespace Sys2Proof.Machine

/-! ### The accesses that reach CTRL (20_memory.md R62) -/

theorem eq_of_windowAt_eq_some {n w : Nat} {t : Nat → Target} {x : Target} (h : windowAt n w t = some x) : t w = x := by
  unfold windowAt at h
  split at h
  · exact Option.some.inj h
  · simp at h

theorem eq_two_of_registerAt_eq_ctrl {k : Nat} (h : registerAt k = some .ctrl) : k = 2 := by
  unfold registerAt at h
  split at h <;> cases h
  rfl

/-- CTRL is no word of a window, so its address lies among the registers. -/
theorem div_four_of_targetAt_eq_ctrl {p : Params} {a : Nat} (h : targetAt p a = some .ctrl) : a / 4 = 2 := by
  unfold targetAt at h
  split_ifs at h
  · exact eq_two_of_registerAt_eq_ctrl h
  all_goals exact absurd (eq_of_windowAt_eq_some h) nofun

theorem accessTarget_eq_ctrl {p : Params} {bits : Nat} {a : Addr} :
    accessTarget p bits a = some .ctrl ↔ bits = 32 ∧ a = 0x000008#24 := by
  refine ⟨fun h => ?_, fun ⟨hbits, ha⟩ => by rw [hbits, ha, accessTarget_ctrl]⟩
  unfold accessTarget at h
  split_ifs at h with haccess
  obtain ⟨hwidth, haligned⟩ := haccess
  simp only [accessWidthOk, accessAligned, beq_iff_eq] at hwidth haligned
  have hword := div_four_of_targetAt_eq_ctrl h
  exact ⟨hwidth, BitVec.eq_of_toNat_eq (by simp; omega)⟩

/-! ### What a host step can do -/

/-- A host step that answers a next state idles, or makes the write, the read or the turn of `wait` that stands next. -/
theorem hostStep_eq_next {s t : State} (h : hostStep s = .next t) :
    (s.host.prog = [] ∧ t = s) ∨
      (∃ bits a v rest w, s.host.prog = .wr bits a v :: rest ∧ v.eval s.host.names = .ok w ∧
        t = hostWrite (s.withProg rest) bits a w) ∨
      (∃ bits a into rest, s.host.prog = .rd bits a into :: rest ∧ t = hostRd (s.withProg rest) bits a into) ∨
      (∃ rest, s.host.prog = .wait :: rest ∧ t = hostWait s rest) := by
  cases hprog : s.host.prog with
  | nil => exact .inl ⟨rfl, by simpa [hostStep, hprog, eq_comm] using h⟩
  | cons stmt rest =>
    refine .inr ?_
    cases stmt with
    | wr bits a v =>
      cases hv : v.eval s.host.names with
      | error n => simp [hostStep, hprog, hostWr, hv] at h
      | ok w => exact .inl ⟨bits, a, v, rest, w, rfl, hv, by simpa [hostStep, hprog, hostWr, hv, eq_comm] using h⟩
    | rd bits a into => exact .inr (.inl ⟨bits, a, into, rest, rfl, by simpa [hostStep, hprog, eq_comm] using h⟩)
    | wait => exact .inr (.inr ⟨rest, rfl, by simpa [hostStep, hprog, eq_comm] using h⟩)

/-! ### The cause of a fault -/

/-- `t` has the STATUS, FINFO and CMD of `s`: the flags and the cause, the information word and the command word. -/
structure CauseKept (s t : State) : Prop where
  status : t.status = s.status
  finfo : t.finfo = s.finfo
  cmd : t.cmd = s.cmd

namespace CauseKept

theorem refl (s : State) : CauseKept s s := ⟨rfl, rfl, rfl⟩

theorem trans {s t u : State} (hst : CauseKept s t) (htu : CauseKept t u) : CauseKept s u :=
  ⟨htu.status.trans hst.status, htu.finfo.trans hst.finfo, htu.cmd.trans hst.cmd⟩

theorem afterTurn (s : State) : CauseKept s s.afterTurn := by constructor <;> simp

theorem withProg (s : State) (prog : List HostStmt) : CauseKept s (s.withProg prog) := ⟨rfl, rfl, rfl⟩

theorem nameResult (s : State) (into : Option Nat) (v : Option Word) : CauseKept s (s.nameResult into v) := by
  unfold State.nameResult
  split <;> exact ⟨rfl, rfl, rfl⟩

theorem writeTarget (s : State) (t : Target) (v : Word) : CauseKept s (writeTarget s t v) := by
  unfold Machine.writeTarget
  constructor <;> split <;> simp

/-- Outside BUSY a read leaves everything but the draw counter and the REFUSED mark alone. -/
theorem hostRead {s : State} (hbusy : s.status.busy = false) (bits : Nat) (a : Addr) :
    CauseKept s (hostRead s bits a).1 := by
  obtain ⟨-, h⟩ | ⟨hb, -⟩ | ⟨t, -, h⟩ := hostRead_cases s bits a
  · rw [h]; exact ⟨rfl, rfl, rfl⟩
  · exact absurd (hbusy.symm.trans hb) Bool.false_ne_true
  · rw [h]; exact ⟨rfl, rfl, rfl⟩

theorem hostRd {s : State} (hbusy : s.status.busy = false) (bits : Nat) (a : Addr) (into : Option Nat) :
    CauseKept s (hostRd s bits a into) :=
  (hostRead hbusy bits a).trans (nameResult _ into _)

theorem hostWait {s : State} (hbusy : s.status.busy = false) (rest : List HostStmt) : CauseKept s (hostWait s rest) := by
  have hread : CauseKept s (readAccess s .status Target.status.addr).1 := hostRead hbusy 32 Target.status.addr
  unfold Machine.hostWait
  split
  · exact hread
  · exact hread.trans (withProg _ rest)

/-- R95, R266: a halted block ignores the CMD write, so the only write that changes the cause is the reset of R31. -/
theorem hostWrite_or_reset {s : State} (hfault : s.status.fault = true) (hbusy : s.status.busy = false) (bits : Nat)
    (a : Addr) (w : Word) :
    CauseKept s (hostWrite s bits a w) ∨ (bits = 32 ∧ a = 0x000008#24 ∧ w.getLsbD 0 = true) := by
  obtain ⟨-, h⟩ | h | ⟨hb, -⟩ | ⟨hf, -⟩ | ⟨hw, hctrl, -⟩ | ⟨t, -, -, h⟩ := hostWrite_cases s bits a w
  · exact .inl (h ▸ ⟨rfl, rfl, rfl⟩)
  · exact .inl (h.symm ▸ refl s)
  · exact absurd (hbusy.symm.trans hb) Bool.false_ne_true
  · exact absurd (hf.symm.trans hfault) Bool.false_ne_true
  · obtain ⟨hbits, ha⟩ := accessTarget_eq_ctrl.1 hctrl
    exact .inr ⟨hbits, ha, hw⟩
  · exact .inl (h ▸ writeTarget s t w)

/-- The accesses of a host step keep the cause, but for a write statement that resets (R31). -/
theorem hostStep_or_reset {s t : State} (hfault : s.status.fault = true) (hbusy : s.status.busy = false)
    (h : hostStep s = .next t) :
    CauseKept s t ∨ ∃ a v w rest, s.host.prog = .wr 32 a v :: rest ∧ a = 0x000008#24 ∧
      v.eval s.host.names = .ok w ∧ w.getLsbD 0 = true := by
  obtain ⟨-, rfl⟩ | ⟨bits, a, v, rest, w, hprog, hv, rfl⟩ | ⟨bits, a, into, rest, -, rfl⟩ | ⟨rest, -, rfl⟩ :=
    hostStep_eq_next h
  · exact .inl (refl t)
  · obtain hkept | ⟨rfl, ha, hw⟩ := hostWrite_or_reset (s := s.withProg rest) hfault hbusy bits a w
    · exact .inl ((withProg s rest).trans hkept)
    · exact .inr ⟨a, v, w, rest, hprog, ha, hv, hw⟩
  · exact .inl ((withProg s rest).trans (hostRd (s := s.withProg rest) hbusy bits a into))
  · exact .inl (hostWait hbusy rest)

end CauseKept

/-- Settles O7: a halted block has no step of its own, without a host statement the machine stops, and a host step keeps
the cause or is the reset. -/
theorem faultSticksUntilReset : Obligations.FaultSticksUntilReset := by
  intro s t hfault hbusy h
  obtain ⟨-, hready, -⟩ | ⟨-, -, hstep⟩ | ⟨-, -, -, hstep⟩ := step_cases s
  · simp [State.blockReady, hbusy] at hready
  · obtain hkept | ⟨a, v, w, rest, hprog, ha, hv, hw⟩ :=
      CauseKept.hostStep_or_reset (by simpa using hfault) (by simpa using hbusy) (hstep ▸ h)
    · obtain ⟨hstatus, hfinfo, hcmd⟩ := (CauseKept.afterTurn s).trans hkept
      exact .inl ⟨hstatus, hfinfo, hcmd⟩
    · rw [State.afterTurn_host] at hprog hv
      exact .inr ⟨a, v, w, rest, hprog, ha, hv, hw⟩
  · simp [hstep, noStep, hfault] at h

end Sys2Proof.Machine
end

