-- ==== Sys2Proof/Proofs/HostAccesses.lean ====
section
/-! PROOFS. The host port: the accesses that are refused (20_memory.md R66), the accesses during BUSY (R70), and the reads
outside BUSY (R63): of the registers (10_state.md R22 to R24, R32, R36, R38), of STATUS (R26; 60_exceptions.md R260), of
the state after power-on (R44) and of the windows (20_memory.md R67). -/

namespace Sys2Proof.Machine

open Sys2Proof.Claims

/-! ### What an access reaches (R66) -/

theorem hostWrite_of_no_target {s : State} {bits : Nat} {a : Addr} (h : accessTarget s.params bits a = none) (v : Word) :
    hostWrite s bits a v = { s with refused := true } := by
  rw [hostWrite, h]
  rfl

theorem hostRead_of_no_target {s : State} {bits : Nat} {a : Addr} (h : accessTarget s.params bits a = none) :
    hostRead s bits a = ({ s with refused := true }, none) := by
  rw [hostRead, h]
  rfl

theorem hostWrite_of_target {s : State} {bits : Nat} {a : Addr} {t : Target} (h : accessTarget s.params bits a = some t)
    (v : Word) : hostWrite s bits a v = writeAccess s t a v := by
  rw [hostWrite, h]

theorem hostRead_of_target {s : State} {bits : Nat} {a : Addr} {t : Target} (h : accessTarget s.params bits a = some t) :
    hostRead s bits a = ((readAccess s t a).1, some (readAccess s t a).2) := by
  rw [hostRead, h]

/-- The three kinds of access that R66 gives no meaning reach nothing. -/
theorem accessTarget_eq_none {p : Params} {bits : Nat} {a : Addr}
    (h : bits ≠ 32 ∨ a.toNat % 4 ≠ 0 ∨ Unlisted p a.toNat) : accessTarget p bits a = none := by
  unfold accessTarget
  split_ifs with haccess
  · obtain ⟨hwidth, haligned⟩ := haccess
    obtain hbits | hmod | hunlisted := h
    · exact absurd (by simpa [accessWidthOk] using hwidth) hbits
    · exact absurd (by simpa [accessAligned] using haligned) hmod
    · exact targetAt_of_unlisted p a.toNat hunlisted
  · rfl

/-- Settles O22: such an access reaches no target, and an access that reaches none only sets the mark. -/
theorem refusedAccessOnlyMarks : Obligations.RefusedAccessOnlyMarks := by
  intro s bits a v _ h
  have hnone : accessTarget s.params bits a = none := accessTarget_eq_none (h.imp_right (Or.imp_right And.right))
  exact ⟨hostWrite_of_no_target hnone v, hostRead_of_no_target hnone⟩

/-! ### Accesses during BUSY (R70) -/

section Busy

variable {s : State} {bits : Nat} {a : Addr} {t : Target} (hbusy : s.status.busy = true)
  (ht : accessTarget s.params bits a = some t)
include hbusy ht

/-- The write of CMD takes its BUSY branch where the block is not halted (R95); a CTRL write is granted (R31). -/
theorem hostWrite_of_busy (hfault : s.status.fault = false) (hctrl : t ≠ .ctrl) (v : Word) :
    hostWrite s bits a v = faulted s .hostBusyAccess (a.setWidth 32) := by
  rw [hostWrite_of_target ht, ← faultEntry_eq_faulted]
  cases t with
  | ctrl => exact absurd rfl hctrl
  | cmd => simp [writeAccess, issue, busyFault, hfault, hbusy]
  | _ => simp [writeAccess, busyFault, hbusy]

theorem hostRead_of_busy (hstatus : t ≠ .status) :
    hostRead s bits a =
      ({ faulted s .hostBusyAccess (a.setWidth 32) with draws := s.draws + 1 }, some (Config.freeWord s.draws)) := by
  have hfree : readAccess s t a = ((busyFault s a).draw, Config.freeWord s.draws) := if_pos ⟨hbusy, hstatus⟩
  rw [hostRead_of_target ht, hfree]
  rfl

end Busy

/-- A read that R70 does not forbid returns what its target holds and advances the draw counter. -/
theorem hostRead_of_granted {s : State} {bits : Nat} {a : Addr} {t : Target}
    (hgranted : s.status.busy = false ∨ t = .status) (ht : accessTarget s.params bits a = some t) :
    hostRead s bits a = ({ s with draws := s.draws + 1 }, some (readTarget s t)) := by
  have hread : readAccess s t a = (s.draw, readTarget s t) := if_neg fun ⟨hbusy, hstatus⟩ =>
    hgranted.elim (fun hidle => Bool.false_ne_true (hidle.symm.trans hbusy)) hstatus
  rw [hostRead_of_target ht, hread]
  rfl

/-- Settles O20: an access reaches a target and R70 decides, or it reaches none and is refused. -/
theorem busyAccessFaults : Obligations.BusyAccessFaults := by
  intro s bits a hbusy hfault
  refine ⟨fun t ht => ⟨fun v hctrl => ?_, fun hstatus => ?_, ?_⟩, fun hnone => ⟨fun v => ?_, ?_⟩⟩
  · exact hostWrite_of_busy hbusy ht hfault hctrl v
  · exact hostRead_of_busy hbusy ht hstatus
  · rintro rfl
    exact hostRead_of_granted (.inr rfl) ht
  · exact hostWrite_of_no_target hnone v
  · exact hostRead_of_no_target hnone

/-! ### Registers (R62 to R64) -/

/-- The 25 registers stand at the lowest word addresses, for all parameter values. -/
theorem accessTarget_register (p : Params) (k : Nat) (hk : k < 25) :
    accessTarget p 32 (BitVec.ofNat 24 (4 * k)) = registerAt k := by
  have hnat : (BitVec.ofNat 24 (4 * k)).toNat = 4 * k := by
    rw [BitVec.toNat_ofNat]
    omega
  have hslot : 4 * k < 0x100000 := by omega
  simp [accessTarget, accessWidthOk, accessAligned, hnat, targetAt, hslot]

theorem accessTarget_arg (p : Params) (i : Fin 4) :
    accessTarget p 32 (BitVec.ofNat 24 (0x10 + 4 * i.val)) = some (.arg i) := by
  fin_cases i <;> rfl

theorem accessTarget_res (p : Params) (k : Fin 8) :
    accessTarget p 32 (BitVec.ofNat 24 (0x20 + 4 * k.val)) = some (.res k) := by
  fin_cases k <;> rfl

theorem hostWrite_of_not_busy {s : State} {bits : Nat} {a : Addr} {t : Target} (hbusy : s.status.busy = false)
    (ht : accessTarget s.params bits a = some t) (hcmd : t ≠ .cmd) (hctrl : t ≠ .ctrl) (v : Word) :
    hostWrite s bits a v = writeTarget s t v := by
  rw [hostWrite_of_target ht]
  cases t with
  | cmd => exact absurd rfl hcmd
  | ctrl => exact absurd rfl hctrl
  | _ => simp [writeAccess, hbusy]

theorem readTarget_rtbl (s : State) : readTarget s .rtbl = BitVec.ofNat 32 s.rt.toNat :=
  (BitVec.ofNat_toNat 32 s.rt).symm

/-- Settles O24: each address reaches its register, which a write sets and a read returns. -/
theorem registerWritesStick : Obligations.RegisterWritesStick := by
  intro s hbusy
  have hread {a : Addr} {t : Target} (ht : accessTarget s.params 32 a = some t) :
      hostRead s 32 a = ({ s with draws := s.draws + 1 }, some (readTarget s t)) := hostRead_of_granted (.inl hbusy) ht
  refine ⟨fun v => ⟨fun i => ?_, ?_, ?_, ?_⟩, fun i => ?_, fun k => ?_, ?_⟩
  · exact hostWrite_of_not_busy hbusy (accessTarget_arg s.params i) nofun nofun v
  · exact hostWrite_of_not_busy (t := .len (.buf .s0)) hbusy rfl nofun nofun v
  · exact hostWrite_of_not_busy (t := .len (.buf .s1)) hbusy rfl nofun nofun v
  · exact hostWrite_of_not_busy (t := .len .chg) hbusy rfl nofun nofun v
  · exact hread (accessTarget_arg s.params i)
  · exact hread (accessTarget_res s.params k)
  · simp only [List.forall_mem_cons, List.not_mem_nil, false_imp_iff, implies_true, and_true]
    exact ⟨hread (t := .cmd) rfl, hread (t := .finfo) rfl, hread (t := .len (.buf .s0)) rfl,
      hread (t := .len (.buf .s1)) rfl, hread (t := .len .chg) rfl, hread (t := .patW) rfl, hread (t := .patH) rfl,
      readTarget_rtbl s ▸ hread (t := .rtbl) rfl⟩

/-! ### STATUS (10_state.md R26; 60_exceptions.md R260) -/

/-- The flag at bit `b` of the STATUS word. -/
def Status.flag (st : Status) (b : Nat) : Bool := [st.busy, st.err, st.fault, st.rtValid, st.patValid].getD b false

theorem Status.flag_of_ge (st : Status) (b : Nat) (hb : 5 ≤ b) : st.flag b = false :=
  List.getD_eq_default _ _ hb

/-- The word is the five flags, read as a number, below CAUSE. -/
theorem Status.toWord_eq (st : Status) :
    st.toWord = BitVec.ofNat 32 (2 ^ 8 * st.cause.code.toNat + natOfBits st.flag 5) := by
  have hflags : natOfBits st.flag 5 = 0 + st.busy.toNat * 2 ^ 0 + st.err.toNat * 2 ^ 1 + st.fault.toNat * 2 ^ 2
      + st.rtValid.toNat * 2 ^ 3 + st.patValid.toNat * 2 ^ 4 := rfl
  rw [Status.toWord, hflags]
  congr 1
  omega

theorem Status.testBit_natOfBits_flag (st : Status) (b : Nat) : (natOfBits st.flag 5).testBit b = st.flag b := by
  rw [testBit_natOfBits]
  by_cases hb : b < 5
  · rw [decide_eq_true hb, Bool.true_and]
  · rw [st.flag_of_ge b (Nat.not_lt.1 hb), Bool.and_false]

/-- The low byte holds the flags, and CAUSE stands above it. -/
theorem Status.getLsbD_toWord (st : Status) (b : Nat) :
    st.toWord.getLsbD b = if b < 8 then st.flag b else st.cause.code.getLsbD (b - 8) := by
  have hlt : natOfBits st.flag 5 < 2 ^ 8 := (natOfBits_lt st.flag 5).trans (by decide)
  rw [Status.toWord_eq, BitVec.getLsbD_ofNat, Nat.testBit_two_pow_mul_add _ hlt, Status.testBit_natOfBits_flag]
  by_cases hb : b < 32
  · rw [decide_eq_true hb, Bool.true_and]
    rfl
  · rw [decide_eq_false hb, Bool.false_and, if_neg (by omega), BitVec.getLsbD_of_ge _ _ (by omega)]

theorem Status.getLsbD_toWord_zero (st : Status) : st.toWord.getLsbD 0 = st.busy := st.getLsbD_toWord 0

theorem mem_causeTable (c : Cause) : (c, c.code) ∈ causeTable := by
  rcases c with _ | e | f
  · decide
  · cases e <;> decide
  · cases f <;> decide

theorem Cause.getLsbD_code_seven (c : Cause) : c.code.getLsbD 7 = true ↔ ∃ f, c = .fault f := by
  rcases c with _ | e | f
  · exact iff_of_false (by decide) nofun
  · exact iff_of_false (by cases e <;> decide) nofun
  · exact iff_of_true (by cases f <;> decide) ⟨f, rfl⟩

theorem accessTarget_status (p : Params) : accessTarget p 32 0x000004#24 = some .status := rfl

/-- Settles O28: the read reaches STATUS, whose word is the flags below CAUSE, and the codes are those of the table. -/
theorem statusWordLayout : Obligations.StatusWordLayout := by
  refine ⟨fun s hbusy => hostRead_of_granted (.inl hbusy) (accessTarget_status s.params), fun st => ?_, mem_causeTable,
    Cause.getLsbD_code_seven⟩
  refine ⟨st.getLsbD_toWord_zero, st.getLsbD_toWord 1, st.getLsbD_toWord 2, st.getLsbD_toWord 3, st.getLsbD_toWord 4,
    fun b hlow hhigh => ?_, fun b hb => ?_, BitVec.eq_of_getLsbD_eq fun b hb => ?_⟩
  · rw [Status.getLsbD_toWord, if_pos hhigh, st.flag_of_ge b hlow]
  · rw [Status.getLsbD_toWord, if_neg (by omega), BitVec.getLsbD_of_ge _ _ (by omega)]
  · rw [BitVec.getLsbD_extractLsb', decide_eq_true hb, Bool.true_and, Status.getLsbD_toWord, if_neg (by omega),
      Nat.add_sub_cancel_left]

/-! ### Power-on (10_state.md R44) -/

theorem registerAt_reads_zero_at_reset :
    ∀ k < 22, (registerAt k).map (readTarget State.reset) = some 0#32 := by decide

theorem hostRead_reset_value (k : Nat) (hk : k < 22) :
    (hostRead State.reset 32 (BitVec.ofNat 24 (4 * k))).2 = some 0#32 := by
  obtain ⟨t, ht, hzero⟩ := Option.map_eq_some_iff.1 (registerAt_reads_zero_at_reset k hk)
  have haccess := (accessTarget_register State.reset.params k (by omega)).trans ht
  rw [hostRead_of_granted (.inl rfl) haccess, hzero]

/-- Settles O18: the registers below CAP_CELL are the words 0 to 21, and every bank is empty. -/
theorem powerOnState : Obligations.PowerOnState := by
  refine ⟨rfl, fun a hmod hlt => ?_, fun b i => ?_, fun i => ⟨rfl, rfl⟩⟩
  · obtain ⟨k, rfl⟩ := Nat.dvd_of_mod_eq_zero hmod
    exact hostRead_reset_value k (by omega)
  · rcases b with (_ | _) | _ <;> rfl

/-! ### Windows (20_memory.md R63, R67) -/

theorem seenBit_eq (m : Memory Bool) (cap i : Nat) (free : Bool) :
    seenBit m cap i free = if i < cap then (m.read i).getD free else free := by
  unfold seenBit
  cases m.read i <;> rfl

theorem getLsbD_bitWindow (m : Memory Bool) (cap w : Nat) (free : Word) (i : Nat) (hi : i < 32) :
    (bitWindow m cap w free).getLsbD i =
      if 32 * w + i < cap then (m.read (32 * w + i)).getD (free.getLsbD i) else free.getLsbD i := by
  rw [bitWindow, getLsbD_wordOfBits, decide_eq_true hi, Bool.true_and, seenBit_eq]

theorem byteOfWord_textWindow (m : Memory Byte) (cap w : Nat) (free : Word) (q : Nat) (hq : q < 4) :
    byteOfWord (textWindow m cap w free) q = seenByte m cap (4 * w + q) (byteOfWord free q) := by
  refine BitVec.eq_of_getLsbD_eq fun b hb => ?_
  have hbit : 8 * q + b < 32 := by omega
  have hbyte : (8 * q + b) / 8 = q := by omega
  have hpos : (8 * q + b) % 8 = b := by omega
  rw [getLsbD_byteOfWord, textWindow, getLsbD_wordOfBits, hbyte, hpos, decide_eq_true hb, decide_eq_true hbit,
    Bool.true_and, Bool.true_and]

theorem seenByte_of_read (m : Memory Byte) (cap j : Nat) (free c : Byte) (hj : j < cap) (h : m.read j = some c) :
    seenByte m cap j free = c := by
  simp [seenByte, hj, h]

theorem hostRead_byteAddr (s : State) (t : Target) (hp : s.params.legal = true) (hbusy : s.status.busy = false)
    (h : t.Mapped s.params) :
    hostRead s 32 (BitVec.ofNat 24 t.byteAddr) = ({ s with draws := s.draws + 1 }, some (readTarget s t)) :=
  hostRead_of_granted (.inl hbusy) (accessTarget_byteAddr s.params hp t h)

/-- Settles O27: a word of a bit window is read bit by bit, and a word of TXT byte by byte. -/
theorem windowReads : Obligations.WindowReads := by
  refine fun s w hp hbusy => ⟨fun b hw => ⟨_, ?_, getLsbD_bitWindow _ _ w _⟩,
    fun hw => ⟨_, hostRead_byteAddr s (.pat w) hp hbusy hw, getLsbD_bitWindow _ _ w _⟩,
    fun hw => ⟨_, hostRead_byteAddr s (.txt w) hp hbusy hw, fun q hq c hcap hc => ?_⟩⟩
  · rw [← byteAddr_cells]
    exact hostRead_byteAddr s (.cells b w) hp hbusy hw
  · rw [← byteOfWord_eq_ofNat, readTarget, byteOfWord_textWindow _ _ _ _ _ hq, seenByte_of_read _ _ _ _ c hcap hc]

end Sys2Proof.Machine
end

