-- ==== Sys2Proof/Proofs/Scheduling.lean ====
section
/-! PROOFS. Which agent moves (00_scope.md R9; 70_reset_and_hazards.md R299; log entry 3) and what its step is: the block
executes the word in CMD (30_encoding.md R94, R96), the host makes the access of its next statement (R104, R105), and
where neither can move the machine idles or has stopped (60_exceptions.md R274; 10_state.md R43). -/

namespace Sys2Proof.Machine

open Sys2Proof.Claims

/-! ### Who moves -/

theorem State.blockReady_eq_true {s : State} :
    s.blockReady = true ↔ s.status.busy = true ∧ s.status.fault = false := by
  simp [State.blockReady]

theorem State.blockReady_eq_false {s : State} :
    s.blockReady = false ↔ s.status.busy = false ∨ s.status.fault = true := by
  rw [State.blockReady, Bool.and_eq_false_iff, Bool.not_eq_false']

theorem State.hostReady_eq_true {s : State} : s.hostReady = true ↔ s.host.prog ≠ [] := by
  simp [State.hostReady]

theorem State.hostReady_eq_false {s : State} : s.hostReady = false ↔ s.host.prog = [] := by
  simp [State.hostReady]

/-- The block moves where it can, unless the host can too and has the next choice. -/
theorem State.turn_eq_block {s : State} (hready : s.blockReady = true)
    (h : s.hostReady = false ∨ s.sched.head? ≠ some .host) : s.turn = some .block := by
  cases hhost : s.hostReady
  · simp [State.turn, hready, hhost]
  · have hhead : s.sched.head? ≠ some .host := h.resolve_left (by simp [hhost])
    rcases hchoice : s.sched.head? with _ | _ | _
    · simp [State.turn, hready, hhost, hchoice]
    · exact absurd hchoice hhead
    · simp [State.turn, hready, hhost, hchoice]

/-- The host moves where it can, unless the block can too and the next choice is not the host's. -/
theorem State.turn_eq_host {s : State} (hready : s.hostReady = true)
    (h : s.blockReady = false ∨ s.sched.head? = some .host) : s.turn = some .host := by
  obtain hblock | hhead := h
  · simp [State.turn, hready, hblock]
  · cases hblock : s.blockReady <;> simp [State.turn, hready, hblock, hhead]

theorem step_of_turn_eq_block {s : State} (h : s.turn = some .block) : step s = blockStep s.afterTurn := by
  simp [step, agentStep, h]

theorem step_of_turn_eq_host {s : State} (h : s.turn = some .host) : step s = hostStep s.afterTurn := by
  simp [step, agentStep, h]

theorem step_of_not_ready {s : State} (hblock : s.blockReady = false) (hhost : s.hostReady = false) :
    step s = noStep s := by
  simp [step, agentStep, State.turn, hblock, hhost]

/-! ### Neither agent moves -/

/-- Settles O5: with BUSY = 0 and no statement left neither agent moves, and the block is not halted. -/
theorem idleKeepsState : Obligations.IdleKeepsState := by
  intro s hbusy hfault hprog
  rw [step_of_not_ready (State.blockReady_eq_false.2 (.inl hbusy)) (State.hostReady_eq_false.2 hprog), noStep,
    if_neg (Bool.eq_false_iff.1 hfault)]

/-- Settles O6: with FAULT = 1 and no statement left neither agent moves, and the block is halted. -/
theorem haltedStops : Obligations.HaltedStops := by
  intro s hfault hprog
  rw [step_of_not_ready (State.blockReady_eq_false.2 (.inr hfault)) (State.hostReady_eq_false.2 hprog), noStep,
    if_pos hfault]

/-! ### The block moves -/

/-- A word that meets one of the four conditions of R94 fails the check of that condition. -/
theorem legalCommand_eq_false {w : Word}
    (h : w.toNat % 256 ∉ legalOpcodes ∨ 1024 ≤ w.toNat ∨ (w.getLsbD 8 = true ∧ w.toNat % 256 ≠ 0x40) ∨
      (w.getLsbD 9 = true ∧ w.toNat % 256 ≠ 0x40 ∧ w.toNat % 256 ≠ 0x51)) : legalCommand w = false := by
  obtain hopc | hres | ⟨hbit, hopc⟩ | ⟨hbit, hupd, hpplace⟩ := h
  · simp [legalCommand, opcodeKnown, hopc]
  · simp [legalCommand, reservedBitsZero, hres]
  · simp [legalCommand, modeAllowed, hbit, hopc]
  · simp [legalCommand, selAllowed, hbit, hupd, hpplace]

/-- Settles O3: the block executes the word in CMD, and a word that is not legal faults. -/
theorem illegalWordFaults : Obligations.IllegalWordFaults := by
  intro s hturn hillegal
  have hcmd : legalCommand s.afterTurn.cmd = false := by
    rw [State.afterTurn_cmd]
    exact legalCommand_eq_false hillegal
  rw [step_of_turn_eq_block hturn, blockStep_of_not_legalCommand _ hcmd, State.afterTurn_cmd]

/-- A ready block uses up a choice exactly where the host has a statement left. -/
theorem State.afterTurn_of_blockReady {s : State} (hready : s.blockReady = true) :
    s.afterTurn = { s with sched := if s.host.prog = [] then s.sched else s.sched.tail } := by
  by_cases hprog : s.host.prog = []
  · simp [State.afterTurn, State.hostReady, hprog]
  · simp [State.afterTurn, State.hostReady, hready, hprog]

/-- The step of a pending command that the schedule does not put off. -/
theorem step_of_block_moves {s : State} (hbusy : s.status.busy = true) (hfault : s.status.fault = false)
    (h : s.host.prog = [] ∨ s.sched.head? ≠ some .host) :
    step s = blockStep { s with sched := if s.host.prog = [] then s.sched else s.sched.tail } := by
  have hready : s.blockReady = true := State.blockReady_eq_true.2 ⟨hbusy, hfault⟩
  have hturn : s.turn = some .block := State.turn_eq_block hready (h.imp_left State.hostReady_eq_false.2)
  rw [step_of_turn_eq_block hturn, State.afterTurn_of_blockReady hready]

/-! ### The host moves -/

/-- A host that takes its turn with `prog` to do uses up a choice exactly where the block could move. -/
theorem State.afterTurn_of_hostReady {s : State} (hready : s.hostReady = true) : s.afterTurn = hostTurn s s.host.prog := by
  unfold State.afterTurn hostTurn
  simp only [hready, and_true, State.blockReady_eq_true]
  split <;> rfl

theorem step_of_hostMoves {s : State} {st : HostStmt} {rest : List HostStmt} (h : HostMoves s st rest) :
    step s = hostStep (hostTurn s (st :: rest)) := by
  obtain ⟨hprog, hmoves⟩ := h
  have hready : s.hostReady = true := State.hostReady_eq_true.2 (hprog ▸ List.cons_ne_nil st rest)
  have hblock : s.blockReady = false ∨ s.sched.head? = some .host := by
    rwa [State.blockReady_eq_false, or_assoc]
  rw [step_of_turn_eq_host (State.turn_eq_host hready hblock), State.afterTurn_of_hostReady hready, hprog]

theorem hostStep_hostTurn_wr (s : State) (bits : Nat) (a : Addr) (v : HostVal) (rest : List HostStmt) :
    hostStep (hostTurn s (.wr bits a v :: rest)) = hostWr (hostTurn s rest) bits a v := rfl

theorem hostStep_hostTurn_rd (s : State) (bits : Nat) (a : Addr) (into : Option Nat) (rest : List HostStmt) :
    hostStep (hostTurn s (.rd bits a into :: rest)) = .next (hostRd (hostTurn s rest) bits a into) := rfl

theorem hostStep_hostTurn_wait (s : State) (rest : List HostStmt) :
    hostStep (hostTurn s (.wait :: rest)) = .next (hostWait (hostTurn s (.wait :: rest)) rest) := rfl

theorem hostWr_of_eval {s : State} {v : HostVal} {w : Word} (h : v.eval s.host.names = .ok w) (bits : Nat) (a : Addr) :
    hostWr s bits a v = .next (hostWrite s bits a w) := by
  simp [hostWr, h]

theorem hostWr_of_unset {s : State} {v : HostVal} {n : Nat} (h : v.eval s.host.names = .error n) (bits : Nat)
    (a : Addr) : hostWr s bits a v = .fault (.hostNameUnset n) := by
  simp [hostWr, h]

theorem hostRd_of_hostRead {s t : State} {bits : Nat} {a : Addr} {r : Option Word} (h : hostRead s bits a = (t, r))
    (into : Option Nat) : hostRd s bits a into = t.nameResult into r := by
  simp [hostRd, h]

/-- A turn of `wait` is a STATUS read, and the wait ends when the value read has bit 0 = 0 (R105). -/
theorem hostWait_of_hostRead {s t : State} {w : Word} (h : hostRead s 32 0x000004#24 = (t, some w))
    (rest : List HostStmt) : hostWait s rest = if w.getLsbD 0 then t else t.withProg rest := by
  obtain ⟨rfl, hw⟩ := Prod.mk.inj ((hostRead_status s).symm.trans h)
  rw [hostWait, Option.some.inj hw]

/-- Settles O4: the agent that moves is known, and its step is the decoded command, a write, a read or a turn of
`wait`. -/
theorem stepRunsDecodedCommand : Obligations.StepRunsDecodedCommand := by
  refine ⟨fun s i hbusy hfault hmoves hdecode => ?_, fun s bits a v rest hmoves => ⟨fun w hw => ?_, fun n hn => ?_⟩,
    fun s t bits a r rest hread => ⟨fun hmoves => ?_, fun n hmoves => ⟨fun w hw => ?_, fun hr => ?_⟩⟩,
    fun s t w rest hmoves hread => ⟨fun hw => ?_, fun hw => ?_⟩⟩
  · rw [step_of_block_moves hbusy hfault hmoves]
    exact blockStep_of_decode _ i hdecode
  · rw [step_of_hostMoves hmoves, hostStep_hostTurn_wr, hostWr_of_eval (s := hostTurn s rest) hw]
  · rw [step_of_hostMoves hmoves, hostStep_hostTurn_wr, hostWr_of_unset (s := hostTurn s rest) hn]
  · rw [step_of_hostMoves hmoves, hostStep_hostTurn_rd, hostRd_of_hostRead hread]
    rfl
  · rw [step_of_hostMoves hmoves, hostStep_hostTurn_rd, hostRd_of_hostRead hread, hw]
    rfl
  · rw [step_of_hostMoves hmoves, hostStep_hostTurn_rd, hostRd_of_hostRead hread, hr]
    rfl
  · rw [step_of_hostMoves hmoves, hostStep_hostTurn_wait, hostWait_of_hostRead hread, if_pos hw]
  · rw [step_of_hostMoves hmoves, hostStep_hostTurn_wait, hostWait_of_hostRead hread,
      if_neg (Bool.eq_false_iff.1 hw)]
    rfl

/-! ### A wait that the block's step follows (R299) -/

/-- A turn of `wait` that the schedule puts before the block's step: BUSY reads 1, so the wait goes on. -/
theorem step_wait_of_busy {s : State} {rest : List HostStmt} {sched : List Agent} (hbusy : s.status.busy = true)
    (hfault : s.status.fault = false) (hprog : s.host.prog = .wait :: rest) (hsched : s.sched = .host :: sched) :
    step s = .next { s with sched := sched, draws := s.draws + 1 } := by
  have hmoves : HostMoves s .wait rest := ⟨hprog, .inr (.inr (by simp [hsched]))⟩
  have hturn : hostTurn s (.wait :: rest) = { s with sched := sched } := by
    simp [hostTurn, hbusy, hfault, ← hprog, hsched]
  have hread : hostRead { s with sched := sched } 32 0x000004#24 =
      ({ s with sched := sched, draws := s.draws + 1 }, some s.status.toWord) :=
    hostRead_of_granted (.inr rfl) (accessTarget_status s.params)
  rw [step_of_hostMoves hmoves, hostStep_hostTurn_wait, hturn, hostWait_of_hostRead hread,
    if_pos (s.status.getLsbD_toWord_zero.trans hbusy)]

theorem run_succ_of_next (M : Host.Core) {s t : M.State} (h : M.step s = .next t) (k : Nat) :
    M.run (k + 1) s = M.run k t := by
  rw [Host.Core.run, h]

theorem run_one (M : Host.Core) (s : M.State) : M.run 1 s = M.step s := by
  rw [Host.Core.run]
  cases M.step s <;> rfl

/-- Settles O11, by induction on the number of choices that put the host first. -/
theorem waitLetsBlockRun : Obligations.WaitLetsBlockRun := by
  intro s rest n hbusy hfault hprog hsched
  induction n generalizing s with
  | zero =>
    have hstep : step s = blockStep { s with sched := [] } := by
      have hmoves : s.sched.head? ≠ some .host := by simp [hsched]
      simpa [hsched] using step_of_block_moves hbusy hfault (.inr hmoves)
    exact (run_one Sys2Proof.core s).trans hstep
  | succ n ih =>
    have hstep : step s = .next { s with sched := List.replicate n .host, draws := s.draws + 1 } :=
      step_wait_of_busy hbusy hfault hprog hsched
    rw [Nat.add_comm n 1, ← Nat.add_assoc, Nat.add_comm 1 n]
    exact (run_succ_of_next Sys2Proof.core hstep (n + 1)).trans (ih _ hbusy hfault hprog rfl)

end Sys2Proof.Machine
end
